-- ==== Sys2Proof/Word.lean ====
section
/-!
DEFINITION. The word types of the Twin64 core (00_scope.md R6, R8) and the constants of its address map.
-/

namespace Sys2Proof

/-- A Word: 64 bits, the value of a general or control register (00_scope.md R8). -/
abbrev Word := BitVec 64

/-- One byte of memory. -/
abbrev Byte := BitVec 8

/-- A 32-bit instruction word (30_encoding.md R65), also the width of a trap's diagnostic words (10_state.md R30). -/
abbrev InstrWord := BitVec 32

/-- An instruction address, PSW.IA: 32 bits (10_state.md R17). -/
abbrev InstrAddr := BitVec 32

end Sys2Proof
end

