-- ==== Sys2Proof/Config.lean ====
section
/-!
DEFINITION. What an implementation fixes: the constants of 00_scope.md R6, the types of the OPEN parameters, and
the free values of 93_implementation_defined.md (I1, I5), which have no body, so that no proof can see them.
-/

namespace Sys2Proof

/-- PAGE_SIZE, 16 KiB (00_scope.md R6). -/
def Config.pageSize : Nat := 16384

/-- IO_MEM_START, the first address of the I/O window (00_scope.md R6). -/
def Config.ioMemStart : Nat := 0xF0000000

/-- IO_MEM_LIMIT, the last address of the I/O window (00_scope.md R6). -/
def Config.ioMemLimit : Nat := 0xFFFFFFFF

/-- What stands behind the I/O window, the parameter IO_DEVICE (20_memory.md R37, R52). -/
inductive IoDevice where
  /-- The default: each backed byte is plain storage (R37). -/
  | plainStorage
  /-- Any other device: a read's value is the device's own choice (93_implementation_defined.md I5; log 4). -/
  | attached
  deriving DecidableEq, Repr

/-- One access made to an attached device: physical address, length in bytes and, for a write, the value of the
low 8n bits (20_memory.md R47, R48). -/
inductive IoEvent where
  | read (pa n : Nat)
  | write (pa n value : Nat)
  deriving DecidableEq, Repr

/-- The OPEN parameters of 92_eei_decisions.md but TLB_ENTRIES, which is the length of State's TLB (log 1). -/
structure Params where
  /-- PHYS_MEM_SIZE, 0 < size <= 0xF0000000 (20_memory.md R36, R38). -/
  physMemSize : Nat
  /-- IO_MEM_SIZE, 0 < size <= 0x10000000 (20_memory.md R37). -/
  ioMemSize : Nat
  /-- IO_DEVICE (20_memory.md R37). -/
  ioDevice : IoDevice
  deriving DecidableEq, Repr

/-- The constraints of 92_eei_decisions.md's parameter table on the two sizes. -/
abbrev Params.Ok (p : Params) : Prop :=
  0 < p.physMemSize ∧ p.physMemSize ≤ Config.ioMemStart ∧ 0 < p.ioMemSize ∧ p.ioMemSize ≤ 0x10000000

/-- The parameters of State.reset: the configuration of 95_test_vectors.md (DESIGN CHOICE, log 1). -/
def Config.defaultParams : Params :=
  { physMemSize := 0x100000, ioMemSize := 0x10000000, ioDevice := .plainStorage }

/-- TLB_ENTRIES of State.reset: the configuration of 95_test_vectors.md (DESIGN CHOICE, log 1). -/
def Config.defaultTlbEntries : Nat := 4

/-- FREE VALUE: what the byte at a physical address reads as before anything was written to it: any value, the same
at every read until it is written (93_implementation_defined.md I1; 70_reset_and_hazards.md R158; log 2). -/
opaque Config.unwrittenByte : Nat → Byte

/-- FREE VALUE: what an attached device answers to a read, given the accesses made before it (newest first), the
physical address and the length (93_implementation_defined.md I5; 20_memory.md R52; log 4). -/
opaque Config.ioDeviceRead : List IoEvent → Nat → Nat → Word

end Sys2Proof
end

