-- ==== Sys2Proof/Syntax.lean ====
section
/-!
DEFINITION. The instructions of the Twin64 core: one constructor per row of spec/opcode_table.json (its mnemonic and
its rule stand beside it). Operands stand in the order of the notation of 30_encoding.md R79; immediates are the raw
fields of R66, extended or scaled where they are used (R68).
-/

namespace Sys2Proof

/-- The number of a general register, GR0 to GR15 (10_state.md R12; every 4-bit field is in range, 30_encoding.md R67). -/
abbrev Reg := Fin 16

/-- The number of a control-register slot, CR0 to CR15 (10_state.md R23); not every slot is recognized (R24). -/
abbrev CrSlot := Fin 16

/-- The instructions. Suffixes of a constructor name the operand form of its row: `R` a register second operand
(ALU-R, SHAOP-R), `I` an immediate one (ALU-I, SHAOP-I), `Shamt` the position or amount in SHAMT, `O` base + offset
(MEM-O), `X` base + index (MEM-X). -/
inductive Instr where
  -- ALU group (40_alu.md)
  /-- NOP, format ALU-NOP (R88). -/
  | nop
  /-- ADD, format ALU-R (R89). -/
  | addR (r b a : Reg)
  /-- ADD, format ALU-I (R89). -/
  | addI (r b : Reg) (imm : BitVec 13)
  /-- SUB, format ALU-R (R90). -/
  | subR (r b a : Reg)
  /-- SUB, format ALU-I (R90). -/
  | subI (r b : Reg) (imm : BitVec 13)
  /-- AND, format ALU-R (R91). -/
  | andR (r b a : Reg)
  /-- AND, format ALU-I (R91). -/
  | andI (r b : Reg) (imm : BitVec 13)
  /-- OR, format ALU-R (R92). -/
  | orR (r b a : Reg)
  /-- OR, format ALU-I (R92). -/
  | orI (r b : Reg) (imm : BitVec 13)
  /-- XOR, format ALU-R (R93). -/
  | xorR (r b a : Reg)
  /-- XOR, format ALU-I (R93). -/
  | xorI (r b : Reg) (imm : BitVec 13)
  /-- CMP.EQ, format ALU-R (R94). -/
  | cmpEqR (r b a : Reg)
  /-- CMP.EQ, format ALU-I (R94). -/
  | cmpEqI (r b : Reg) (imm : BitVec 13)
  /-- CMP.NE, format ALU-R (R94). -/
  | cmpNeR (r b a : Reg)
  /-- CMP.NE, format ALU-I (R94). -/
  | cmpNeI (r b : Reg) (imm : BitVec 13)
  /-- CMP.LT, format ALU-R (R94). -/
  | cmpLtR (r b a : Reg)
  /-- CMP.LT, format ALU-I (R94). -/
  | cmpLtI (r b : Reg) (imm : BitVec 13)
  /-- CMP.LE, format ALU-R (R94). -/
  | cmpLeR (r b a : Reg)
  /-- CMP.LE, format ALU-I (R94). -/
  | cmpLeI (r b : Reg) (imm : BitVec 13)
  /-- CMP.GT, format ALU-R (R94). -/
  | cmpGtR (r b a : Reg)
  /-- CMP.GT, format ALU-I (R94). -/
  | cmpGtI (r b : Reg) (imm : BitVec 13)
  /-- CMP.GE, format ALU-R (R94). -/
  | cmpGeR (r b a : Reg)
  /-- CMP.GE, format ALU-I (R94). -/
  | cmpGeI (r b : Reg) (imm : BitVec 13)
  /-- CMP.LTU, format ALU-R (R94). -/
  | cmpLtuR (r b a : Reg)
  /-- CMP.LTU, format ALU-I (R94). -/
  | cmpLtuI (r b : Reg) (imm : BitVec 13)
  /-- CMP.GEU, format ALU-R (R94). -/
  | cmpGeuR (r b a : Reg)
  /-- CMP.GEU, format ALU-I (R94). -/
  | cmpGeuI (r b : Reg) (imm : BitVec 13)
  /-- EXTRU, format BITOP (R96). -/
  | extru (r b : Reg) (pos len : BitVec 6)
  /-- EXTRU (SHAMT), format BITOP (R96). -/
  | extruShamt (r b : Reg) (len : BitVec 6)
  /-- EXTRS, format BITOP (R97). -/
  | extrs (r b : Reg) (pos len : BitVec 6)
  /-- EXTRS (SHAMT), format BITOP (R97). -/
  | extrsShamt (r b : Reg) (len : BitVec 6)
  /-- DEP, format BITOP (R98). -/
  | dep (r b : Reg) (pos len : BitVec 6)
  /-- DEP (SHAMT), format BITOP (R98). -/
  | depShamt (r b : Reg) (len : BitVec 6)
  /-- SHL, format SHAOP-R (R100). -/
  | shlR (r b a : Reg)
  /-- SHL, format SHAOP-I (R100). -/
  | shlI (r b : Reg) (sa : BitVec 6)
  /-- SHL (SHAMT), format SHAOP-S (R100). -/
  | shlShamt (r b : Reg)
  /-- SHR, format SHAOP-R (R101). -/
  | shrR (r b a : Reg)
  /-- SHR, format SHAOP-I (R101). -/
  | shrI (r b : Reg) (sa : BitVec 6)
  /-- SHR (SHAMT), format SHAOP-S (R101). -/
  | shrShamt (r b : Reg)
  /-- SHRA, format SHAOP-R (R102). -/
  | shraR (r b a : Reg)
  /-- SHRA, format SHAOP-I (R102). -/
  | shraI (r b : Reg) (sa : BitVec 6)
  /-- SHRA (SHAMT), format SHAOP-S (R102). -/
  | shraShamt (r b : Reg)
  /-- LDI.L, format IMMOP (R103). -/
  | ldiL (r : Reg) (imm : BitVec 20)
  /-- LDI.M, format IMMOP (R104). -/
  | ldiM (r : Reg) (imm : BitVec 20)
  /-- LDI.U, format IMMOP (R105). -/
  | ldiU (r : Reg) (imm : BitVec 20)
  /-- LDI.T, format IMMOP (R106). -/
  | ldiT (r : Reg) (imm : BitVec 20)
  /-- LDO, format LDO (R107). -/
  | ldo (r b : Reg) (imm : BitVec 15)
  -- MEM group (41_mem.md)
  /-- LD.B, format MEM-O (R110). -/
  | ldBO (r b : Reg) (ofs : BitVec 13)
  /-- LD.B, format MEM-X (R110). -/
  | ldBX (r b a : Reg)
  /-- LD.B.S, format MEM-O (R110). -/
  | ldBSO (r b : Reg) (ofs : BitVec 13)
  /-- LD.B.S, format MEM-X (R110). -/
  | ldBSX (r b a : Reg)
  /-- LD.H, format MEM-O (R110). -/
  | ldHO (r b : Reg) (ofs : BitVec 13)
  /-- LD.H, format MEM-X (R110). -/
  | ldHX (r b a : Reg)
  /-- LD.H.S, format MEM-O (R110). -/
  | ldHSO (r b : Reg) (ofs : BitVec 13)
  /-- LD.H.S, format MEM-X (R110). -/
  | ldHSX (r b a : Reg)
  /-- LD.W, format MEM-O (R110). -/
  | ldWO (r b : Reg) (ofs : BitVec 13)
  /-- LD.W, format MEM-X (R110). -/
  | ldWX (r b a : Reg)
  /-- LD.W.S, format MEM-O (R110). -/
  | ldWSO (r b : Reg) (ofs : BitVec 13)
  /-- LD.W.S, format MEM-X (R110). -/
  | ldWSX (r b a : Reg)
  /-- LD.D, format MEM-O (R110). -/
  | ldDO (r b : Reg) (ofs : BitVec 13)
  /-- LD.D, format MEM-X (R110). -/
  | ldDX (r b a : Reg)
  /-- LD.D.S, format MEM-O (R110). -/
  | ldDSO (r b : Reg) (ofs : BitVec 13)
  /-- LD.D.S, format MEM-X (R110). -/
  | ldDSX (r b a : Reg)
  /-- ST.B, format MEM-O (R111). -/
  | stBO (r b : Reg) (ofs : BitVec 13)
  /-- ST.B, format MEM-X (R111). -/
  | stBX (r b a : Reg)
  /-- ST.H, format MEM-O (R111). -/
  | stHO (r b : Reg) (ofs : BitVec 13)
  /-- ST.H, format MEM-X (R111). -/
  | stHX (r b a : Reg)
  /-- ST.W, format MEM-O (R111). -/
  | stWO (r b : Reg) (ofs : BitVec 13)
  /-- ST.W, format MEM-X (R111). -/
  | stWX (r b a : Reg)
  /-- ST.D, format MEM-O (R111). -/
  | stDO (r b : Reg) (ofs : BitVec 13)
  /-- ST.D, format MEM-X (R111). -/
  | stDX (r b a : Reg)
  /-- LDR.B, format MEM-O (R112). -/
  | ldrBO (r b : Reg) (ofs : BitVec 13)
  /-- LDR.B, format MEM-X (R112). -/
  | ldrBX (r b a : Reg)
  /-- LDR.B.S, format MEM-O (R112). -/
  | ldrBSO (r b : Reg) (ofs : BitVec 13)
  /-- LDR.B.S, format MEM-X (R112). -/
  | ldrBSX (r b a : Reg)
  /-- LDR.H, format MEM-O (R112). -/
  | ldrHO (r b : Reg) (ofs : BitVec 13)
  /-- LDR.H, format MEM-X (R112). -/
  | ldrHX (r b a : Reg)
  /-- LDR.H.S, format MEM-O (R112). -/
  | ldrHSO (r b : Reg) (ofs : BitVec 13)
  /-- LDR.H.S, format MEM-X (R112). -/
  | ldrHSX (r b a : Reg)
  /-- LDR.W, format MEM-O (R112). -/
  | ldrWO (r b : Reg) (ofs : BitVec 13)
  /-- LDR.W, format MEM-X (R112). -/
  | ldrWX (r b a : Reg)
  /-- LDR.W.S, format MEM-O (R112). -/
  | ldrWSO (r b : Reg) (ofs : BitVec 13)
  /-- LDR.W.S, format MEM-X (R112). -/
  | ldrWSX (r b a : Reg)
  /-- LDR.D, format MEM-O (R112). -/
  | ldrDO (r b : Reg) (ofs : BitVec 13)
  /-- LDR.D, format MEM-X (R112). -/
  | ldrDX (r b a : Reg)
  /-- LDR.D.S, format MEM-O (R112). -/
  | ldrDSO (r b : Reg) (ofs : BitVec 13)
  /-- LDR.D.S, format MEM-X (R112). -/
  | ldrDSX (r b a : Reg)
  /-- STC.B, format MEM-O (R113). -/
  | stcBO (r b : Reg) (ofs : BitVec 13)
  /-- STC.B, format MEM-X (R113). -/
  | stcBX (r b a : Reg)
  /-- STC.H, format MEM-O (R113). -/
  | stcHO (r b : Reg) (ofs : BitVec 13)
  /-- STC.H, format MEM-X (R113). -/
  | stcHX (r b a : Reg)
  /-- STC.W, format MEM-O (R113). -/
  | stcWO (r b : Reg) (ofs : BitVec 13)
  /-- STC.W, format MEM-X (R113). -/
  | stcWX (r b a : Reg)
  /-- STC.D, format MEM-O (R113). -/
  | stcDO (r b : Reg) (ofs : BitVec 13)
  /-- STC.D, format MEM-X (R113). -/
  | stcDX (r b a : Reg)
  -- BR group (42_branch.md)
  /-- B, format BR-19 (R117). -/
  | b (r : Reg) (disp : BitVec 19)
  /-- BR, format BR-R (R118). -/
  | br (r b : Reg)
  /-- BV, format BR-R (R119). -/
  | bv (r b a : Reg)
  /-- BB.F, format BB (R120). -/
  | bbF (r : Reg) (pos : BitVec 6) (disp : BitVec 13)
  /-- BB.T, format BB (R120). -/
  | bbT (r : Reg) (pos : BitVec 6) (disp : BitVec 13)
  /-- BB.F (SHAMT), format BB (R120). -/
  | bbFShamt (r : Reg) (disp : BitVec 13)
  /-- BB.T (SHAMT), format BB (R120). -/
  | bbTShamt (r : Reg) (disp : BitVec 13)
  /-- CBR.EQ, format CBR (R121). -/
  | cbrEq (r b : Reg) (disp : BitVec 15)
  /-- CBR.NE, format CBR (R121). -/
  | cbrNe (r b : Reg) (disp : BitVec 15)
  /-- CBR.LT, format CBR (R121). -/
  | cbrLt (r b : Reg) (disp : BitVec 15)
  /-- CBR.LE, format CBR (R121). -/
  | cbrLe (r b : Reg) (disp : BitVec 15)
  /-- CBR.GT, format CBR (R121). -/
  | cbrGt (r b : Reg) (disp : BitVec 15)
  /-- CBR.GE, format CBR (R121). -/
  | cbrGe (r b : Reg) (disp : BitVec 15)
  /-- CBR.LTU, format CBR (R121). -/
  | cbrLtu (r b : Reg) (disp : BitVec 15)
  /-- CBR.GEU, format CBR (R121). -/
  | cbrGeu (r b : Reg) (disp : BitVec 15)
  /-- MBR, format MBR (R122). -/
  | mbr (b : Reg)
  -- SYS group (43_sys.md)
  /-- MFCR, format SYS-R (R125). -/
  | mfcr (r : Reg) (n : CrSlot)
  /-- MTCR, format SYS-R (R126). -/
  | mtcr (n : CrSlot) (r : Reg)
  /-- LPA, format SYS-R (R127). -/
  | lpa (r b : Reg)
  /-- PRB.R, format SYS-R (R128). -/
  | prbR (r b : Reg)
  /-- PRB.W, format SYS-R (R128). -/
  | prbW (r b : Reg)
  /-- PRB.X, format SYS-R (R128). -/
  | prbX (r b : Reg)
  /-- TLB.INS, format SYS-R (R129). -/
  | tlbIns (r b a : Reg)
  /-- TLB.PRG, format SYS-R (R130). -/
  | tlbPrg (b : Reg)
  /-- CA, format SYS-0 (R131). -/
  | ca
  /-- RSM, format SYS-M (R133). -/
  | rsm (r : Reg) (mask : BitVec 13)
  /-- SSM, format SYS-M (R134). -/
  | ssm (r : Reg) (mask : BitVec 13)
  /-- RFI, format SYS-R (R135). -/
  | rfi (n : CrSlot)
  /-- TRAP, format SYS-T (R136). -/
  | trap (code : BitVec 19)
  /-- HALT, format SYS-0 (R137). -/
  | halt
  deriving DecidableEq, Repr

end Sys2Proof
end

