-- ==== Sys2Proof/WellFormed.lean ====
section
/-!
DEFINITION. Which terms of `Instr` are well-formed instructions. Operand fields have their width in their type, so
the one check left is the control-register id of MR and RFI (43_sys.md R124).
-/

namespace Sys2Proof

/-- The recognized control-register ids: 0, 1, 4, 5, 6, 7, 8 (10_state.md R23); 2, 3 and 9 to 15 are reserved (R24). -/
def CrSlot.recognized (n : CrSlot) : Bool :=
  n == 0 || n == 1 || n == 4 || n == 5 || n == 6 || n == 7 || n == 8

/-- The control-register slot an instruction names in its B field, if its format has one (30_encoding.md R67, R70). -/
def Instr.crSlot? : Instr → Option CrSlot
  | .mfcr _ n => some n
  | .mtcr n _ => some n
  | .rfi n => some n
  | _ => none

/-- A well-formed instruction: MFCR, MTCR and RFI name a recognized control register (30_encoding.md R75; 43_sys.md
R124). An ill-formed one is still decoded and still has its meaning: it raises IllegalInstruction (R82 check 3; log
14). -/
def Instr.wellFormed (i : Instr) : Bool :=
  match i.crSlot? with
  | some n => n.recognized
  | none => true

end Sys2Proof
end

