-- ==== Sys2Proof/Decode.lean ====
section
/-!
DEFINITION. The decoder (30_encoding.md R66-R78), total on every word and every list of bytes, and after it an encoder
written from the same tables (R70-R74). `decodeTableWord` is the form the host asks for.
-/

namespace Sys2Proof

/-- Why a word, or a list of bytes, is no instruction. -/
inductive Reject where
  /-- The pair (G, F) is not assigned (30_encoding.md R75). -/
  | unassignedFamily
  /-- The family does not assign this qualifier value (30_encoding.md R76). -/
  | unassignedQualifier
  /-- Not exactly the four bytes of one instruction (30_encoding.md R65). -/
  | notFourBytes
  deriving DecidableEq, Repr

/-- The decoded record: every field of 30_encoding.md R66, extracted from every word (R69). `x` is w[14], `s` is w[13]. -/
structure Fields where
  g : BitVec 2
  f : BitVec 4
  r : BitVec 4
  q : BitVec 3
  b : BitVec 4
  x : Bool
  s : Bool
  a : BitVec 4
  imm13 : BitVec 13
  imm15 : BitVec 15
  imm19 : BitVec 19
  imm20 : BitVec 20
  pos6 : BitVec 6
  bpos6 : BitVec 6
  len6 : BitVec 6
  sa6 : BitVec 6
  deriving DecidableEq, Repr

/-- Bit extraction: no failure mode (30_encoding.md R66, R69). -/
def fieldsOf (w : InstrWord) : Fields :=
  { g := w.extractLsb' 30 2
    f := w.extractLsb' 26 4
    r := w.extractLsb' 22 4
    q := w.extractLsb' 19 3
    b := w.extractLsb' 15 4
    x := w.getLsbD 14
    s := w.getLsbD 13
    a := w.extractLsb' 9 4
    imm13 := w.extractLsb' 0 13
    imm15 := w.extractLsb' 0 15
    imm19 := w.extractLsb' 0 19
    imm20 := w.extractLsb' 0 20
    pos6 := w.extractLsb' 7 6
    bpos6 := w.extractLsb' 13 6
    len6 := w.extractLsb' 0 6
    sa6 := w.extractLsb' 0 6 }

/-- Family NOP (G = 0, F = 0) by its qualifier (30_encoding.md R71, R76). -/
def dispatchNop (_d : Fields) : Except Reject Instr :=
  .ok .nop

/-- Family ADD (G = 0, F = 1) by its qualifier (30_encoding.md R71, R76). -/
def dispatchAdd (d : Fields) : Except Reject Instr :=
  match d.q with
  | 0#3 => .ok (if d.x then .addI d.r.toFin d.b.toFin d.imm13 else .addR d.r.toFin d.b.toFin d.a.toFin)
  | _ => .error .unassignedQualifier

/-- Family SUB (G = 0, F = 2) by its qualifier (30_encoding.md R71, R76). -/
def dispatchSub (d : Fields) : Except Reject Instr :=
  match d.q with
  | 0#3 => .ok (if d.x then .subI d.r.toFin d.b.toFin d.imm13 else .subR d.r.toFin d.b.toFin d.a.toFin)
  | _ => .error .unassignedQualifier

/-- Family AND (G = 0, F = 3) by its qualifier (30_encoding.md R71, R76). -/
def dispatchAnd (d : Fields) : Except Reject Instr :=
  match d.q with
  | 0#3 => .ok (if d.x then .andI d.r.toFin d.b.toFin d.imm13 else .andR d.r.toFin d.b.toFin d.a.toFin)
  | _ => .error .unassignedQualifier

/-- Family OR (G = 0, F = 4) by its qualifier (30_encoding.md R71, R76). -/
def dispatchOr (d : Fields) : Except Reject Instr :=
  match d.q with
  | 0#3 => .ok (if d.x then .orI d.r.toFin d.b.toFin d.imm13 else .orR d.r.toFin d.b.toFin d.a.toFin)
  | _ => .error .unassignedQualifier

/-- Family XOR (G = 0, F = 5) by its qualifier (30_encoding.md R71, R76). -/
def dispatchXor (d : Fields) : Except Reject Instr :=
  match d.q with
  | 0#3 => .ok (if d.x then .xorI d.r.toFin d.b.toFin d.imm13 else .xorR d.r.toFin d.b.toFin d.a.toFin)
  | _ => .error .unassignedQualifier

/-- Family CMP (G = 0, F = 6) by its qualifier (30_encoding.md R71, R76). -/
def dispatchCmp (d : Fields) : Except Reject Instr :=
  match d.q with
  | 0#3 => .ok (if d.x then .cmpEqI d.r.toFin d.b.toFin d.imm13 else .cmpEqR d.r.toFin d.b.toFin d.a.toFin)
  | 1#3 => .ok (if d.x then .cmpNeI d.r.toFin d.b.toFin d.imm13 else .cmpNeR d.r.toFin d.b.toFin d.a.toFin)
  | 2#3 => .ok (if d.x then .cmpLtI d.r.toFin d.b.toFin d.imm13 else .cmpLtR d.r.toFin d.b.toFin d.a.toFin)
  | 3#3 => .ok (if d.x then .cmpLeI d.r.toFin d.b.toFin d.imm13 else .cmpLeR d.r.toFin d.b.toFin d.a.toFin)
  | 4#3 => .ok (if d.x then .cmpGtI d.r.toFin d.b.toFin d.imm13 else .cmpGtR d.r.toFin d.b.toFin d.a.toFin)
  | 5#3 => .ok (if d.x then .cmpGeI d.r.toFin d.b.toFin d.imm13 else .cmpGeR d.r.toFin d.b.toFin d.a.toFin)
  | 6#3 => .ok (if d.x then .cmpLtuI d.r.toFin d.b.toFin d.imm13 else .cmpLtuR d.r.toFin d.b.toFin d.a.toFin)
  | 7#3 => .ok (if d.x then .cmpGeuI d.r.toFin d.b.toFin d.imm13 else .cmpGeuR d.r.toFin d.b.toFin d.a.toFin)

/-- Family BITOP (G = 0, F = 7) by its qualifier (30_encoding.md R71, R76). -/
def dispatchBitop (d : Fields) : Except Reject Instr :=
  match d.q with
  | 0#3 => .ok (if d.s then .extruShamt d.r.toFin d.b.toFin d.len6 else .extru d.r.toFin d.b.toFin d.pos6 d.len6)
  | 1#3 => .ok (if d.s then .extrsShamt d.r.toFin d.b.toFin d.len6 else .extrs d.r.toFin d.b.toFin d.pos6 d.len6)
  | 2#3 => .ok (if d.s then .depShamt d.r.toFin d.b.toFin d.len6 else .dep d.r.toFin d.b.toFin d.pos6 d.len6)
  | _ => .error .unassignedQualifier

/-- Family SHAOP (G = 0, F = 8) by its qualifier (30_encoding.md R71, R76). -/
def dispatchShaop (d : Fields) : Except Reject Instr :=
  match d.q with
  | 0#3 => .ok (if d.s then .shlShamt d.r.toFin d.b.toFin
      else if d.x then .shlI d.r.toFin d.b.toFin d.sa6 else .shlR d.r.toFin d.b.toFin d.a.toFin)
  | 1#3 => .ok (if d.s then .shrShamt d.r.toFin d.b.toFin
      else if d.x then .shrI d.r.toFin d.b.toFin d.sa6 else .shrR d.r.toFin d.b.toFin d.a.toFin)
  | 2#3 => .ok (if d.s then .shraShamt d.r.toFin d.b.toFin
      else if d.x then .shraI d.r.toFin d.b.toFin d.sa6 else .shraR d.r.toFin d.b.toFin d.a.toFin)
  | _ => .error .unassignedQualifier

/-- Family IMMOP (G = 0, F = 9) by its qualifier (30_encoding.md R71, R76). -/
def dispatchImmop (d : Fields) : Except Reject Instr :=
  match d.q.extractLsb' 1 2 with
  | 0#2 => .ok (.ldiL d.r.toFin d.imm20)
  | 1#2 => .ok (.ldiM d.r.toFin d.imm20)
  | 2#2 => .ok (.ldiU d.r.toFin d.imm20)
  | 3#2 => .ok (.ldiT d.r.toFin d.imm20)

/-- Family LDO (G = 0, F = 10) by its qualifier (30_encoding.md R71, R76). -/
def dispatchLdo (d : Fields) : Except Reject Instr :=
  match d.q with
  | 0#3 => .ok (.ldo d.r.toFin d.b.toFin d.imm15)
  | _ => .error .unassignedQualifier

/-- The ALU group by its family (30_encoding.md R71). -/
def dispatchAluGroup (d : Fields) : Except Reject Instr :=
  match d.f with
  | 0#4 => dispatchNop d
  | 1#4 => dispatchAdd d
  | 2#4 => dispatchSub d
  | 3#4 => dispatchAnd d
  | 4#4 => dispatchOr d
  | 5#4 => dispatchXor d
  | 6#4 => dispatchCmp d
  | 7#4 => dispatchBitop d
  | 8#4 => dispatchShaop d
  | 9#4 => dispatchImmop d
  | 10#4 => dispatchLdo d
  | _ => .error .unassignedFamily

/-- Family LD (G = 1, F = 8) by its qualifier (30_encoding.md R72, R76). -/
def dispatchLd (d : Fields) : Except Reject Instr :=
  match d.q with
  | 0#3 => .ok (if d.x then .ldBX d.r.toFin d.b.toFin d.a.toFin else .ldBO d.r.toFin d.b.toFin d.imm13)
  | 1#3 => .ok (if d.x then .ldBSX d.r.toFin d.b.toFin d.a.toFin else .ldBSO d.r.toFin d.b.toFin d.imm13)
  | 2#3 => .ok (if d.x then .ldHX d.r.toFin d.b.toFin d.a.toFin else .ldHO d.r.toFin d.b.toFin d.imm13)
  | 3#3 => .ok (if d.x then .ldHSX d.r.toFin d.b.toFin d.a.toFin else .ldHSO d.r.toFin d.b.toFin d.imm13)
  | 4#3 => .ok (if d.x then .ldWX d.r.toFin d.b.toFin d.a.toFin else .ldWO d.r.toFin d.b.toFin d.imm13)
  | 5#3 => .ok (if d.x then .ldWSX d.r.toFin d.b.toFin d.a.toFin else .ldWSO d.r.toFin d.b.toFin d.imm13)
  | 6#3 => .ok (if d.x then .ldDX d.r.toFin d.b.toFin d.a.toFin else .ldDO d.r.toFin d.b.toFin d.imm13)
  | 7#3 => .ok (if d.x then .ldDSX d.r.toFin d.b.toFin d.a.toFin else .ldDSO d.r.toFin d.b.toFin d.imm13)

/-- Family ST (G = 1, F = 9) by its qualifier (30_encoding.md R72, R76). -/
def dispatchSt (d : Fields) : Except Reject Instr :=
  match d.q with
  | 0#3 => .ok (if d.x then .stBX d.r.toFin d.b.toFin d.a.toFin else .stBO d.r.toFin d.b.toFin d.imm13)
  | 2#3 => .ok (if d.x then .stHX d.r.toFin d.b.toFin d.a.toFin else .stHO d.r.toFin d.b.toFin d.imm13)
  | 4#3 => .ok (if d.x then .stWX d.r.toFin d.b.toFin d.a.toFin else .stWO d.r.toFin d.b.toFin d.imm13)
  | 6#3 => .ok (if d.x then .stDX d.r.toFin d.b.toFin d.a.toFin else .stDO d.r.toFin d.b.toFin d.imm13)
  | _ => .error .unassignedQualifier

/-- Family LDR (G = 1, F = 10) by its qualifier (30_encoding.md R72, R76). -/
def dispatchLdr (d : Fields) : Except Reject Instr :=
  match d.q with
  | 0#3 => .ok (if d.x then .ldrBX d.r.toFin d.b.toFin d.a.toFin else .ldrBO d.r.toFin d.b.toFin d.imm13)
  | 1#3 => .ok (if d.x then .ldrBSX d.r.toFin d.b.toFin d.a.toFin else .ldrBSO d.r.toFin d.b.toFin d.imm13)
  | 2#3 => .ok (if d.x then .ldrHX d.r.toFin d.b.toFin d.a.toFin else .ldrHO d.r.toFin d.b.toFin d.imm13)
  | 3#3 => .ok (if d.x then .ldrHSX d.r.toFin d.b.toFin d.a.toFin else .ldrHSO d.r.toFin d.b.toFin d.imm13)
  | 4#3 => .ok (if d.x then .ldrWX d.r.toFin d.b.toFin d.a.toFin else .ldrWO d.r.toFin d.b.toFin d.imm13)
  | 5#3 => .ok (if d.x then .ldrWSX d.r.toFin d.b.toFin d.a.toFin else .ldrWSO d.r.toFin d.b.toFin d.imm13)
  | 6#3 => .ok (if d.x then .ldrDX d.r.toFin d.b.toFin d.a.toFin else .ldrDO d.r.toFin d.b.toFin d.imm13)
  | 7#3 => .ok (if d.x then .ldrDSX d.r.toFin d.b.toFin d.a.toFin else .ldrDSO d.r.toFin d.b.toFin d.imm13)

/-- Family STC (G = 1, F = 11) by its qualifier (30_encoding.md R72, R76). -/
def dispatchStc (d : Fields) : Except Reject Instr :=
  match d.q with
  | 0#3 => .ok (if d.x then .stcBX d.r.toFin d.b.toFin d.a.toFin else .stcBO d.r.toFin d.b.toFin d.imm13)
  | 2#3 => .ok (if d.x then .stcHX d.r.toFin d.b.toFin d.a.toFin else .stcHO d.r.toFin d.b.toFin d.imm13)
  | 4#3 => .ok (if d.x then .stcWX d.r.toFin d.b.toFin d.a.toFin else .stcWO d.r.toFin d.b.toFin d.imm13)
  | 6#3 => .ok (if d.x then .stcDX d.r.toFin d.b.toFin d.a.toFin else .stcDO d.r.toFin d.b.toFin d.imm13)
  | _ => .error .unassignedQualifier

/-- The MEM group by its family (30_encoding.md R72). -/
def dispatchMemGroup (d : Fields) : Except Reject Instr :=
  match d.f with
  | 8#4 => dispatchLd d
  | 9#4 => dispatchSt d
  | 10#4 => dispatchLdr d
  | 11#4 => dispatchStc d
  | _ => .error .unassignedFamily

/-- Family B (G = 2, F = 1) by its qualifier (30_encoding.md R73, R76). -/
def dispatchB (d : Fields) : Except Reject Instr :=
  match d.q with
  | 0#3 => .ok (.b d.r.toFin d.imm19)
  | _ => .error .unassignedQualifier

/-- Family BR (G = 2, F = 2) by its qualifier (30_encoding.md R73, R76). -/
def dispatchBr (d : Fields) : Except Reject Instr :=
  match d.q with
  | 0#3 => .ok (.br d.r.toFin d.b.toFin)
  | _ => .error .unassignedQualifier

/-- Family BV (G = 2, F = 3) by its qualifier (30_encoding.md R73, R76). -/
def dispatchBv (d : Fields) : Except Reject Instr :=
  match d.q with
  | 0#3 => .ok (.bv d.r.toFin d.b.toFin d.a.toFin)
  | _ => .error .unassignedQualifier

/-- Family BB (G = 2, F = 4) by its qualifier (30_encoding.md R73, R76). -/
def dispatchBb (d : Fields) : Except Reject Instr :=
  match d.q with
  | 0#3 => .ok (.bbF d.r.toFin d.bpos6 d.imm13)
  | 1#3 => .ok (.bbT d.r.toFin d.bpos6 d.imm13)
  | 2#3 => .ok (.bbFShamt d.r.toFin d.imm13)
  | 3#3 => .ok (.bbTShamt d.r.toFin d.imm13)
  | _ => .error .unassignedQualifier

/-- Family CBR (G = 2, F = 5) by its qualifier (30_encoding.md R73, R76). -/
def dispatchCbr (d : Fields) : Except Reject Instr :=
  match d.q with
  | 0#3 => .ok (.cbrEq d.r.toFin d.b.toFin d.imm15)
  | 1#3 => .ok (.cbrNe d.r.toFin d.b.toFin d.imm15)
  | 2#3 => .ok (.cbrLt d.r.toFin d.b.toFin d.imm15)
  | 3#3 => .ok (.cbrLe d.r.toFin d.b.toFin d.imm15)
  | 4#3 => .ok (.cbrGt d.r.toFin d.b.toFin d.imm15)
  | 5#3 => .ok (.cbrGe d.r.toFin d.b.toFin d.imm15)
  | 6#3 => .ok (.cbrLtu d.r.toFin d.b.toFin d.imm15)
  | 7#3 => .ok (.cbrGeu d.r.toFin d.b.toFin d.imm15)

/-- Family MBR (G = 2, F = 6) by its qualifier (30_encoding.md R73, R76). -/
def dispatchMbr (d : Fields) : Except Reject Instr :=
  match d.q with
  | 0#3 => .ok (.mbr d.b.toFin)
  | _ => .error .unassignedQualifier

/-- The BR group by its family (30_encoding.md R73). -/
def dispatchBrGroup (d : Fields) : Except Reject Instr :=
  match d.f with
  | 1#4 => dispatchB d
  | 2#4 => dispatchBr d
  | 3#4 => dispatchBv d
  | 4#4 => dispatchBb d
  | 5#4 => dispatchCbr d
  | 6#4 => dispatchMbr d
  | _ => .error .unassignedFamily

/-- Family MR (G = 3, F = 1) by its qualifier (30_encoding.md R74, R76). -/
def dispatchMr (d : Fields) : Except Reject Instr :=
  match d.q with
  | 0#3 => .ok (.mfcr d.r.toFin d.b.toFin)
  | 1#3 => .ok (.mtcr d.b.toFin d.r.toFin)
  | _ => .error .unassignedQualifier

/-- Family LPA (G = 3, F = 2) by its qualifier (30_encoding.md R74, R76). -/
def dispatchLpa (d : Fields) : Except Reject Instr :=
  match d.q with
  | 0#3 => .ok (.lpa d.r.toFin d.b.toFin)
  | _ => .error .unassignedQualifier

/-- Family PRB (G = 3, F = 3) by its qualifier (30_encoding.md R74, R76). -/
def dispatchPrb (d : Fields) : Except Reject Instr :=
  match d.q with
  | 0#3 => .ok (.prbR d.r.toFin d.b.toFin)
  | 1#3 => .ok (.prbW d.r.toFin d.b.toFin)
  | 2#3 => .ok (.prbX d.r.toFin d.b.toFin)
  | _ => .error .unassignedQualifier

/-- Family TLB (G = 3, F = 4) by its qualifier (30_encoding.md R74, R76). -/
def dispatchTlb (d : Fields) : Except Reject Instr :=
  match d.q with
  | 0#3 => .ok (.tlbIns d.r.toFin d.b.toFin d.a.toFin)
  | 1#3 => .ok (.tlbPrg d.b.toFin)
  | _ => .error .unassignedQualifier

/-- Family CA (G = 3, F = 5) by its qualifier (30_encoding.md R74, R76). -/
def dispatchCa (_d : Fields) : Except Reject Instr :=
  .ok .ca

/-- Family MST (G = 3, F = 6) by its qualifier (30_encoding.md R74, R76). -/
def dispatchMst (d : Fields) : Except Reject Instr :=
  match d.q with
  | 0#3 => .ok (.rsm d.r.toFin d.imm13)
  | 1#3 => .ok (.ssm d.r.toFin d.imm13)
  | _ => .error .unassignedQualifier

/-- Family RFI (G = 3, F = 7) by its qualifier (30_encoding.md R74, R76). -/
def dispatchRfi (d : Fields) : Except Reject Instr :=
  match d.q with
  | 0#3 => .ok (.rfi d.b.toFin)
  | _ => .error .unassignedQualifier

/-- Family TRAP (G = 3, F = 8) by its qualifier (30_encoding.md R74, R76). -/
def dispatchTrap (d : Fields) : Except Reject Instr :=
  match d.q with
  | 0#3 => .ok (.trap d.imm19)
  | _ => .error .unassignedQualifier

/-- Family DIAG (G = 3, F = 9) by its qualifier (30_encoding.md R74, R76). -/
def dispatchDiag (d : Fields) : Except Reject Instr :=
  match d.q with
  | 0#3 => .ok .halt
  | _ => .error .unassignedQualifier

/-- The SYS group by its family (30_encoding.md R74). -/
def dispatchSysGroup (d : Fields) : Except Reject Instr :=
  match d.f with
  | 1#4 => dispatchMr d
  | 2#4 => dispatchLpa d
  | 3#4 => dispatchPrb d
  | 4#4 => dispatchTlb d
  | 5#4 => dispatchCa d
  | 6#4 => dispatchMst d
  | 7#4 => dispatchRfi d
  | 8#4 => dispatchTrap d
  | 9#4 => dispatchDiag d
  | _ => .error .unassignedFamily

/-- The legality checks (1) and (2) of 30_encoding.md R82 and the form of the word: group, then family, then
qualifier. Check (3), a reserved control-register id, is the meaning's (43_sys.md R124). -/
def dispatchFields (d : Fields) : Except Reject Instr :=
  match d.g with
  | 0#2 => dispatchAluGroup d
  | 1#2 => dispatchMemGroup d
  | 2#2 => dispatchBrGroup d
  | 3#2 => dispatchSysGroup d

/-- The instruction a word stands for, or the name of the check it fails (30_encoding.md R69, R75, R76, R77). -/
def decode (w : InstrWord) : Except Reject Instr :=
  dispatchFields (fieldsOf w)

/-- Four bytes, the lowest address first, as one little-endian word (30_encoding.md R65; 20_memory.md R40). -/
def wordOfBytes (b0 b1 b2 b3 : Byte) : InstrWord :=
  b3 ++ b2 ++ b1 ++ b0

/-- The bytes of a word in the order of their addresses (20_memory.md R40). -/
def bytesOfWord (w : InstrWord) : List Byte :=
  [w.extractLsb' 0 8, w.extractLsb' 8 8, w.extractLsb' 16 8, w.extractLsb' 24 8]

/-- The decoder on bytes: every instruction is exactly one word (30_encoding.md R65). -/
def decodeBytes : List Byte → Except Reject Instr
  | [b0, b1, b2, b3] => decode (wordOfBytes b0 b1 b2 b3)
  | _ => .error .notFourBytes

/-! ### The encoder -/

/-- A register number as its 4-bit field. -/
def regField (r : Fin 16) : BitVec 4 := BitVec.ofFin r

/-- The fields every format has, over its low 19 bits (30_encoding.md R66). -/
def packWord (g : BitVec 2) (f r : BitVec 4) (q : BitVec 3) (low : BitVec 19) : InstrWord :=
  g ++ f ++ r ++ q ++ low

/-- ALU-R, SHAOP-R, MEM-X, BV and TLB.INS: registers R, B, A and bit 14 (30_encoding.md R70). -/
def encodeRegs (g : BitVec 2) (f : BitVec 4) (q : BitVec 3) (x : BitVec 1) (r b a : Reg) : InstrWord :=
  packWord g f (regField r) q (regField b ++ x ++ 0#1 ++ regField a ++ 0#9)

/-- ALU-I and MEM-O: registers R, B, bit 14 and imm13 (30_encoding.md R70). -/
def encodeImm13 (g : BitVec 2) (f : BitVec 4) (q : BitVec 3) (x : BitVec 1) (r b : Reg) (imm : BitVec 13) :
    InstrWord :=
  packWord g f (regField r) q (regField b ++ x ++ 0#1 ++ imm)

/-- BITOP: the SHAMT-select bit, the position and the length minus 1 (30_encoding.md R70). -/
def encodeBitField (q : BitVec 3) (s : BitVec 1) (r b : Reg) (pos len : BitVec 6) : InstrWord :=
  packWord 0 7 (regField r) q (regField b ++ 0#1 ++ s ++ pos ++ 0#1 ++ len)

/-- SHAOP-I and SHAOP-S: bit 14, the SHAMT-select bit and the immediate amount (30_encoding.md R70). -/
def encodeShift (q : BitVec 3) (x s : BitVec 1) (r b : Reg) (sa : BitVec 6) : InstrWord :=
  packWord 0 8 (regField r) q (regField b ++ x ++ s ++ 0#7 ++ sa)

/-- IMMOP: the position in Q[21:20]; Q[19] is bit 19 of imm20 (30_encoding.md R70). -/
def encodeImm20 (p : BitVec 2) (r : Reg) (imm : BitVec 20) : InstrWord :=
  packWord 0 9 (regField r) (p ++ imm.extractLsb' 19 1) (imm.extractLsb' 0 19)

/-- LDO and CBR: registers R, B and imm15 (30_encoding.md R70). -/
def encodeImm15 (g : BitVec 2) (f : BitVec 4) (q : BitVec 3) (r b : Reg) (imm : BitVec 15) : InstrWord :=
  packWord g f (regField r) q (regField b ++ imm)

/-- BR-19 and SYS-T: register R and imm19 (30_encoding.md R70). -/
def encodeImm19 (g : BitVec 2) (f : BitVec 4) (q : BitVec 3) (r : Reg) (imm : BitVec 19) : InstrWord :=
  packWord g f (regField r) q imm

/-- BB: the bit position in 18:13 and imm13 (30_encoding.md R70). -/
def encodeBranchBit (q : BitVec 3) (r : Reg) (pos : BitVec 6) (imm : BitVec 13) : InstrWord :=
  packWord 2 4 (regField r) q (pos ++ imm)

/-- RSM and SSM: register R and the mask in 12:0 (30_encoding.md R70). -/
def encodeMask (q : BitVec 3) (r : Reg) (mask : BitVec 13) : InstrWord :=
  packWord 3 6 (regField r) q (0#6 ++ mask)

/-- BR, MBR, SYS-R, SYS-0 and NOP: registers R and B (30_encoding.md R70). -/
def encodeRB (g : BitVec 2) (f : BitVec 4) (q : BitVec 3) (r b : Reg) : InstrWord :=
  packWord g f (regField r) q (regField b ++ 0#15)

/-- The word of an instruction, every bit its format ignores (30_encoding.md R77) written as 0. -/
def encode : Instr → InstrWord
  | .nop => encodeRB 0 0 0 0 0
  | .addR r b a => encodeRegs 0 1 0 0 r b a
  | .addI r b imm => encodeImm13 0 1 0 1 r b imm
  | .subR r b a => encodeRegs 0 2 0 0 r b a
  | .subI r b imm => encodeImm13 0 2 0 1 r b imm
  | .andR r b a => encodeRegs 0 3 0 0 r b a
  | .andI r b imm => encodeImm13 0 3 0 1 r b imm
  | .orR r b a => encodeRegs 0 4 0 0 r b a
  | .orI r b imm => encodeImm13 0 4 0 1 r b imm
  | .xorR r b a => encodeRegs 0 5 0 0 r b a
  | .xorI r b imm => encodeImm13 0 5 0 1 r b imm
  | .cmpEqR r b a => encodeRegs 0 6 0 0 r b a
  | .cmpEqI r b imm => encodeImm13 0 6 0 1 r b imm
  | .cmpNeR r b a => encodeRegs 0 6 1 0 r b a
  | .cmpNeI r b imm => encodeImm13 0 6 1 1 r b imm
  | .cmpLtR r b a => encodeRegs 0 6 2 0 r b a
  | .cmpLtI r b imm => encodeImm13 0 6 2 1 r b imm
  | .cmpLeR r b a => encodeRegs 0 6 3 0 r b a
  | .cmpLeI r b imm => encodeImm13 0 6 3 1 r b imm
  | .cmpGtR r b a => encodeRegs 0 6 4 0 r b a
  | .cmpGtI r b imm => encodeImm13 0 6 4 1 r b imm
  | .cmpGeR r b a => encodeRegs 0 6 5 0 r b a
  | .cmpGeI r b imm => encodeImm13 0 6 5 1 r b imm
  | .cmpLtuR r b a => encodeRegs 0 6 6 0 r b a
  | .cmpLtuI r b imm => encodeImm13 0 6 6 1 r b imm
  | .cmpGeuR r b a => encodeRegs 0 6 7 0 r b a
  | .cmpGeuI r b imm => encodeImm13 0 6 7 1 r b imm
  | .extru r b pos len => encodeBitField 0 0 r b pos len
  | .extruShamt r b len => encodeBitField 0 1 r b 0 len
  | .extrs r b pos len => encodeBitField 1 0 r b pos len
  | .extrsShamt r b len => encodeBitField 1 1 r b 0 len
  | .dep r b pos len => encodeBitField 2 0 r b pos len
  | .depShamt r b len => encodeBitField 2 1 r b 0 len
  | .shlR r b a => encodeRegs 0 8 0 0 r b a
  | .shlI r b sa => encodeShift 0 1 0 r b sa
  | .shlShamt r b => encodeShift 0 0 1 r b 0
  | .shrR r b a => encodeRegs 0 8 1 0 r b a
  | .shrI r b sa => encodeShift 1 1 0 r b sa
  | .shrShamt r b => encodeShift 1 0 1 r b 0
  | .shraR r b a => encodeRegs 0 8 2 0 r b a
  | .shraI r b sa => encodeShift 2 1 0 r b sa
  | .shraShamt r b => encodeShift 2 0 1 r b 0
  | .ldiL r imm => encodeImm20 0 r imm
  | .ldiM r imm => encodeImm20 1 r imm
  | .ldiU r imm => encodeImm20 2 r imm
  | .ldiT r imm => encodeImm20 3 r imm
  | .ldo r b imm => encodeImm15 0 10 0 r b imm
  | .ldBO r b ofs => encodeImm13 1 8 0 0 r b ofs
  | .ldBX r b a => encodeRegs 1 8 0 1 r b a
  | .ldBSO r b ofs => encodeImm13 1 8 1 0 r b ofs
  | .ldBSX r b a => encodeRegs 1 8 1 1 r b a
  | .ldHO r b ofs => encodeImm13 1 8 2 0 r b ofs
  | .ldHX r b a => encodeRegs 1 8 2 1 r b a
  | .ldHSO r b ofs => encodeImm13 1 8 3 0 r b ofs
  | .ldHSX r b a => encodeRegs 1 8 3 1 r b a
  | .ldWO r b ofs => encodeImm13 1 8 4 0 r b ofs
  | .ldWX r b a => encodeRegs 1 8 4 1 r b a
  | .ldWSO r b ofs => encodeImm13 1 8 5 0 r b ofs
  | .ldWSX r b a => encodeRegs 1 8 5 1 r b a
  | .ldDO r b ofs => encodeImm13 1 8 6 0 r b ofs
  | .ldDX r b a => encodeRegs 1 8 6 1 r b a
  | .ldDSO r b ofs => encodeImm13 1 8 7 0 r b ofs
  | .ldDSX r b a => encodeRegs 1 8 7 1 r b a
  | .stBO r b ofs => encodeImm13 1 9 0 0 r b ofs
  | .stBX r b a => encodeRegs 1 9 0 1 r b a
  | .stHO r b ofs => encodeImm13 1 9 2 0 r b ofs
  | .stHX r b a => encodeRegs 1 9 2 1 r b a
  | .stWO r b ofs => encodeImm13 1 9 4 0 r b ofs
  | .stWX r b a => encodeRegs 1 9 4 1 r b a
  | .stDO r b ofs => encodeImm13 1 9 6 0 r b ofs
  | .stDX r b a => encodeRegs 1 9 6 1 r b a
  | .ldrBO r b ofs => encodeImm13 1 10 0 0 r b ofs
  | .ldrBX r b a => encodeRegs 1 10 0 1 r b a
  | .ldrBSO r b ofs => encodeImm13 1 10 1 0 r b ofs
  | .ldrBSX r b a => encodeRegs 1 10 1 1 r b a
  | .ldrHO r b ofs => encodeImm13 1 10 2 0 r b ofs
  | .ldrHX r b a => encodeRegs 1 10 2 1 r b a
  | .ldrHSO r b ofs => encodeImm13 1 10 3 0 r b ofs
  | .ldrHSX r b a => encodeRegs 1 10 3 1 r b a
  | .ldrWO r b ofs => encodeImm13 1 10 4 0 r b ofs
  | .ldrWX r b a => encodeRegs 1 10 4 1 r b a
  | .ldrWSO r b ofs => encodeImm13 1 10 5 0 r b ofs
  | .ldrWSX r b a => encodeRegs 1 10 5 1 r b a
  | .ldrDO r b ofs => encodeImm13 1 10 6 0 r b ofs
  | .ldrDX r b a => encodeRegs 1 10 6 1 r b a
  | .ldrDSO r b ofs => encodeImm13 1 10 7 0 r b ofs
  | .ldrDSX r b a => encodeRegs 1 10 7 1 r b a
  | .stcBO r b ofs => encodeImm13 1 11 0 0 r b ofs
  | .stcBX r b a => encodeRegs 1 11 0 1 r b a
  | .stcHO r b ofs => encodeImm13 1 11 2 0 r b ofs
  | .stcHX r b a => encodeRegs 1 11 2 1 r b a
  | .stcWO r b ofs => encodeImm13 1 11 4 0 r b ofs
  | .stcWX r b a => encodeRegs 1 11 4 1 r b a
  | .stcDO r b ofs => encodeImm13 1 11 6 0 r b ofs
  | .stcDX r b a => encodeRegs 1 11 6 1 r b a
  | .b r disp => encodeImm19 2 1 0 r disp
  | .br r b => encodeRB 2 2 0 r b
  | .bv r b a => encodeRegs 2 3 0 0 r b a
  | .bbF r pos disp => encodeBranchBit 0 r pos disp
  | .bbT r pos disp => encodeBranchBit 1 r pos disp
  | .bbFShamt r disp => encodeBranchBit 2 r 0 disp
  | .bbTShamt r disp => encodeBranchBit 3 r 0 disp
  | .cbrEq r b disp => encodeImm15 2 5 0 r b disp
  | .cbrNe r b disp => encodeImm15 2 5 1 r b disp
  | .cbrLt r b disp => encodeImm15 2 5 2 r b disp
  | .cbrLe r b disp => encodeImm15 2 5 3 r b disp
  | .cbrGt r b disp => encodeImm15 2 5 4 r b disp
  | .cbrGe r b disp => encodeImm15 2 5 5 r b disp
  | .cbrLtu r b disp => encodeImm15 2 5 6 r b disp
  | .cbrGeu r b disp => encodeImm15 2 5 7 r b disp
  | .mbr b => encodeRB 2 6 0 0 b
  | .mfcr r n => encodeRB 3 1 0 r n
  | .mtcr n r => encodeRB 3 1 1 r n
  | .lpa r b => encodeRB 3 2 0 r b
  | .prbR r b => encodeRB 3 3 0 r b
  | .prbW r b => encodeRB 3 3 1 r b
  | .prbX r b => encodeRB 3 3 2 r b
  | .tlbIns r b a => encodeRegs 3 4 0 0 r b a
  | .tlbPrg b => encodeRB 3 4 1 0 b
  | .ca => encodeRB 3 5 0 0 0
  | .rsm r mask => encodeMask 0 r mask
  | .ssm r mask => encodeMask 1 r mask
  | .rfi n => encodeRB 3 7 0 0 n
  | .trap code => encodeImm19 3 8 0 0 code
  | .halt => encodeRB 3 9 0 0 0

/-! ### What a word's bits are to its instruction -/

/-- The row of spec/opcode_table.json of an instruction: the mask of its fixed bits and their values. -/
def opcodeRow : Instr → InstrWord × InstrWord
  | .nop => (0xFC000000#32, 0x00000000#32)
  | .addR _ _ _ => (0xFC384000#32, 0x04000000#32)
  | .addI _ _ _ => (0xFC384000#32, 0x04004000#32)
  | .subR _ _ _ => (0xFC384000#32, 0x08000000#32)
  | .subI _ _ _ => (0xFC384000#32, 0x08004000#32)
  | .andR _ _ _ => (0xFC384000#32, 0x0C000000#32)
  | .andI _ _ _ => (0xFC384000#32, 0x0C004000#32)
  | .orR _ _ _ => (0xFC384000#32, 0x10000000#32)
  | .orI _ _ _ => (0xFC384000#32, 0x10004000#32)
  | .xorR _ _ _ => (0xFC384000#32, 0x14000000#32)
  | .xorI _ _ _ => (0xFC384000#32, 0x14004000#32)
  | .cmpEqR _ _ _ => (0xFC384000#32, 0x18000000#32)
  | .cmpEqI _ _ _ => (0xFC384000#32, 0x18004000#32)
  | .cmpNeR _ _ _ => (0xFC384000#32, 0x18080000#32)
  | .cmpNeI _ _ _ => (0xFC384000#32, 0x18084000#32)
  | .cmpLtR _ _ _ => (0xFC384000#32, 0x18100000#32)
  | .cmpLtI _ _ _ => (0xFC384000#32, 0x18104000#32)
  | .cmpLeR _ _ _ => (0xFC384000#32, 0x18180000#32)
  | .cmpLeI _ _ _ => (0xFC384000#32, 0x18184000#32)
  | .cmpGtR _ _ _ => (0xFC384000#32, 0x18200000#32)
  | .cmpGtI _ _ _ => (0xFC384000#32, 0x18204000#32)
  | .cmpGeR _ _ _ => (0xFC384000#32, 0x18280000#32)
  | .cmpGeI _ _ _ => (0xFC384000#32, 0x18284000#32)
  | .cmpLtuR _ _ _ => (0xFC384000#32, 0x18300000#32)
  | .cmpLtuI _ _ _ => (0xFC384000#32, 0x18304000#32)
  | .cmpGeuR _ _ _ => (0xFC384000#32, 0x18380000#32)
  | .cmpGeuI _ _ _ => (0xFC384000#32, 0x18384000#32)
  | .extru _ _ _ _ => (0xFC382000#32, 0x1C000000#32)
  | .extruShamt _ _ _ => (0xFC382000#32, 0x1C002000#32)
  | .extrs _ _ _ _ => (0xFC382000#32, 0x1C080000#32)
  | .extrsShamt _ _ _ => (0xFC382000#32, 0x1C082000#32)
  | .dep _ _ _ _ => (0xFC382000#32, 0x1C100000#32)
  | .depShamt _ _ _ => (0xFC382000#32, 0x1C102000#32)
  | .shlR _ _ _ => (0xFC386000#32, 0x20000000#32)
  | .shlI _ _ _ => (0xFC386000#32, 0x20004000#32)
  | .shlShamt _ _ => (0xFC382000#32, 0x20002000#32)
  | .shrR _ _ _ => (0xFC386000#32, 0x20080000#32)
  | .shrI _ _ _ => (0xFC386000#32, 0x20084000#32)
  | .shrShamt _ _ => (0xFC382000#32, 0x20082000#32)
  | .shraR _ _ _ => (0xFC386000#32, 0x20100000#32)
  | .shraI _ _ _ => (0xFC386000#32, 0x20104000#32)
  | .shraShamt _ _ => (0xFC382000#32, 0x20102000#32)
  | .ldiL _ _ => (0xFC300000#32, 0x24000000#32)
  | .ldiM _ _ => (0xFC300000#32, 0x24100000#32)
  | .ldiU _ _ => (0xFC300000#32, 0x24200000#32)
  | .ldiT _ _ => (0xFC300000#32, 0x24300000#32)
  | .ldo _ _ _ => (0xFC380000#32, 0x28000000#32)
  | .ldBO _ _ _ => (0xFC384000#32, 0x60000000#32)
  | .ldBX _ _ _ => (0xFC384000#32, 0x60004000#32)
  | .ldBSO _ _ _ => (0xFC384000#32, 0x60080000#32)
  | .ldBSX _ _ _ => (0xFC384000#32, 0x60084000#32)
  | .ldHO _ _ _ => (0xFC384000#32, 0x60100000#32)
  | .ldHX _ _ _ => (0xFC384000#32, 0x60104000#32)
  | .ldHSO _ _ _ => (0xFC384000#32, 0x60180000#32)
  | .ldHSX _ _ _ => (0xFC384000#32, 0x60184000#32)
  | .ldWO _ _ _ => (0xFC384000#32, 0x60200000#32)
  | .ldWX _ _ _ => (0xFC384000#32, 0x60204000#32)
  | .ldWSO _ _ _ => (0xFC384000#32, 0x60280000#32)
  | .ldWSX _ _ _ => (0xFC384000#32, 0x60284000#32)
  | .ldDO _ _ _ => (0xFC384000#32, 0x60300000#32)
  | .ldDX _ _ _ => (0xFC384000#32, 0x60304000#32)
  | .ldDSO _ _ _ => (0xFC384000#32, 0x60380000#32)
  | .ldDSX _ _ _ => (0xFC384000#32, 0x60384000#32)
  | .stBO _ _ _ => (0xFC384000#32, 0x64000000#32)
  | .stBX _ _ _ => (0xFC384000#32, 0x64004000#32)
  | .stHO _ _ _ => (0xFC384000#32, 0x64100000#32)
  | .stHX _ _ _ => (0xFC384000#32, 0x64104000#32)
  | .stWO _ _ _ => (0xFC384000#32, 0x64200000#32)
  | .stWX _ _ _ => (0xFC384000#32, 0x64204000#32)
  | .stDO _ _ _ => (0xFC384000#32, 0x64300000#32)
  | .stDX _ _ _ => (0xFC384000#32, 0x64304000#32)
  | .ldrBO _ _ _ => (0xFC384000#32, 0x68000000#32)
  | .ldrBX _ _ _ => (0xFC384000#32, 0x68004000#32)
  | .ldrBSO _ _ _ => (0xFC384000#32, 0x68080000#32)
  | .ldrBSX _ _ _ => (0xFC384000#32, 0x68084000#32)
  | .ldrHO _ _ _ => (0xFC384000#32, 0x68100000#32)
  | .ldrHX _ _ _ => (0xFC384000#32, 0x68104000#32)
  | .ldrHSO _ _ _ => (0xFC384000#32, 0x68180000#32)
  | .ldrHSX _ _ _ => (0xFC384000#32, 0x68184000#32)
  | .ldrWO _ _ _ => (0xFC384000#32, 0x68200000#32)
  | .ldrWX _ _ _ => (0xFC384000#32, 0x68204000#32)
  | .ldrWSO _ _ _ => (0xFC384000#32, 0x68280000#32)
  | .ldrWSX _ _ _ => (0xFC384000#32, 0x68284000#32)
  | .ldrDO _ _ _ => (0xFC384000#32, 0x68300000#32)
  | .ldrDX _ _ _ => (0xFC384000#32, 0x68304000#32)
  | .ldrDSO _ _ _ => (0xFC384000#32, 0x68380000#32)
  | .ldrDSX _ _ _ => (0xFC384000#32, 0x68384000#32)
  | .stcBO _ _ _ => (0xFC384000#32, 0x6C000000#32)
  | .stcBX _ _ _ => (0xFC384000#32, 0x6C004000#32)
  | .stcHO _ _ _ => (0xFC384000#32, 0x6C100000#32)
  | .stcHX _ _ _ => (0xFC384000#32, 0x6C104000#32)
  | .stcWO _ _ _ => (0xFC384000#32, 0x6C200000#32)
  | .stcWX _ _ _ => (0xFC384000#32, 0x6C204000#32)
  | .stcDO _ _ _ => (0xFC384000#32, 0x6C300000#32)
  | .stcDX _ _ _ => (0xFC384000#32, 0x6C304000#32)
  | .b _ _ => (0xFC380000#32, 0x84000000#32)
  | .br _ _ => (0xFC380000#32, 0x88000000#32)
  | .bv _ _ _ => (0xFC380000#32, 0x8C000000#32)
  | .bbF _ _ _ => (0xFC380000#32, 0x90000000#32)
  | .bbT _ _ _ => (0xFC380000#32, 0x90080000#32)
  | .bbFShamt _ _ => (0xFC380000#32, 0x90100000#32)
  | .bbTShamt _ _ => (0xFC380000#32, 0x90180000#32)
  | .cbrEq _ _ _ => (0xFC380000#32, 0x94000000#32)
  | .cbrNe _ _ _ => (0xFC380000#32, 0x94080000#32)
  | .cbrLt _ _ _ => (0xFC380000#32, 0x94100000#32)
  | .cbrLe _ _ _ => (0xFC380000#32, 0x94180000#32)
  | .cbrGt _ _ _ => (0xFC380000#32, 0x94200000#32)
  | .cbrGe _ _ _ => (0xFC380000#32, 0x94280000#32)
  | .cbrLtu _ _ _ => (0xFC380000#32, 0x94300000#32)
  | .cbrGeu _ _ _ => (0xFC380000#32, 0x94380000#32)
  | .mbr _ => (0xFC380000#32, 0x98000000#32)
  | .mfcr _ _ => (0xFC380000#32, 0xC4000000#32)
  | .mtcr _ _ => (0xFC380000#32, 0xC4080000#32)
  | .lpa _ _ => (0xFC380000#32, 0xC8000000#32)
  | .prbR _ _ => (0xFC380000#32, 0xCC000000#32)
  | .prbW _ _ => (0xFC380000#32, 0xCC080000#32)
  | .prbX _ _ => (0xFC380000#32, 0xCC100000#32)
  | .tlbIns _ _ _ => (0xFC380000#32, 0xD0000000#32)
  | .tlbPrg _ => (0xFC380000#32, 0xD0080000#32)
  | .ca => (0xFC000000#32, 0xD4000000#32)
  | .rsm _ _ => (0xFC380000#32, 0xD8000000#32)
  | .ssm _ _ => (0xFC380000#32, 0xD8080000#32)
  | .rfi _ => (0xFC380000#32, 0xDC000000#32)
  | .trap _ => (0xFC380000#32, 0xE0000000#32)
  | .halt => (0xFC380000#32, 0xE4000000#32)

/-- The bits an instruction ignores (30_encoding.md R77; 42_branch.md R120 for BB with SHAMT). -/
def ignoredBits : Instr → InstrWord
  | .nop | .ca => 0x03FFFFFF#32
  | .addR _ _ _ | .subR _ _ _ | .andR _ _ _ | .orR _ _ _ | .xorR _ _ _ | .cmpEqR _ _ _ | .cmpNeR _ _ _
  | .cmpLtR _ _ _ | .cmpLeR _ _ _ | .cmpGtR _ _ _ | .cmpGeR _ _ _ | .cmpLtuR _ _ _ | .cmpGeuR _ _ _
  | .ldBX _ _ _ | .ldBSX _ _ _ | .ldHX _ _ _ | .ldHSX _ _ _ | .ldWX _ _ _ | .ldWSX _ _ _ | .ldDX _ _ _
  | .ldDSX _ _ _ | .stBX _ _ _ | .stHX _ _ _ | .stWX _ _ _ | .stDX _ _ _ | .ldrBX _ _ _ | .ldrBSX _ _ _
  | .ldrHX _ _ _ | .ldrHSX _ _ _ | .ldrWX _ _ _ | .ldrWSX _ _ _ | .ldrDX _ _ _ | .ldrDSX _ _ _ | .stcBX _ _ _
  | .stcHX _ _ _ | .stcWX _ _ _ | .stcDX _ _ _ => 0x000021FF#32
  | .addI _ _ _ | .subI _ _ _ | .andI _ _ _ | .orI _ _ _ | .xorI _ _ _ | .cmpEqI _ _ _ | .cmpNeI _ _ _
  | .cmpLtI _ _ _ | .cmpLeI _ _ _ | .cmpGtI _ _ _ | .cmpGeI _ _ _ | .cmpLtuI _ _ _ | .cmpGeuI _ _ _
  | .ldBO _ _ _ | .ldBSO _ _ _ | .ldHO _ _ _ | .ldHSO _ _ _ | .ldWO _ _ _ | .ldWSO _ _ _ | .ldDO _ _ _
  | .ldDSO _ _ _ | .stBO _ _ _ | .stHO _ _ _ | .stWO _ _ _ | .stDO _ _ _ | .ldrBO _ _ _ | .ldrBSO _ _ _
  | .ldrHO _ _ _ | .ldrHSO _ _ _ | .ldrWO _ _ _ | .ldrWSO _ _ _ | .ldrDO _ _ _ | .ldrDSO _ _ _ | .stcBO _ _ _
  | .stcHO _ _ _ | .stcWO _ _ _ | .stcDO _ _ _ => 0x00002000#32
  | .extru _ _ _ _ | .extrs _ _ _ _ | .dep _ _ _ _ => 0x00004040#32
  | .extruShamt _ _ _ | .extrsShamt _ _ _ | .depShamt _ _ _ => 0x00005FC0#32
  | .shlR _ _ _ | .shrR _ _ _ | .shraR _ _ _ => 0x000001FF#32
  | .shlI _ _ _ | .shrI _ _ _ | .shraI _ _ _ => 0x00001FC0#32
  | .shlShamt _ _ | .shrShamt _ _ | .shraShamt _ _ => 0x00005FFF#32
  | .ldiL _ _ | .ldiM _ _ | .ldiU _ _ | .ldiT _ _ | .ldo _ _ _ | .b _ _ | .bbF _ _ _ | .bbT _ _ _
  | .cbrEq _ _ _ | .cbrNe _ _ _ | .cbrLt _ _ _ | .cbrLe _ _ _ | .cbrGt _ _ _ | .cbrGe _ _ _ | .cbrLtu _ _ _
  | .cbrGeu _ _ _ => 0x00000000#32
  | .br _ _ | .mfcr _ _ | .mtcr _ _ | .lpa _ _ | .prbR _ _ | .prbW _ _ | .prbX _ _ => 0x00007FFF#32
  | .bv _ _ _ | .tlbIns _ _ _ => 0x000061FF#32
  | .bbFShamt _ _ | .bbTShamt _ _ | .rsm _ _ | .ssm _ _ => 0x0007E000#32
  | .mbr _ | .tlbPrg _ | .rfi _ => 0x03C07FFF#32
  | .trap _ => 0x03C00000#32
  | .halt => 0x03C7FFFF#32

/-! ### The host's form -/

/-- The instruction the decoder reads from the bits `w` of a table row of `nbits` bits, every bit above them 0: the
word is laid out as the hardware stores it, four bytes with the low byte first (30_encoding.md R65), and those bytes
are decoded. -/
def decodeTableWord (nbits w : Nat) : Option Instr :=
  match decodeBytes (bytesOfWord (BitVec.ofNat 32 (w % 2 ^ nbits))) with
  | .ok i => some i
  | .error _ => none

end Sys2Proof
end

