-- ==== Sys2Proof/Machine/State.lean ====
section
/-!
DEFINITION. The state of the Twin64 core: everything 10_state.md and 20_memory.md give the machine, as plain data,
its value after reset (10_state.md R34), and the reasons a step or a host call can stop.
-/

namespace Sys2Proof.Machine

/-! ### The pieces of state -/

/-- The two physical regions, PhysicalMemory and IoMemory (20_memory.md R35). -/
inductive Space where
  | phys
  | io
  deriving DecidableEq, Repr

/-- The kind of an access, for the protection check (20_memory.md R43, R45). -/
inductive AccessKind where
  | read
  | write
  | execute
  deriving DecidableEq, Repr

/-- The trap codes (60_exceptions.md R139); their numbers are `TrapCode.number`. -/
inductive TrapCode where
  | noTrap
  | illegalInstruction
  | alignment
  | physicalMemoryAddress
  | ioMemoryAddress
  | overflow
  | protection
  | privilegeViolation
  | tlbAccess
  | softwareTrap
  deriving DecidableEq, Repr

/-- The trap record `lastTrap` (10_state.md R30). -/
structure TrapRecord where
  code : TrapCode
  info1 : BitVec 32
  info2 : BitVec 32
  info3 : BitVec 32
  deriving DecidableEq, Repr

/-- The trap record of a core with no trap (10_state.md R30). -/
def TrapRecord.none : TrapRecord :=
  { code := .noTrap, info1 := 0, info2 := 0, info3 := 0 }

/-- The run state (10_state.md R31). -/
inductive RunState where
  | running
  | trapped
  | halted
  deriving DecidableEq, Repr

/-- The program-status word (10_state.md R16). PSW[63:35] always read 0 (R21), so they hold no state;
`Psw.toWord` and `Psw.ofWord` give the 64-bit register. -/
structure Psw where
  /-- PSW[31:0], the instruction address (R17). -/
  ia : InstrAddr
  /-- PSW[32], U: user mode (R18). -/
  user : Bool
  /-- PSW[33], T: translation enable (R19). -/
  translate : Bool
  /-- PSW[34], V: overflow-trap enable (R20). -/
  overflow : Bool
  deriving DecidableEq, Repr

/-- The recognized control registers (10_state.md R23); every bit is stored (R25). -/
structure ControlRegs where
  cpuInfo : Word
  shamt : Word
  pid0 : Word
  pid1 : Word
  pid2 : Word
  pid3 : Word
  iva : Word
  deriving DecidableEq, Repr

/-- The reservation register (10_state.md R27). -/
structure Reservation where
  valid : Bool
  space : Space
  pa : Word
  len : Nat
  value : Word
  deriving DecidableEq, Repr

/-- A TLB entry with its recency stamp (10_state.md R28). -/
structure TlbEntry where
  valid : Bool
  accessId : BitVec 8
  protectId : BitVec 32
  virtualAddress : Word
  physicalAddress : Word
  stamp : Nat
  deriving DecidableEq, Repr

/-- A TLB entry after reset (10_state.md R28; 20_memory.md R55). -/
def TlbEntry.empty : TlbEntry :=
  { valid := false, accessId := 0, protectId := 0, virtualAddress := 0, physicalAddress := 0, stamp := 0 }

/-- Memory: the bytes written so far, by physical address, addresses strictly rising (`Memory.wf`). An address not
listed holds no written byte; what it reads as is `Memory.read`'s (93_implementation_defined.md I1; log 2). The two
regions are disjoint (20_memory.md R38), so one list holds the bytes of both. -/
abbrev Memory := List Host.Cell

/-- The state of the core and of the memory behind it. -/
structure State where
  /-- PHYS_MEM_SIZE, IO_MEM_SIZE and IO_DEVICE (00_scope.md R6): fixed; no step changes them (log 1). -/
  params : Params
  /-- GR0 to GR15 (10_state.md R12). Slot 0 is never read nor written: GR0 reads 0 (R13; log 3). -/
  gr : Vector Word 16
  /-- The program-status word (10_state.md R16). -/
  psw : Psw
  /-- CR0, CR1, CR4 to CR8 (10_state.md R23). -/
  cr : ControlRegs
  /-- IR, the instruction register (10_state.md R26). -/
  ir : InstrWord
  /-- The reservation register (10_state.md R27). -/
  res : Reservation
  /-- The TLB; TLB_ENTRIES is its length (10_state.md R28; log 1). -/
  tlb : List TlbEntry
  /-- The TLB's recency counter (10_state.md R28). -/
  tlbTick : Nat
  /-- The trap record (10_state.md R30). -/
  lastTrap : TrapRecord
  /-- The run state (10_state.md R31). -/
  run : RunState
  /-- Physical memory and the default I/O storage (20_memory.md R36, R37). -/
  mem : Memory
  /-- The MODEL's own field: the accesses made to an attached device, newest first (log 4). -/
  ioHistory : List IoEvent
  deriving DecidableEq, Repr

/-! ### Why a step, or a host call, can stop -/

/-- Why the machine stops with a fault. Every trap of 60_exceptions.md is taken as a next state, so nothing else is. -/
inductive Fault where
  /-- Raised by `tlbInsert` (TLB.INS and the host's tlbInsert) on a TLB with no entry. TLB_ENTRIES is at least 1
  (10_state.md R28), so no machine of the spec reaches it: safe (log 7). -/
  | noTlbSlot
  deriving DecidableEq, Repr

/-- Why an operation is refused. -/
inductive Refusal where
  /-- Raised by an arm of `exec` for an instruction with no meaning: no arm is left so. Safe. -/
  | notModelled (mnemonic : String)
  /-- Raised by the host operations resume and halt outside TRAPPED (70_reset_and_hazards.md R159). Safe: the spec
  refuses the call. -/
  | hostCallNotTrapped
  /-- Raised by the host's register getter and setter for an index outside [0, 16) (70_reset_and_hazards.md R160).
  Safe: the spec refuses the call. -/
  | hostRegisterIndex
  /-- Raised by the host's control-register getter and setter for a reserved or out-of-range id
  (70_reset_and_hazards.md R160; 10_state.md R24). Safe: the spec refuses the call. -/
  | hostControlRegisterId
  /-- Raised by the host's getTlbEntry for an index outside [0, TLB_ENTRIES) (70_reset_and_hazards.md R160). Safe:
  the spec refuses the call. -/
  | hostTlbIndex
  /-- Raised by the host's readMem, writeMem and loadImage for bytes not all backed (70_reset_and_hazards.md R160;
  20_memory.md R64). Safe: the spec refuses the call. -/
  | hostUnbackedBytes
  /-- Raised by the host's readMem and writeMem for a length not in 1, 2, 4, 8 (70_reset_and_hazards.md R160). Safe:
  the spec refuses the call. -/
  | hostAccessLength
  deriving DecidableEq, Repr

/-- The outcome of a step, of a meaning and of a host call. -/
abbrev Result := Host.Outcome State Fault Refusal

/-! ### Reset -/

/-- The control registers after reset (10_state.md R23). -/
def ControlRegs.reset : ControlRegs :=
  { cpuInfo := 0, shamt := 0, pid0 := 0, pid1 := 0, pid2 := 0, pid3 := 0, iva := 0 }

/-- The machine right after reset (10_state.md R34), with the parameters of 95_test_vectors.md (log 1) and nothing
written to memory (log 2): which memory contents and device state a reset keeps is `hostReset`. -/
def State.reset : State :=
  { params := Config.defaultParams
    gr := Vector.replicate 16 0
    psw := { ia := 0, user := false, translate := false, overflow := false }
    cr := ControlRegs.reset
    ir := 0
    res := { valid := false, space := .phys, pa := 0, len := 0, value := 0 }
    tlb := List.replicate Config.defaultTlbEntries TlbEntry.empty
    tlbTick := 0
    lastTrap := TrapRecord.none
    run := .running
    mem := []
    ioHistory := [] }

end Sys2Proof.Machine
end

