-- ==== Sys2Proof/Machine/Flags.lean ====
section
/-!
DEFINITION. The core has no arithmetic condition code (10_state.md R22): no instruction computes a flag. What stands
in the place of flags is here: the signed-overflow tests of ADD and SUB (40_alu.md R86, R89, R90), read under PSW.V,
and the conditions of CMP and CBR (40_alu.md R94).
-/

namespace Sys2Proof.Machine

/-- An integer outside [-2^63, 2^63), the range of a signed Word (40_alu.md R86). -/
def outOfSignedRange (v : Int) : Bool :=
  decide (v < -9223372036854775808) || decide (9223372036854775808 ≤ v)

/-- Signed overflow of ADD (40_alu.md R89). -/
def addOverflows (x y : Word) : Bool :=
  outOfSignedRange (x.toInt + y.toInt)

/-- Signed overflow of SUB (40_alu.md R90). -/
def subOverflows (x y : Word) : Bool :=
  outOfSignedRange (x.toInt - y.toInt)

/-- The conditions of CMP and CBR, in the order of their qualifier values 0 to 7 (40_alu.md R94). -/
inductive Cond where
  | eq
  | ne
  | lt
  | le
  | gt
  | ge
  | ltu
  | geu
  deriving DecidableEq, Repr

/-- `Cond(Q, a, b)` of 40_alu.md R94: signed reading for lt, le, gt, ge, unsigned for ltu, geu. -/
def condHolds (c : Cond) (x y : Word) : Bool :=
  match c with
  | .eq => x == y
  | .ne => x != y
  | .lt => decide (x.toInt < y.toInt)
  | .le => decide (x.toInt ≤ y.toInt)
  | .gt => decide (y.toInt < x.toInt)
  | .ge => decide (y.toInt ≤ x.toInt)
  | .ltu => decide (x.toNat < y.toNat)
  | .geu => decide (y.toNat ≤ x.toNat)

end Sys2Proof.Machine
end

