-- ==== Sys2Proof/Machine/Memory.lean ====
section
/-!
DEFINITION. The bytes of memory: look-up, write, and the little-endian values of 1 to 8 bytes (20_memory.md R40,
R47, R48), with the canonical form every operation keeps.
-/

namespace Sys2Proof.Machine

/-- The canonical form: addresses strictly rising. An address that nothing has written is not listed, and only
such an address is not listed, so equal memories are equal lists (log 2). -/
abbrev Memory.wf (m : Memory) : Prop :=
  m.Pairwise (fun c d => c.1 < d.1)

/-- The byte written at an address, or none where nothing was written. -/
def Memory.lookup : Memory → Nat → Option Byte
  | [], _ => none
  | (k, v) :: m, a => if k = a then some v else Memory.lookup m a

/-- The byte at an address: what was written there, else the free draw of that byte (93_implementation_defined.md
I1; 70_reset_and_hazards.md R158). This is the one definition of what an unlisted address reads as. -/
def Memory.read (m : Memory) (a : Nat) : Byte :=
  match m.lookup a with
  | some v => v
  | none => Config.unwrittenByte a

/-- Write one byte, keeping the addresses strictly rising. -/
def Memory.write : Memory → Nat → Byte → Memory
  | [], a, v => [(a, v)]
  | (k, u) :: m, a, v =>
    if a < k then (a, v) :: (k, u) :: m
    else if a = k then (a, v) :: m
    else (k, u) :: Memory.write m a v

/-- The n-byte little-endian value at an address, an unsigned integer (20_memory.md R47). -/
def Memory.readBytes (m : Memory) (a : Nat) : Nat → Nat
  | 0 => 0
  | n + 1 => (m.read a).toNat + 256 * Memory.readBytes m (a + 1) n

/-- Store the low 8n bits of a Word little-endian at an address (20_memory.md R48). -/
def Memory.writeBytes (m : Memory) (a : Nat) : Nat → Word → Memory
  | 0, _ => m
  | n + 1, v => Memory.writeBytes (m.write a (v.setWidth 8)) (a + 1) n (v >>> 8)

end Sys2Proof.Machine
end

