-- ==== Sys2Proof/Machine/Ops.lean ====
section
/-!
DEFINITION. The named operations over registers, the PSW, the TLB and memory that the meanings are written with, and
TAKING A TRAP (`State.raise`) with the two ways back beside it (`State.clearTrap`, `State.restorePsw`).
-/

namespace Sys2Proof.Machine

/-! ### General registers (10_state.md R12-R14) -/

/-- `x[i]`: GR0 reads 0 (10_state.md R13, R14). -/
def State.readGr (s : State) (i : Reg) : Word :=
  if i = 0 then 0 else s.gr[i]

/-- `x[i] <- v`: a write to GR0 is discarded (10_state.md R13, R14). -/
def State.writeGr (s : State) (i : Reg) (v : Word) : State :=
  { s with gr := if i = 0 then s.gr else s.gr.set i v }

/-! ### The program-status word (10_state.md R16-R21) -/

/-- The 64-bit PSW: IA in 31:0, U, T, V in 32, 33, 34, and 0 in 63:35 (10_state.md R16, R21). -/
def Psw.toWord (p : Psw) : Word :=
  (BitVec.ofBool p.overflow ++ BitVec.ofBool p.translate ++ BitVec.ofBool p.user ++ p.ia).setWidth 64

/-- The PSW a 64-bit value gives; bits 63:35 are discarded (10_state.md R21). -/
def Psw.ofWord (v : Word) : Psw :=
  { ia := v.extractLsb' 0 32, user := v.getLsbD 32, translate := v.getLsbD 33, overflow := v.getLsbD 34 }

/-- `psw.IA <- target` at the end of the cycle (30_encoding.md R81). -/
def State.retireTo (s : State) (target : InstrAddr) : State :=
  { s with psw := { s.psw with ia := target } }

/-- The default retire, `psw.IA <- (IA + 4) mod 2^32` (30_encoding.md R81; 10_state.md R17). -/
def State.retire (s : State) : State :=
  s.retireTo (s.psw.ia + 4)

/-- RFI's restore: the whole PSW from a saved value, with no "+ 4" (43_sys.md R135). -/
def State.restorePsw (s : State) (v : Word) : State :=
  { s with psw := Psw.ofWord v }

/-! ### Control registers (10_state.md R23-R25) -/

/-- `cr[n]` for a recognized id, none for a reserved one (10_state.md R23, R24). -/
def State.readCr (s : State) (n : CrSlot) : Option Word :=
  match n with
  | 0 => some s.cr.cpuInfo
  | 1 => some s.cr.shamt
  | 4 => some s.cr.pid0
  | 5 => some s.cr.pid1
  | 6 => some s.cr.pid2
  | 7 => some s.cr.pid3
  | 8 => some s.cr.iva
  | _ => none

/-- The control registers with `cr[n] <- v`, all 64 bits stored (10_state.md R25); reserved slots hold no state
(R24). -/
def ControlRegs.write (c : ControlRegs) (n : CrSlot) (v : Word) : ControlRegs :=
  match n with
  | 0 => { c with cpuInfo := v }
  | 1 => { c with shamt := v }
  | 4 => { c with pid0 := v }
  | 5 => { c with pid1 := v }
  | 6 => { c with pid2 := v }
  | 7 => { c with pid3 := v }
  | 8 => { c with iva := v }
  | _ => c

/-- `cr[n] <- v` (10_state.md R25). -/
def State.writeCr (s : State) (n : CrSlot) (v : Word) : State :=
  { s with cr := s.cr.write n v }

/-! ### Traps (60_exceptions.md R138-R144) -/

/-- The number of a trap code (60_exceptions.md R139). -/
def TrapCode.number : TrapCode → Nat
  | .noTrap => 0
  | .illegalInstruction => 1
  | .alignment => 2
  | .physicalMemoryAddress => 3
  | .ioMemoryAddress => 4
  | .overflow => 5
  | .protection => 6
  | .privilegeViolation => 7
  | .tlbAccess => 8
  | .softwareTrap => 9

/-- TAKING A TRAP (60_exceptions.md R140, R142): the record and the run state, and nothing else. PSW.IA keeps the
address of the trapping instruction; no register is saved and no handler is entered. -/
def State.raise (s : State) (c : TrapCode) (info1 info2 info3 : BitVec 32) : State :=
  { s with lastTrap := { code := c, info1 := info1, info2 := info2, info3 := info3 }, run := .trapped }

/-- LEAVING TRAPPED for RUNNING, what the host's resume does: the record is cleared and nothing else changes, so the
next cycle fetches at PSW.IA again (60_exceptions.md R144; 70_reset_and_hazards.md R160). -/
def State.clearTrap (s : State) : State :=
  { s with lastTrap := TrapRecord.none, run := .running }

/-- IllegalInstruction(w, IA, 0), w the word in IR (60_exceptions.md R141; log 6). -/
def State.raiseIllegal (s : State) : State :=
  s.raise .illegalInstruction s.ir s.psw.ia 0

/-- PrivilegeViolation(w, IA, 0) (60_exceptions.md R141; 43_sys.md R123). -/
def State.raisePrivilege (s : State) : State :=
  s.raise .privilegeViolation s.ir s.psw.ia 0

/-- Overflow(w, IA, 0) (60_exceptions.md R141; 40_alu.md R89). -/
def State.raiseOverflow (s : State) : State :=
  s.raise .overflow s.ir s.psw.ia 0

/-- A data-access trap: ea[31:0], the length, w (60_exceptions.md R141; 41_mem.md R109). -/
def State.raiseData (s : State) (c : TrapCode) (ea : Word) (n : Nat) : State :=
  s.raise c (ea.setWidth 32) (BitVec.ofNat 32 n) s.ir

/-- A fetch trap: IA, 4, 0 (60_exceptions.md R141). -/
def State.raiseFetch (s : State) (c : TrapCode) : State :=
  s.raise c s.psw.ia 4 0

/-! ### The TLB (10_state.md R28, R29; 20_memory.md R44, R45, R53-R55) -/

/-- The offset of an address in its 16 KiB page, `va mod 16384`. -/
def pageOffset (va : Word) : Word :=
  va % 16384#64

/-- The page of an address, `va - (va mod 16384)` (20_memory.md R44). -/
def pageBase (va : Word) : Word :=
  va - pageOffset va

/-- A valid entry for the page of `va` (20_memory.md R44). -/
def TlbEntry.covers (e : TlbEntry) (va : Word) : Bool :=
  e.valid && e.virtualAddress == pageBase va

/-- The index of the entry a lookup of `va` hits, if any (20_memory.md R44). By R29 at most one entry covers a page;
where more do, in a state no run reaches, it is the lowest (log 8). -/
def tlbIndex (tlb : List TlbEntry) (va : Word) : Option Nat :=
  tlb.findIdx? (fun e => e.covers va)

/-- The recency update of a hit at an index: `tlbTick <- tlbTick + 1; e.stamp <- tlbTick` (20_memory.md R44). -/
def State.touchTlb (s : State) (k : Nat) : State :=
  { s with tlbTick := s.tlbTick + 1, tlb := s.tlb.modify k (fun e => { e with stamp := s.tlbTick + 1 }) }

/-- `TlbLookup(va)`: the entry and the state with its recency updated; a miss changes nothing (20_memory.md R44). -/
def lookupTlb (s : State) (va : Word) : Option TlbEntry × State :=
  match tlbIndex s.tlb va with
  | none => (none, s)
  | some k => (s.tlb[k]?, s.touchTlb k)

/-- `TlbPurge(va)`: the valid entry for the page gets valid = 0, its other fields stay; tlbTick is unchanged
(20_memory.md R54). -/
def purgeEntries (tlb : List TlbEntry) (va : Word) : List TlbEntry :=
  tlb.map (fun e => if e.covers va then { e with valid := false } else e)

/-- The smallest stamp of a list of entries, none if there is no entry. -/
def smallestStamp : List TlbEntry → Option Nat
  | [] => none
  | e :: es =>
    match smallestStamp es with
    | none => some e.stamp
    | some m => some (min e.stamp m)

/-- The slot `TlbInsert` writes: the lowest invalid one, else the lowest with the smallest stamp (20_memory.md R53);
none for a TLB with no entry (log 7). -/
def victimSlot (tlb : List TlbEntry) : Option Nat :=
  match tlb.findIdx? (fun e => !e.valid) with
  | some k => some k
  | none =>
    match smallestStamp tlb with
    | none => none
    | some m => tlb.findIdx? (fun e => e.stamp == m)

/-- The entry `TlbInsert` writes (20_memory.md R53). -/
def newTlbEntry (va pa : Word) (accessId : BitVec 8) (protectId : BitVec 32) (stamp : Nat) : TlbEntry :=
  { valid := true, accessId := accessId, protectId := protectId, virtualAddress := pageBase va,
    physicalAddress := pageBase pa, stamp := stamp }

/-- `TlbInsert(va, pa, aid, pid)`: purge the page, then write the victim slot with a new stamp (20_memory.md R53). -/
def tlbInsert (s : State) (va pa : Word) (accessId : BitVec 8) (protectId : BitVec 32) : Result :=
  match victimSlot (purgeEntries s.tlb va) with
  | none => .fault .noTlbSlot
  | some k =>
    .next { s with
      tlbTick := s.tlbTick + 1
      tlb := (purgeEntries s.tlb va).set k (newTlbEntry va pa accessId protectId (s.tlbTick + 1)) }

/-- `TlbPurge(va)` on the state (20_memory.md R54). -/
def State.purgeTlb (s : State) (va : Word) : State :=
  { s with tlb := purgeEntries s.tlb va }

/-- The right an access of a kind needs: accessId[0] Read, [1] Write, [2] Execute (20_memory.md R45 (2)). -/
def TlbEntry.grants (e : TlbEntry) (kind : AccessKind) : Bool :=
  match kind with
  | .read => e.accessId.getLsbD 0
  | .write => e.accessId.getLsbD 1
  | .execute => e.accessId.getLsbD 2

/-- protectId is 0 or equals bits 31:0 of one of PID0 to PID3 (20_memory.md R45 (3)). -/
def TlbEntry.pidMatches (e : TlbEntry) (c : ControlRegs) : Bool :=
  e.protectId == 0 || e.protectId == c.pid0.setWidth 32 || e.protectId == c.pid1.setWidth 32 ||
    e.protectId == c.pid2.setWidth 32 || e.protectId == c.pid3.setWidth 32

/-- `Permitted(e, kind)` (20_memory.md R45). -/
def permitted (s : State) (e : TlbEntry) (kind : AccessKind) : Bool :=
  (!s.psw.user || e.accessId.getLsbD 3) && e.grants kind && e.pidMatches s.cr

/-! ### Translation and routing (20_memory.md R42, R43, R46) -/

/-- `0xF0000000 <= a <= 0xFFFFFFFF` (20_memory.md R43). -/
def inIoWindow (a : Word) : Bool :=
  decide (Config.ioMemStart ≤ a.toNat) && decide (a.toNat ≤ Config.ioMemLimit)

/-- The answer of `Translate`: a region and a physical address, or the trap the access raises (20_memory.md R43). -/
inductive Translation where
  | ok (sp : Space) (pa : Word)
  | trap (c : TrapCode)
  deriving DecidableEq, Repr

/-- The routing of a physical address and the bounds check of its region (20_memory.md R43, R46); `pa + n` does not
wrap. -/
def route (p : Params) (pa : Word) (n : Nat) : Translation :=
  if inIoWindow pa then
    if pa.toNat + n > Config.ioMemStart + p.ioMemSize then .trap .ioMemoryAddress else .ok .io pa
  else
    if pa.toNat + n > p.physMemSize then .trap .physicalMemoryAddress else .ok .phys pa

/-- `Translate(va, n, kind)` (20_memory.md R43): alignment, the I/O window, T = 0, the TLB, protection, bounds, in
this order. The state holds the recency update of a hit, which stands also when the access traps (R44). -/
def translate (s : State) (va : Word) (n : Nat) (kind : AccessKind) : Translation × State :=
  if va.toNat % n ≠ 0 then (.trap .alignment, s)
  else if inIoWindow va || !s.psw.translate then (route s.params va n, s)
  else
    match lookupTlb s va with
    | (none, s1) => (.trap .tlbAccess, s1)
    | (some e, s1) =>
      if permitted s e kind then (route s.params (e.physicalAddress + pageOffset va) n, s1)
      else (.trap .protection, s1)

/-! ### Region access and the reservation (20_memory.md R47, R48, R60) -/

/-- Whether an access to a region goes to an attached device instead of the default storage (20_memory.md R37). -/
def State.usesDevice (s : State) (sp : Space) : Bool :=
  sp == .io && s.params.ioDevice == .attached

/-- `RegionRead(space, pa, n)`: the n-byte value, and the state, which changes only where an attached device answers
(20_memory.md R47, R52; log 4). -/
def regionRead (s : State) (sp : Space) (pa : Word) (n : Nat) : Word × State :=
  if s.usesDevice sp then
    (BitVec.ofNat 64 ((Config.ioDeviceRead s.ioHistory pa.toNat n).toNat % 2 ^ (8 * n)),
      { s with ioHistory := .read pa.toNat n :: s.ioHistory })
  else (BitVec.ofNat 64 (s.mem.readBytes pa.toNat n), s)

/-- Whether the n bytes at `pa` hold one of the reserved bytes [res.pa, res.pa + res.len) (20_memory.md R60). -/
def Reservation.overlaps (r : Reservation) (pa : Word) (n : Nat) : Bool :=
  decide (max pa.toNat r.pa.toNat < min (pa.toNat + n) (r.pa.toNat + r.len))

/-- The reservation after a region write (20_memory.md R60 (a)). -/
def Reservation.afterWrite (r : Reservation) (sp : Space) (pa : Word) (n : Nat) : Reservation :=
  if r.space = sp ∧ r.overlaps pa n = true then { r with valid := false } else r

/-- `RegionWrite(space, pa, n, v)`: the low 8n bits little-endian, or one write of the attached device, and then the
reservation rule (20_memory.md R48, R60). -/
def State.regionWrite (s : State) (sp : Space) (pa : Word) (n : Nat) (v : Word) : State :=
  { s with
    mem := if s.usesDevice sp then s.mem else s.mem.writeBytes pa.toNat n v
    ioHistory :=
      if s.usesDevice sp then .write pa.toNat n (v.toNat % 2 ^ (8 * n)) :: s.ioHistory else s.ioHistory
    res := s.res.afterWrite sp pa n }

/-- The reservation an LDR leaves (41_mem.md R112). -/
def State.reserve (s : State) (sp : Space) (pa : Word) (n : Nat) (v : Word) : State :=
  { s with res := { valid := true, space := sp, pa := pa, len := n, value := v } }

/-- `res.valid <- 0` (20_memory.md R60 (b); 41_mem.md R113). -/
def State.dropReservation (s : State) : State :=
  { s with res := { s.res with valid := false } }

/-- Extension of an n-byte value: sign extension when asked for and n < 8, else zero extension (20_memory.md R49). -/
def extendLoaded (v : Word) (n : Nat) (signed : Bool) : Word :=
  if signed && decide (n < 8) then (v.setWidth (8 * n)).signExtend 64 else (v.setWidth (8 * n)).setWidth 64

end Sys2Proof.Machine
end

