-- ==== Sys2Proof/Machine/Operands.lean ====
section
/-!
DEFINITION. The operand forms: second operands, bit-field positions and lengths, shift amounts, effective addresses,
branch targets and link values (40_alu.md R85, R95, R99; 41_mem.md R108; 42_branch.md R115, R116; 43_sys.md R132).
-/

namespace Sys2Proof.Machine

/-- An immediate of any width as a sign-extended Word (30_encoding.md R68). -/
def immediate {k : Nat} (imm : BitVec k) : Word :=
  imm.signExtend 64

/-! ### Bit fields and shift amounts -/

/-- `cr[1][5:0]`, the bit position or amount that SHAMT gives (10_state.md R25). -/
def State.shamtAmount (s : State) : Nat :=
  (s.cr.shamt.extractLsb' 0 6).toNat

/-- `x[A][5:0]`, the amount of a SHAOP-R form (40_alu.md R99). -/
def State.registerAmount (s : State) (a : Reg) : Nat :=
  ((s.readGr a).extractLsb' 0 6).toNat

/-- `len = min(len6 + 1, 64 - pos)`: a field is cut at bit 63 (40_alu.md R95). -/
def fieldLength (pos : Nat) (len6 : BitVec 6) : Nat :=
  min (len6.toNat + 1) (64 - pos)

/-- The field of `len` bits from bit `pos`, zero-extended (40_alu.md R96). -/
def extractUnsigned (v : Word) (pos len : Nat) : Word :=
  (v.extractLsb' pos len).setWidth 64

/-- The field of `len` bits from bit `pos`, sign-extended (40_alu.md R97). -/
def extractSigned (v : Word) (pos len : Nat) : Word :=
  (v.extractLsb' pos len).signExtend 64

/-- `mask = (2^len - 1) * 2^pos` (40_alu.md R95). -/
def fieldMask (pos len : Nat) : Word :=
  BitVec.ofNat 64 ((2 ^ len - 1) * 2 ^ pos)

/-- `old` with bits pos + len - 1 .. pos replaced by the low bits of `v` (40_alu.md R98, R104, R105, R106). -/
def depositField (old v : Word) (pos len : Nat) : Word :=
  (old &&& ~~~fieldMask pos len) ||| ((v <<< pos) &&& fieldMask pos len)

/-! ### Memory operands -/

/-- The length of a memory access, Q[21:20] (41_mem.md R108). -/
inductive AccessLen where
  | byte
  | half
  | word
  | double
  deriving DecidableEq, Repr

/-- n = 1, 2, 4 or 8 bytes (41_mem.md R108). -/
def AccessLen.bytes : AccessLen → Nat
  | .byte => 1
  | .half => 2
  | .word => 4
  | .double => 8

/-- Base + offset, modulo 2^64 (41_mem.md R108, w[14] = 0). -/
def State.eaOffset (s : State) (b : Reg) (ofs : BitVec 13) : Word :=
  s.readGr b + immediate ofs

/-- Base + index, unscaled, modulo 2^64 (41_mem.md R108, w[14] = 1). -/
def State.eaIndex (s : State) (b a : Reg) : Word :=
  s.readGr b + s.readGr a

/-! ### Branches -/

/-- `link = zext_32((IA + 4) mod 2^32)` (42_branch.md R116). -/
def State.linkValue (s : State) : Word :=
  (s.psw.ia + 4).setWidth 64

/-- `(IA + 4 * displacement) mod 2^32`, IA the address of the branch itself (42_branch.md R115). -/
def State.relativeTarget {k : Nat} (s : State) (disp : BitVec k) : InstrAddr :=
  s.psw.ia + 4 * disp.signExtend 32

/-! ### The status mask of MST (43_sys.md R132) -/

/-- The old status, `psw[63:32]` zero-extended (43_sys.md R132). -/
def State.statusWord (s : State) : Word :=
  s.psw.toWord >>> 32

/-- RSM's PSW: clear U, T, V where m[0], m[1], m[2] are 1 (43_sys.md R133). -/
def Psw.clearBits (p : Psw) (m : BitVec 13) : Psw :=
  { p with
    user := p.user && !m.getLsbD 0
    translate := p.translate && !m.getLsbD 1
    overflow := p.overflow && !m.getLsbD 2 }

/-- SSM's PSW: set U, T, V where m[0], m[1], m[2] are 1 (43_sys.md R134). -/
def Psw.setBits (p : Psw) (m : BitVec 13) : Psw :=
  { p with
    user := p.user || m.getLsbD 0
    translate := p.translate || m.getLsbD 1
    overflow := p.overflow || m.getLsbD 2 }

end Sys2Proof.Machine
end

