-- ==== Sys2Proof/Machine/Alu.lean ====
section
/-!
DEFINITION. The meanings of the ALU group (40_alu.md), one definition per instruction over four shared ones.
-/

namespace Sys2Proof.Machine

/-- `x[R] <- v`, then retire (40_alu.md R86). -/
def writeResult (r : Reg) (v : Word) (s : State) : Result :=
  .next (s.writeGr r v).retire

/-- ADD's sum, or Overflow when V = 1 and the signed sum overflows; the check also runs for R0 (40_alu.md R89). -/
def addResult (r : Reg) (x y : Word) (s : State) : Result :=
  if s.psw.overflow && addOverflows x y then .next s.raiseOverflow else writeResult r (x + y) s

/-- SUB's difference, or Overflow when V = 1 and it overflows (40_alu.md R90). -/
def subResult (r : Reg) (x y : Word) (s : State) : Result :=
  if s.psw.overflow && subOverflows x y then .next s.raiseOverflow else writeResult r (x - y) s

/-- CMP's result: 1 if the condition holds, else 0 (40_alu.md R94). -/
def compareResult (c : Cond) (r : Reg) (x y : Word) (s : State) : Result :=
  writeResult r (if condHolds c x y then 1 else 0) s

/-- NOP (40_alu.md R88). -/
def execNop (s : State) : Result :=
  .next s.retire

/-- ADD, register form (40_alu.md R89). -/
def execAddR (r b a : Reg) (s : State) : Result :=
  addResult r (s.readGr b) (s.readGr a) s

/-- ADD, immediate form (40_alu.md R89). -/
def execAddI (r b : Reg) (imm : BitVec 13) (s : State) : Result :=
  addResult r (s.readGr b) (immediate imm) s

/-- SUB, register form (40_alu.md R90). -/
def execSubR (r b a : Reg) (s : State) : Result :=
  subResult r (s.readGr b) (s.readGr a) s

/-- SUB, immediate form (40_alu.md R90). -/
def execSubI (r b : Reg) (imm : BitVec 13) (s : State) : Result :=
  subResult r (s.readGr b) (immediate imm) s

/-- AND, register form (40_alu.md R91). -/
def execAndR (r b a : Reg) (s : State) : Result :=
  writeResult r (s.readGr b &&& s.readGr a) s

/-- AND, immediate form (40_alu.md R91). -/
def execAndI (r b : Reg) (imm : BitVec 13) (s : State) : Result :=
  writeResult r (s.readGr b &&& immediate imm) s

/-- OR, register form (40_alu.md R92). -/
def execOrR (r b a : Reg) (s : State) : Result :=
  writeResult r (s.readGr b ||| s.readGr a) s

/-- OR, immediate form (40_alu.md R92). -/
def execOrI (r b : Reg) (imm : BitVec 13) (s : State) : Result :=
  writeResult r (s.readGr b ||| immediate imm) s

/-- XOR, register form (40_alu.md R93). -/
def execXorR (r b a : Reg) (s : State) : Result :=
  writeResult r (s.readGr b ^^^ s.readGr a) s

/-- XOR, immediate form (40_alu.md R93). -/
def execXorI (r b : Reg) (imm : BitVec 13) (s : State) : Result :=
  writeResult r (s.readGr b ^^^ immediate imm) s

/-- CMP.EQ, register form (40_alu.md R94). -/
def execCmpEqR (r b a : Reg) (s : State) : Result :=
  compareResult .eq r (s.readGr b) (s.readGr a) s

/-- CMP.EQ, immediate form (40_alu.md R94). -/
def execCmpEqI (r b : Reg) (imm : BitVec 13) (s : State) : Result :=
  compareResult .eq r (s.readGr b) (immediate imm) s

/-- CMP.NE, register form (40_alu.md R94). -/
def execCmpNeR (r b a : Reg) (s : State) : Result :=
  compareResult .ne r (s.readGr b) (s.readGr a) s

/-- CMP.NE, immediate form (40_alu.md R94). -/
def execCmpNeI (r b : Reg) (imm : BitVec 13) (s : State) : Result :=
  compareResult .ne r (s.readGr b) (immediate imm) s

/-- CMP.LT, register form (40_alu.md R94). -/
def execCmpLtR (r b a : Reg) (s : State) : Result :=
  compareResult .lt r (s.readGr b) (s.readGr a) s

/-- CMP.LT, immediate form (40_alu.md R94). -/
def execCmpLtI (r b : Reg) (imm : BitVec 13) (s : State) : Result :=
  compareResult .lt r (s.readGr b) (immediate imm) s

/-- CMP.LE, register form (40_alu.md R94). -/
def execCmpLeR (r b a : Reg) (s : State) : Result :=
  compareResult .le r (s.readGr b) (s.readGr a) s

/-- CMP.LE, immediate form (40_alu.md R94). -/
def execCmpLeI (r b : Reg) (imm : BitVec 13) (s : State) : Result :=
  compareResult .le r (s.readGr b) (immediate imm) s

/-- CMP.GT, register form (40_alu.md R94). -/
def execCmpGtR (r b a : Reg) (s : State) : Result :=
  compareResult .gt r (s.readGr b) (s.readGr a) s

/-- CMP.GT, immediate form (40_alu.md R94). -/
def execCmpGtI (r b : Reg) (imm : BitVec 13) (s : State) : Result :=
  compareResult .gt r (s.readGr b) (immediate imm) s

/-- CMP.GE, register form (40_alu.md R94). -/
def execCmpGeR (r b a : Reg) (s : State) : Result :=
  compareResult .ge r (s.readGr b) (s.readGr a) s

/-- CMP.GE, immediate form (40_alu.md R94). -/
def execCmpGeI (r b : Reg) (imm : BitVec 13) (s : State) : Result :=
  compareResult .ge r (s.readGr b) (immediate imm) s

/-- CMP.LTU, register form (40_alu.md R94). -/
def execCmpLtuR (r b a : Reg) (s : State) : Result :=
  compareResult .ltu r (s.readGr b) (s.readGr a) s

/-- CMP.LTU, immediate form (40_alu.md R94). -/
def execCmpLtuI (r b : Reg) (imm : BitVec 13) (s : State) : Result :=
  compareResult .ltu r (s.readGr b) (immediate imm) s

/-- CMP.GEU, register form (40_alu.md R94). -/
def execCmpGeuR (r b a : Reg) (s : State) : Result :=
  compareResult .geu r (s.readGr b) (s.readGr a) s

/-- CMP.GEU, immediate form (40_alu.md R94). -/
def execCmpGeuI (r b : Reg) (imm : BitVec 13) (s : State) : Result :=
  compareResult .geu r (s.readGr b) (immediate imm) s

/-- EXTRU (40_alu.md R96). -/
def execExtru (r b : Reg) (pos len : BitVec 6) (s : State) : Result :=
  writeResult r (extractUnsigned (s.readGr b) pos.toNat (fieldLength pos.toNat len)) s

/-- EXTRU (SHAMT) (40_alu.md R96). -/
def execExtruShamt (r b : Reg) (len : BitVec 6) (s : State) : Result :=
  writeResult r (extractUnsigned (s.readGr b) s.shamtAmount (fieldLength s.shamtAmount len)) s

/-- EXTRS (40_alu.md R97). -/
def execExtrs (r b : Reg) (pos len : BitVec 6) (s : State) : Result :=
  writeResult r (extractSigned (s.readGr b) pos.toNat (fieldLength pos.toNat len)) s

/-- EXTRS (SHAMT) (40_alu.md R97). -/
def execExtrsShamt (r b : Reg) (len : BitVec 6) (s : State) : Result :=
  writeResult r (extractSigned (s.readGr b) s.shamtAmount (fieldLength s.shamtAmount len)) s

/-- DEP (40_alu.md R98). -/
def execDep (r b : Reg) (pos len : BitVec 6) (s : State) : Result :=
  writeResult r (depositField (s.readGr r) (s.readGr b) pos.toNat (fieldLength pos.toNat len)) s

/-- DEP (SHAMT) (40_alu.md R98). -/
def execDepShamt (r b : Reg) (len : BitVec 6) (s : State) : Result :=
  writeResult r (depositField (s.readGr r) (s.readGr b) s.shamtAmount (fieldLength s.shamtAmount len)) s

/-- SHL, amount in a register (40_alu.md R100). -/
def execShlR (r b a : Reg) (s : State) : Result :=
  writeResult r (s.readGr b <<< (s.registerAmount a)) s

/-- SHL, immediate amount (40_alu.md R100). -/
def execShlI (r b : Reg) (sa : BitVec 6) (s : State) : Result :=
  writeResult r (s.readGr b <<< sa.toNat) s

/-- SHL (SHAMT) (40_alu.md R100). -/
def execShlShamt (r b : Reg) (s : State) : Result :=
  writeResult r (s.readGr b <<< s.shamtAmount) s

/-- SHR, amount in a register (40_alu.md R101). -/
def execShrR (r b a : Reg) (s : State) : Result :=
  writeResult r (s.readGr b >>> (s.registerAmount a)) s

/-- SHR, immediate amount (40_alu.md R101). -/
def execShrI (r b : Reg) (sa : BitVec 6) (s : State) : Result :=
  writeResult r (s.readGr b >>> sa.toNat) s

/-- SHR (SHAMT) (40_alu.md R101). -/
def execShrShamt (r b : Reg) (s : State) : Result :=
  writeResult r (s.readGr b >>> s.shamtAmount) s

/-- SHRA, amount in a register (40_alu.md R102). -/
def execShraR (r b a : Reg) (s : State) : Result :=
  writeResult r ((s.readGr b).sshiftRight (s.registerAmount a)) s

/-- SHRA, immediate amount (40_alu.md R102). -/
def execShraI (r b : Reg) (sa : BitVec 6) (s : State) : Result :=
  writeResult r ((s.readGr b).sshiftRight sa.toNat) s

/-- SHRA (SHAMT) (40_alu.md R102). -/
def execShraShamt (r b : Reg) (s : State) : Result :=
  writeResult r ((s.readGr b).sshiftRight s.shamtAmount) s

/-- LDI.L (40_alu.md R103). -/
def execLdiL (r : Reg) (imm : BitVec 20) (s : State) : Result :=
  writeResult r (imm.setWidth 64) s

/-- LDI.M (40_alu.md R104). -/
def execLdiM (r : Reg) (imm : BitVec 20) (s : State) : Result :=
  writeResult r (depositField (s.readGr r) (imm.setWidth 64) 20 20) s

/-- LDI.U (40_alu.md R105). -/
def execLdiU (r : Reg) (imm : BitVec 20) (s : State) : Result :=
  writeResult r (depositField (s.readGr r) (imm.setWidth 64) 40 20) s

/-- LDI.T (40_alu.md R106). -/
def execLdiT (r : Reg) (imm : BitVec 20) (s : State) : Result :=
  writeResult r (depositField (s.readGr r) (imm.setWidth 64) 60 4) s

/-- LDO (40_alu.md R107). -/
def execLdo (r b : Reg) (imm : BitVec 15) (s : State) : Result :=
  writeResult r (s.readGr b + immediate imm) s

end Sys2Proof.Machine
end

