-- ==== Sys2Proof/Machine/Branch.lean ====
section
/-!
DEFINITION. The meanings of the BR group (42_branch.md). A target is written to PSW.IA without any check; a misaligned
or unbacked one traps at the next fetch (R115).
-/

namespace Sys2Proof.Machine

/-- `x[R] <- link; nextIA <- target`, the target computed before the link is written (42_branch.md R116). -/
def linkAndBranch (r : Reg) (target : InstrAddr) (s : State) : Result :=
  .next ((s.writeGr r s.linkValue).retireTo target)

/-- Branch to the target if the condition holds, else fall through to IA + 4 (42_branch.md R115). -/
def branchIf (taken : Bool) (target : InstrAddr) (s : State) : Result :=
  .next (if taken then s.retireTo target else s.retire)

/-- B (42_branch.md R117). -/
def execB (r : Reg) (disp : BitVec 19) (s : State) : Result :=
  linkAndBranch r (s.relativeTarget disp) s

/-- BR (42_branch.md R118). -/
def execBr (r b : Reg) (s : State) : Result :=
  linkAndBranch r ((s.readGr b).setWidth 32) s

/-- BV (42_branch.md R119). -/
def execBv (r b a : Reg) (s : State) : Result :=
  linkAndBranch r ((s.readGr b + 4 * s.readGr a).setWidth 32) s

/-- BB.F (42_branch.md R120). -/
def execBbF (r : Reg) (pos : BitVec 6) (disp : BitVec 13) (s : State) : Result :=
  branchIf (!(s.readGr r).getLsbD pos.toNat) (s.relativeTarget disp) s

/-- BB.T (42_branch.md R120). -/
def execBbT (r : Reg) (pos : BitVec 6) (disp : BitVec 13) (s : State) : Result :=
  branchIf ((s.readGr r).getLsbD pos.toNat) (s.relativeTarget disp) s

/-- BB.F (SHAMT) (42_branch.md R120). -/
def execBbFShamt (r : Reg) (disp : BitVec 13) (s : State) : Result :=
  branchIf (!(s.readGr r).getLsbD s.shamtAmount) (s.relativeTarget disp) s

/-- BB.T (SHAMT) (42_branch.md R120). -/
def execBbTShamt (r : Reg) (disp : BitVec 13) (s : State) : Result :=
  branchIf ((s.readGr r).getLsbD s.shamtAmount) (s.relativeTarget disp) s

/-- CBR.EQ (42_branch.md R121). -/
def execCbrEq (r b : Reg) (disp : BitVec 15) (s : State) : Result :=
  branchIf (condHolds .eq (s.readGr r) (s.readGr b)) (s.relativeTarget disp) s

/-- CBR.NE (42_branch.md R121). -/
def execCbrNe (r b : Reg) (disp : BitVec 15) (s : State) : Result :=
  branchIf (condHolds .ne (s.readGr r) (s.readGr b)) (s.relativeTarget disp) s

/-- CBR.LT (42_branch.md R121). -/
def execCbrLt (r b : Reg) (disp : BitVec 15) (s : State) : Result :=
  branchIf (condHolds .lt (s.readGr r) (s.readGr b)) (s.relativeTarget disp) s

/-- CBR.LE (42_branch.md R121). -/
def execCbrLe (r b : Reg) (disp : BitVec 15) (s : State) : Result :=
  branchIf (condHolds .le (s.readGr r) (s.readGr b)) (s.relativeTarget disp) s

/-- CBR.GT (42_branch.md R121). -/
def execCbrGt (r b : Reg) (disp : BitVec 15) (s : State) : Result :=
  branchIf (condHolds .gt (s.readGr r) (s.readGr b)) (s.relativeTarget disp) s

/-- CBR.GE (42_branch.md R121). -/
def execCbrGe (r b : Reg) (disp : BitVec 15) (s : State) : Result :=
  branchIf (condHolds .ge (s.readGr r) (s.readGr b)) (s.relativeTarget disp) s

/-- CBR.LTU (42_branch.md R121). -/
def execCbrLtu (r b : Reg) (disp : BitVec 15) (s : State) : Result :=
  branchIf (condHolds .ltu (s.readGr r) (s.readGr b)) (s.relativeTarget disp) s

/-- CBR.GEU (42_branch.md R121). -/
def execCbrGeu (r b : Reg) (disp : BitVec 15) (s : State) : Result :=
  branchIf (condHolds .geu (s.readGr r) (s.readGr b)) (s.relativeTarget disp) s

/-- MBR (42_branch.md R122). -/
def execMbr (b : Reg) (s : State) : Result :=
  .next (s.retireTo (s.psw.ia + 4 + 4 * (s.readGr b).setWidth 32))

end Sys2Proof.Machine
end

