-- ==== Sys2Proof/Machine/Mem.lean ====
section
/-!
DEFINITION. The meanings of the MEM group (41_mem.md), one definition per instruction over four shared ones. Every
access goes through `translate` before any write; a trap there is taken with ea, the length and w (R109).
-/

namespace Sys2Proof.Machine

/-- LD at `ea`: `x[R]` gets the n bytes, sign- or zero-extended (41_mem.md R110). -/
def loadValue (len : AccessLen) (signed : Bool) (r : Reg) (ea : Word) (s : State) : Result :=
  match translate s ea len.bytes .read with
  | (.trap c, s1) => .next (s1.raiseData c ea len.bytes)
  | (.ok sp pa, s1) =>
    let (v, s2) := regionRead s1 sp pa len.bytes
    .next (s2.writeGr r (extendLoaded v len.bytes signed)).retire

/-- ST at `ea`: the low n bytes of `x[R]` (41_mem.md R111). -/
def storeValue (len : AccessLen) (r : Reg) (ea : Word) (s : State) : Result :=
  match translate s ea len.bytes .write with
  | (.trap c, s1) => .next (s1.raiseData c ea len.bytes)
  | (.ok sp pa, s1) => .next (s1.regionWrite sp pa len.bytes (s.readGr r)).retire

/-- LDR at `ea`: as LD, and the reservation of the bytes read, replacing any earlier one (41_mem.md R112). -/
def loadReserve (len : AccessLen) (signed : Bool) (r : Reg) (ea : Word) (s : State) : Result :=
  match translate s ea len.bytes .read with
  | (.trap c, s1) => .next (s1.raiseData c ea len.bytes)
  | (.ok sp pa, s1) =>
    let (v, s2) := regionRead s1 sp pa len.bytes
    let result := extendLoaded v len.bytes signed
    .next ((s2.reserve sp pa len.bytes result).writeGr r result).retire

/-- The test of STC: a valid reservation of the same region, physical address and length (41_mem.md R113). -/
def Reservation.admits (q : Reservation) (sp : Space) (pa : Word) (n : Nat) : Bool :=
  q.valid && q.space == sp && q.pa == pa && q.len == n

/-- STC at `ea`: the reservation is dropped whether it succeeds or fails; only a success stores; `x[R]`, read first as
the data, gets 1 or 0 (41_mem.md R113). -/
def storeConditional (len : AccessLen) (r : Reg) (ea : Word) (s : State) : Result :=
  match translate s ea len.bytes .write with
  | (.trap c, s1) => .next (s1.raiseData c ea len.bytes)
  | (.ok sp pa, s1) =>
    if s.res.admits sp pa len.bytes then
      .next ((s1.dropReservation.regionWrite sp pa len.bytes (s.readGr r)).writeGr r 1).retire
    else .next (s1.dropReservation.writeGr r 0).retire

/-- LD.B, base + offset (41_mem.md R110). -/
def execLdBO (r b : Reg) (ofs : BitVec 13) (s : State) : Result :=
  loadValue .byte false r (s.eaOffset b ofs) s

/-- LD.B, base + index (41_mem.md R110). -/
def execLdBX (r b a : Reg) (s : State) : Result :=
  loadValue .byte false r (s.eaIndex b a) s

/-- LD.B.S, base + offset (41_mem.md R110). -/
def execLdBSO (r b : Reg) (ofs : BitVec 13) (s : State) : Result :=
  loadValue .byte true r (s.eaOffset b ofs) s

/-- LD.B.S, base + index (41_mem.md R110). -/
def execLdBSX (r b a : Reg) (s : State) : Result :=
  loadValue .byte true r (s.eaIndex b a) s

/-- LD.H, base + offset (41_mem.md R110). -/
def execLdHO (r b : Reg) (ofs : BitVec 13) (s : State) : Result :=
  loadValue .half false r (s.eaOffset b ofs) s

/-- LD.H, base + index (41_mem.md R110). -/
def execLdHX (r b a : Reg) (s : State) : Result :=
  loadValue .half false r (s.eaIndex b a) s

/-- LD.H.S, base + offset (41_mem.md R110). -/
def execLdHSO (r b : Reg) (ofs : BitVec 13) (s : State) : Result :=
  loadValue .half true r (s.eaOffset b ofs) s

/-- LD.H.S, base + index (41_mem.md R110). -/
def execLdHSX (r b a : Reg) (s : State) : Result :=
  loadValue .half true r (s.eaIndex b a) s

/-- LD.W, base + offset (41_mem.md R110). -/
def execLdWO (r b : Reg) (ofs : BitVec 13) (s : State) : Result :=
  loadValue .word false r (s.eaOffset b ofs) s

/-- LD.W, base + index (41_mem.md R110). -/
def execLdWX (r b a : Reg) (s : State) : Result :=
  loadValue .word false r (s.eaIndex b a) s

/-- LD.W.S, base + offset (41_mem.md R110). -/
def execLdWSO (r b : Reg) (ofs : BitVec 13) (s : State) : Result :=
  loadValue .word true r (s.eaOffset b ofs) s

/-- LD.W.S, base + index (41_mem.md R110). -/
def execLdWSX (r b a : Reg) (s : State) : Result :=
  loadValue .word true r (s.eaIndex b a) s

/-- LD.D, base + offset (41_mem.md R110). -/
def execLdDO (r b : Reg) (ofs : BitVec 13) (s : State) : Result :=
  loadValue .double false r (s.eaOffset b ofs) s

/-- LD.D, base + index (41_mem.md R110). -/
def execLdDX (r b a : Reg) (s : State) : Result :=
  loadValue .double false r (s.eaIndex b a) s

/-- LD.D.S, base + offset (41_mem.md R110). -/
def execLdDSO (r b : Reg) (ofs : BitVec 13) (s : State) : Result :=
  loadValue .double true r (s.eaOffset b ofs) s

/-- LD.D.S, base + index (41_mem.md R110). -/
def execLdDSX (r b a : Reg) (s : State) : Result :=
  loadValue .double true r (s.eaIndex b a) s

/-- ST.B, base + offset (41_mem.md R111). -/
def execStBO (r b : Reg) (ofs : BitVec 13) (s : State) : Result :=
  storeValue .byte r (s.eaOffset b ofs) s

/-- ST.B, base + index (41_mem.md R111). -/
def execStBX (r b a : Reg) (s : State) : Result :=
  storeValue .byte r (s.eaIndex b a) s

/-- ST.H, base + offset (41_mem.md R111). -/
def execStHO (r b : Reg) (ofs : BitVec 13) (s : State) : Result :=
  storeValue .half r (s.eaOffset b ofs) s

/-- ST.H, base + index (41_mem.md R111). -/
def execStHX (r b a : Reg) (s : State) : Result :=
  storeValue .half r (s.eaIndex b a) s

/-- ST.W, base + offset (41_mem.md R111). -/
def execStWO (r b : Reg) (ofs : BitVec 13) (s : State) : Result :=
  storeValue .word r (s.eaOffset b ofs) s

/-- ST.W, base + index (41_mem.md R111). -/
def execStWX (r b a : Reg) (s : State) : Result :=
  storeValue .word r (s.eaIndex b a) s

/-- ST.D, base + offset (41_mem.md R111). -/
def execStDO (r b : Reg) (ofs : BitVec 13) (s : State) : Result :=
  storeValue .double r (s.eaOffset b ofs) s

/-- ST.D, base + index (41_mem.md R111). -/
def execStDX (r b a : Reg) (s : State) : Result :=
  storeValue .double r (s.eaIndex b a) s

/-- LDR.B, base + offset (41_mem.md R112). -/
def execLdrBO (r b : Reg) (ofs : BitVec 13) (s : State) : Result :=
  loadReserve .byte false r (s.eaOffset b ofs) s

/-- LDR.B, base + index (41_mem.md R112). -/
def execLdrBX (r b a : Reg) (s : State) : Result :=
  loadReserve .byte false r (s.eaIndex b a) s

/-- LDR.B.S, base + offset (41_mem.md R112). -/
def execLdrBSO (r b : Reg) (ofs : BitVec 13) (s : State) : Result :=
  loadReserve .byte true r (s.eaOffset b ofs) s

/-- LDR.B.S, base + index (41_mem.md R112). -/
def execLdrBSX (r b a : Reg) (s : State) : Result :=
  loadReserve .byte true r (s.eaIndex b a) s

/-- LDR.H, base + offset (41_mem.md R112). -/
def execLdrHO (r b : Reg) (ofs : BitVec 13) (s : State) : Result :=
  loadReserve .half false r (s.eaOffset b ofs) s

/-- LDR.H, base + index (41_mem.md R112). -/
def execLdrHX (r b a : Reg) (s : State) : Result :=
  loadReserve .half false r (s.eaIndex b a) s

/-- LDR.H.S, base + offset (41_mem.md R112). -/
def execLdrHSO (r b : Reg) (ofs : BitVec 13) (s : State) : Result :=
  loadReserve .half true r (s.eaOffset b ofs) s

/-- LDR.H.S, base + index (41_mem.md R112). -/
def execLdrHSX (r b a : Reg) (s : State) : Result :=
  loadReserve .half true r (s.eaIndex b a) s

/-- LDR.W, base + offset (41_mem.md R112). -/
def execLdrWO (r b : Reg) (ofs : BitVec 13) (s : State) : Result :=
  loadReserve .word false r (s.eaOffset b ofs) s

/-- LDR.W, base + index (41_mem.md R112). -/
def execLdrWX (r b a : Reg) (s : State) : Result :=
  loadReserve .word false r (s.eaIndex b a) s

/-- LDR.W.S, base + offset (41_mem.md R112). -/
def execLdrWSO (r b : Reg) (ofs : BitVec 13) (s : State) : Result :=
  loadReserve .word true r (s.eaOffset b ofs) s

/-- LDR.W.S, base + index (41_mem.md R112). -/
def execLdrWSX (r b a : Reg) (s : State) : Result :=
  loadReserve .word true r (s.eaIndex b a) s

/-- LDR.D, base + offset (41_mem.md R112). -/
def execLdrDO (r b : Reg) (ofs : BitVec 13) (s : State) : Result :=
  loadReserve .double false r (s.eaOffset b ofs) s

/-- LDR.D, base + index (41_mem.md R112). -/
def execLdrDX (r b a : Reg) (s : State) : Result :=
  loadReserve .double false r (s.eaIndex b a) s

/-- LDR.D.S, base + offset (41_mem.md R112). -/
def execLdrDSO (r b : Reg) (ofs : BitVec 13) (s : State) : Result :=
  loadReserve .double true r (s.eaOffset b ofs) s

/-- LDR.D.S, base + index (41_mem.md R112). -/
def execLdrDSX (r b a : Reg) (s : State) : Result :=
  loadReserve .double true r (s.eaIndex b a) s

/-- STC.B, base + offset (41_mem.md R113). -/
def execStcBO (r b : Reg) (ofs : BitVec 13) (s : State) : Result :=
  storeConditional .byte r (s.eaOffset b ofs) s

/-- STC.B, base + index (41_mem.md R113). -/
def execStcBX (r b a : Reg) (s : State) : Result :=
  storeConditional .byte r (s.eaIndex b a) s

/-- STC.H, base + offset (41_mem.md R113). -/
def execStcHO (r b : Reg) (ofs : BitVec 13) (s : State) : Result :=
  storeConditional .half r (s.eaOffset b ofs) s

/-- STC.H, base + index (41_mem.md R113). -/
def execStcHX (r b a : Reg) (s : State) : Result :=
  storeConditional .half r (s.eaIndex b a) s

/-- STC.W, base + offset (41_mem.md R113). -/
def execStcWO (r b : Reg) (ofs : BitVec 13) (s : State) : Result :=
  storeConditional .word r (s.eaOffset b ofs) s

/-- STC.W, base + index (41_mem.md R113). -/
def execStcWX (r b a : Reg) (s : State) : Result :=
  storeConditional .word r (s.eaIndex b a) s

/-- STC.D, base + offset (41_mem.md R113). -/
def execStcDO (r b : Reg) (ofs : BitVec 13) (s : State) : Result :=
  storeConditional .double r (s.eaOffset b ofs) s

/-- STC.D, base + index (41_mem.md R113). -/
def execStcDX (r b a : Reg) (s : State) : Result :=
  storeConditional .double r (s.eaIndex b a) s

end Sys2Proof.Machine
end

