-- ==== Sys2Proof/Machine/Sys.lean ====
section
/-!
DEFINITION. The meanings of the SYS group (43_sys.md). The reserved control-register id of MFCR, MTCR and RFI is
checked before privilege (R124; 60_exceptions.md R143).
-/

namespace Sys2Proof.Machine

/-- A privileged instruction: in user mode it raises PrivilegeViolation instead of executing (43_sys.md R123). -/
def privileged (s : State) (effect : Result) : Result :=
  if s.psw.user then .next s.raisePrivilege else effect

/-- PRB: `x[R]` gets 1 if a one-byte access of the kind at `va` would not trap, else 0; the only side effect is the
recency update of a hit (43_sys.md R128). -/
def probe (kind : AccessKind) (r : Reg) (va : Word) (s : State) : Result :=
  match translate s va 1 kind with
  | (.trap _, s1) => .next (s1.writeGr r 0).retire
  | (.ok _ _, s1) => .next (s1.writeGr r 1).retire

/-- MFCR (43_sys.md R125). -/
def execMfcr (r : Reg) (n : CrSlot) (s : State) : Result :=
  match s.readCr n with
  | none => .next s.raiseIllegal
  | some v => .next (s.writeGr r v).retire

/-- MTCR (43_sys.md R126). -/
def execMtcr (n : CrSlot) (r : Reg) (s : State) : Result :=
  if n.recognized then
    if n != 1 && s.psw.user then .next s.raisePrivilege else .next (s.writeCr n (s.readGr r)).retire
  else .next s.raiseIllegal

/-- LPA (43_sys.md R127). -/
def execLpa (r b : Reg) (s : State) : Result :=
  privileged s (
    if inIoWindow (s.readGr b) then .next (s.writeGr r (s.readGr b)).retire
    else
      match lookupTlb s (s.readGr b) with
      | (none, s1) => .next (s1.raiseData .tlbAccess (s.readGr b) 1)
      | (some e, s1) => .next (s1.writeGr r (e.physicalAddress + pageOffset (s.readGr b))).retire)

/-- PRB.R (43_sys.md R128). -/
def execPrbR (r b : Reg) (s : State) : Result :=
  probe .read r (s.readGr b) s

/-- PRB.W (43_sys.md R128). -/
def execPrbW (r b : Reg) (s : State) : Result :=
  probe .write r (s.readGr b) s

/-- PRB.X (43_sys.md R128). -/
def execPrbX (r b : Reg) (s : State) : Result :=
  probe .execute r (s.readGr b) s

/-- TLB.INS (43_sys.md R129). -/
def execTlbIns (r b a : Reg) (s : State) : Result :=
  privileged s (
    match tlbInsert s (s.readGr b) (s.readGr a) ((s.readGr a).extractLsb' 0 8) ((s.readGr r).extractLsb' 0 32) with
    | .next s1 => .next s1.retire
    | .fault e => .fault e
    | .refused e => .refused e)

/-- TLB.PRG (43_sys.md R130). -/
def execTlbPrg (b : Reg) (s : State) : Result :=
  privileged s (.next (s.purgeTlb (s.readGr b)).retire)

/-- CA (43_sys.md R131). -/
def execCa (s : State) : Result :=
  .next s.retire

/-- RSM (43_sys.md R133). -/
def execRsm (r : Reg) (mask : BitVec 13) (s : State) : Result :=
  privileged s (.next (({ s with psw := s.psw.clearBits mask } : State).writeGr r s.statusWord).retire)

/-- SSM (43_sys.md R134). -/
def execSsm (r : Reg) (mask : BitVec 13) (s : State) : Result :=
  privileged s (.next (({ s with psw := s.psw.setBits mask } : State).writeGr r s.statusWord).retire)

/-- RFI (43_sys.md R135). -/
def execRfi (n : CrSlot) (s : State) : Result :=
  match s.readCr n with
  | none => .next s.raiseIllegal
  | some v => privileged s (.next (s.restorePsw v))

/-- TRAP (43_sys.md R136). -/
def execTrap (code : BitVec 19) (s : State) : Result :=
  .next (s.raise .softwareTrap (code.setWidth 32) s.psw.ia s.ir)

/-- HALT (43_sys.md R137). -/
def execHalt (s : State) : Result :=
  privileged s (.next ({ s with run := .halted } : State).retire)

end Sys2Proof.Machine
end

