-- ==== Sys2Proof/Machine/Dispatch.lean ====
section
/-!
DEFINITION. The dispatch of a decoded instruction to its meaning (30_encoding.md R82): one arm per constructor.
-/

namespace Sys2Proof.Machine

def exec (i : Instr) (s : State) : Host.Outcome State Fault Refusal :=
  match i with
  | .nop => Sys2Proof.Machine.execNop s
  | .addR r b a => Sys2Proof.Machine.execAddR r b a s
  | .addI r b imm => Sys2Proof.Machine.execAddI r b imm s
  | .subR r b a => Sys2Proof.Machine.execSubR r b a s
  | .subI r b imm => Sys2Proof.Machine.execSubI r b imm s
  | .andR r b a => Sys2Proof.Machine.execAndR r b a s
  | .andI r b imm => Sys2Proof.Machine.execAndI r b imm s
  | .orR r b a => Sys2Proof.Machine.execOrR r b a s
  | .orI r b imm => Sys2Proof.Machine.execOrI r b imm s
  | .xorR r b a => Sys2Proof.Machine.execXorR r b a s
  | .xorI r b imm => Sys2Proof.Machine.execXorI r b imm s
  | .cmpEqR r b a => Sys2Proof.Machine.execCmpEqR r b a s
  | .cmpEqI r b imm => Sys2Proof.Machine.execCmpEqI r b imm s
  | .cmpNeR r b a => Sys2Proof.Machine.execCmpNeR r b a s
  | .cmpNeI r b imm => Sys2Proof.Machine.execCmpNeI r b imm s
  | .cmpLtR r b a => Sys2Proof.Machine.execCmpLtR r b a s
  | .cmpLtI r b imm => Sys2Proof.Machine.execCmpLtI r b imm s
  | .cmpLeR r b a => Sys2Proof.Machine.execCmpLeR r b a s
  | .cmpLeI r b imm => Sys2Proof.Machine.execCmpLeI r b imm s
  | .cmpGtR r b a => Sys2Proof.Machine.execCmpGtR r b a s
  | .cmpGtI r b imm => Sys2Proof.Machine.execCmpGtI r b imm s
  | .cmpGeR r b a => Sys2Proof.Machine.execCmpGeR r b a s
  | .cmpGeI r b imm => Sys2Proof.Machine.execCmpGeI r b imm s
  | .cmpLtuR r b a => Sys2Proof.Machine.execCmpLtuR r b a s
  | .cmpLtuI r b imm => Sys2Proof.Machine.execCmpLtuI r b imm s
  | .cmpGeuR r b a => Sys2Proof.Machine.execCmpGeuR r b a s
  | .cmpGeuI r b imm => Sys2Proof.Machine.execCmpGeuI r b imm s
  | .extru r b pos len => Sys2Proof.Machine.execExtru r b pos len s
  | .extruShamt r b len => Sys2Proof.Machine.execExtruShamt r b len s
  | .extrs r b pos len => Sys2Proof.Machine.execExtrs r b pos len s
  | .extrsShamt r b len => Sys2Proof.Machine.execExtrsShamt r b len s
  | .dep r b pos len => Sys2Proof.Machine.execDep r b pos len s
  | .depShamt r b len => Sys2Proof.Machine.execDepShamt r b len s
  | .shlR r b a => Sys2Proof.Machine.execShlR r b a s
  | .shlI r b sa => Sys2Proof.Machine.execShlI r b sa s
  | .shlShamt r b => Sys2Proof.Machine.execShlShamt r b s
  | .shrR r b a => Sys2Proof.Machine.execShrR r b a s
  | .shrI r b sa => Sys2Proof.Machine.execShrI r b sa s
  | .shrShamt r b => Sys2Proof.Machine.execShrShamt r b s
  | .shraR r b a => Sys2Proof.Machine.execShraR r b a s
  | .shraI r b sa => Sys2Proof.Machine.execShraI r b sa s
  | .shraShamt r b => Sys2Proof.Machine.execShraShamt r b s
  | .ldiL r imm => Sys2Proof.Machine.execLdiL r imm s
  | .ldiM r imm => Sys2Proof.Machine.execLdiM r imm s
  | .ldiU r imm => Sys2Proof.Machine.execLdiU r imm s
  | .ldiT r imm => Sys2Proof.Machine.execLdiT r imm s
  | .ldo r b imm => Sys2Proof.Machine.execLdo r b imm s
  | .ldBO r b ofs => Sys2Proof.Machine.execLdBO r b ofs s
  | .ldBX r b a => Sys2Proof.Machine.execLdBX r b a s
  | .ldBSO r b ofs => Sys2Proof.Machine.execLdBSO r b ofs s
  | .ldBSX r b a => Sys2Proof.Machine.execLdBSX r b a s
  | .ldHO r b ofs => Sys2Proof.Machine.execLdHO r b ofs s
  | .ldHX r b a => Sys2Proof.Machine.execLdHX r b a s
  | .ldHSO r b ofs => Sys2Proof.Machine.execLdHSO r b ofs s
  | .ldHSX r b a => Sys2Proof.Machine.execLdHSX r b a s
  | .ldWO r b ofs => Sys2Proof.Machine.execLdWO r b ofs s
  | .ldWX r b a => Sys2Proof.Machine.execLdWX r b a s
  | .ldWSO r b ofs => Sys2Proof.Machine.execLdWSO r b ofs s
  | .ldWSX r b a => Sys2Proof.Machine.execLdWSX r b a s
  | .ldDO r b ofs => Sys2Proof.Machine.execLdDO r b ofs s
  | .ldDX r b a => Sys2Proof.Machine.execLdDX r b a s
  | .ldDSO r b ofs => Sys2Proof.Machine.execLdDSO r b ofs s
  | .ldDSX r b a => Sys2Proof.Machine.execLdDSX r b a s
  | .stBO r b ofs => Sys2Proof.Machine.execStBO r b ofs s
  | .stBX r b a => Sys2Proof.Machine.execStBX r b a s
  | .stHO r b ofs => Sys2Proof.Machine.execStHO r b ofs s
  | .stHX r b a => Sys2Proof.Machine.execStHX r b a s
  | .stWO r b ofs => Sys2Proof.Machine.execStWO r b ofs s
  | .stWX r b a => Sys2Proof.Machine.execStWX r b a s
  | .stDO r b ofs => Sys2Proof.Machine.execStDO r b ofs s
  | .stDX r b a => Sys2Proof.Machine.execStDX r b a s
  | .ldrBO r b ofs => Sys2Proof.Machine.execLdrBO r b ofs s
  | .ldrBX r b a => Sys2Proof.Machine.execLdrBX r b a s
  | .ldrBSO r b ofs => Sys2Proof.Machine.execLdrBSO r b ofs s
  | .ldrBSX r b a => Sys2Proof.Machine.execLdrBSX r b a s
  | .ldrHO r b ofs => Sys2Proof.Machine.execLdrHO r b ofs s
  | .ldrHX r b a => Sys2Proof.Machine.execLdrHX r b a s
  | .ldrHSO r b ofs => Sys2Proof.Machine.execLdrHSO r b ofs s
  | .ldrHSX r b a => Sys2Proof.Machine.execLdrHSX r b a s
  | .ldrWO r b ofs => Sys2Proof.Machine.execLdrWO r b ofs s
  | .ldrWX r b a => Sys2Proof.Machine.execLdrWX r b a s
  | .ldrWSO r b ofs => Sys2Proof.Machine.execLdrWSO r b ofs s
  | .ldrWSX r b a => Sys2Proof.Machine.execLdrWSX r b a s
  | .ldrDO r b ofs => Sys2Proof.Machine.execLdrDO r b ofs s
  | .ldrDX r b a => Sys2Proof.Machine.execLdrDX r b a s
  | .ldrDSO r b ofs => Sys2Proof.Machine.execLdrDSO r b ofs s
  | .ldrDSX r b a => Sys2Proof.Machine.execLdrDSX r b a s
  | .stcBO r b ofs => Sys2Proof.Machine.execStcBO r b ofs s
  | .stcBX r b a => Sys2Proof.Machine.execStcBX r b a s
  | .stcHO r b ofs => Sys2Proof.Machine.execStcHO r b ofs s
  | .stcHX r b a => Sys2Proof.Machine.execStcHX r b a s
  | .stcWO r b ofs => Sys2Proof.Machine.execStcWO r b ofs s
  | .stcWX r b a => Sys2Proof.Machine.execStcWX r b a s
  | .stcDO r b ofs => Sys2Proof.Machine.execStcDO r b ofs s
  | .stcDX r b a => Sys2Proof.Machine.execStcDX r b a s
  | .b r disp => Sys2Proof.Machine.execB r disp s
  | .br r b => Sys2Proof.Machine.execBr r b s
  | .bv r b a => Sys2Proof.Machine.execBv r b a s
  | .bbF r pos disp => Sys2Proof.Machine.execBbF r pos disp s
  | .bbT r pos disp => Sys2Proof.Machine.execBbT r pos disp s
  | .bbFShamt r disp => Sys2Proof.Machine.execBbFShamt r disp s
  | .bbTShamt r disp => Sys2Proof.Machine.execBbTShamt r disp s
  | .cbrEq r b disp => Sys2Proof.Machine.execCbrEq r b disp s
  | .cbrNe r b disp => Sys2Proof.Machine.execCbrNe r b disp s
  | .cbrLt r b disp => Sys2Proof.Machine.execCbrLt r b disp s
  | .cbrLe r b disp => Sys2Proof.Machine.execCbrLe r b disp s
  | .cbrGt r b disp => Sys2Proof.Machine.execCbrGt r b disp s
  | .cbrGe r b disp => Sys2Proof.Machine.execCbrGe r b disp s
  | .cbrLtu r b disp => Sys2Proof.Machine.execCbrLtu r b disp s
  | .cbrGeu r b disp => Sys2Proof.Machine.execCbrGeu r b disp s
  | .mbr b => Sys2Proof.Machine.execMbr b s
  | .mfcr r n => Sys2Proof.Machine.execMfcr r n s
  | .mtcr n r => Sys2Proof.Machine.execMtcr n r s
  | .lpa r b => Sys2Proof.Machine.execLpa r b s
  | .prbR r b => Sys2Proof.Machine.execPrbR r b s
  | .prbW r b => Sys2Proof.Machine.execPrbW r b s
  | .prbX r b => Sys2Proof.Machine.execPrbX r b s
  | .tlbIns r b a => Sys2Proof.Machine.execTlbIns r b a s
  | .tlbPrg b => Sys2Proof.Machine.execTlbPrg b s
  | .ca => Sys2Proof.Machine.execCa s
  | .rsm r mask => Sys2Proof.Machine.execRsm r mask s
  | .ssm r mask => Sys2Proof.Machine.execSsm r mask s
  | .rfi n => Sys2Proof.Machine.execRfi n s
  | .trap code => Sys2Proof.Machine.execTrap code s
  | .halt => Sys2Proof.Machine.execHalt s

end Sys2Proof.Machine
end

