-- ==== Sys2Proof/Machine/Fetch.lean ====
section
/-!
DEFINITION. The fetch of one instruction and the cycle around its execution (30_encoding.md R81), and the placing of
an instruction's bytes where the next fetch reads them.
-/

namespace Sys2Proof.Machine

/-- The fetch: 4 bytes at `zext_32(psw.IA)`, kind Execute. It answers the word and the state with IR written, or the
trap and the state with IR as it was (30_encoding.md R81; 10_state.md R17, R26). -/
def fetch (s : State) : Except TrapCode InstrWord × State :=
  match translate s (s.psw.ia.setWidth 64) 4 .execute with
  | (.trap c, s1) => (.error c, s1)
  | (.ok sp pa, s1) =>
    let (v, s2) := regionRead s1 sp pa 4
    (.ok (v.setWidth 32), { s2 with ir := v.setWidth 32 })

/-- One cycle of a RUNNING core (30_encoding.md R81): fetch, decode, execute; a fetch trap ends it before execute, and
a word that is no instruction raises IllegalInstruction (R75, R82). The retire is the meanings' own. -/
def cycle (s : State) : Result :=
  match fetch s with
  | (.error c, s1) => .next (s1.raiseFetch c)
  | (.ok w, s1) =>
    match decode w with
    | .ok i => exec i s1
    | .error _ => .next s1.raiseIllegal

/-- A memory with the four bytes of a word at an address, low byte first (30_encoding.md R65). -/
def Memory.writeWord (m : Memory) (a : Nat) (w : InstrWord) : Memory :=
  m.writeBytes a 4 (w.setWidth 64)

/-- The state with the word `w` where the next fetch reads it, the run state RUNNING; unchanged but for the run state
where the fetch would trap. It stands for the host's loadImage (20_memory.md R64; log 9). -/
def State.placeWord (s : State) (w : InstrWord) : State :=
  match (translate s (s.psw.ia.setWidth 64) 4 .execute).1 with
  | .ok _ pa => { s with mem := s.mem.writeWord pa.toNat w, run := .running }
  | .trap _ => { s with run := .running }

end Sys2Proof.Machine
end

