-- ==== Sys2Proof/Machine/Step.lean ====
section
/-!
DEFINITION. One step of the machine: the host's `step(1)` (70_reset_and_hazards.md R162).
-/

namespace Sys2Proof.Machine

/-- One step: a RUNNING core performs one cycle; a TRAPPED or HALTED core executes nothing and its state is unchanged
(70_reset_and_hazards.md R159, R162; log 5). -/
def step (s : State) : Host.Outcome State Fault Refusal :=
  match s.run with
  | .running => cycle s
  | .trapped => .next s
  | .halted => .next s

/-- `s` with the instruction whose bits are `w` (the bits above `nbits` zero) stored where `step` fetches next. -/
def State.withFetchWord (s : State) (nbits w : Nat) : State :=
  s.placeWord (BitVec.ofNat 32 (w % 2 ^ nbits))

end Sys2Proof.Machine
end

