-- ==== Sys2Proof/Machine/HostOps.lean ====
section
/-!
DEFINITION. The host operations of 70_reset_and_hazards.md R160 but step and run (HostRun.lean). Each runs between
cycles; a call the spec refuses is refused by name and changes nothing (R159).
-/

namespace Sys2Proof.Machine

/-! ### Reset and the run state -/

/-- `reset()`, from any run state: every piece of core state at the value of 10_state.md R34; the parameters, memory
and what a device holds stay (70_reset_and_hazards.md R156; 20_memory.md R55). -/
def hostReset (s : State) : State :=
  { State.reset with
    params := s.params
    tlb := s.tlb.map (fun _ => TlbEntry.empty)
    mem := s.mem
    ioHistory := s.ioHistory }

/-- `resume()`: TRAPPED to RUNNING, the record cleared (70_reset_and_hazards.md R160). -/
def hostResume (s : State) : Result :=
  if s.run = .trapped then .next s.clearTrap else .refused .hostCallNotTrapped

/-- `halt()`: TRAPPED to HALTED, the record kept (70_reset_and_hazards.md R160). -/
def hostHalt (s : State) : Result :=
  if s.run = .trapped then .next { s with run := .halted } else .refused .hostCallNotTrapped

/-- `lastTrap()` (70_reset_and_hazards.md R160). -/
def hostLastTrap (s : State) : TrapRecord :=
  s.lastTrap

/-! ### Registers -/

/-- `getGeneralReg(i)` (70_reset_and_hazards.md R160; 10_state.md R14). -/
def hostGetGeneralReg (s : State) (i : Nat) : Host.Outcome Word Fault Refusal :=
  if h : i < 16 then .next (s.readGr ⟨i, h⟩) else .refused .hostRegisterIndex

/-- `setGeneralReg(i, v)`; no effect for GR0 (70_reset_and_hazards.md R160). -/
def hostSetGeneralReg (s : State) (i : Nat) (v : Word) : Result :=
  if h : i < 16 then .next (s.writeGr ⟨i, h⟩ v) else .refused .hostRegisterIndex

/-- A host's control-register id as a recognized slot (70_reset_and_hazards.md R160). -/
def hostCrSlot (id : Nat) : Option CrSlot :=
  if h : id < 16 then
    if CrSlot.recognized ⟨id, h⟩ then some ⟨id, h⟩ else none
  else none

/-- `getControlReg(id)` (70_reset_and_hazards.md R160; 10_state.md R24). -/
def hostGetControlReg (s : State) (id : Nat) : Host.Outcome Word Fault Refusal :=
  match (hostCrSlot id).bind s.readCr with
  | some v => .next v
  | none => .refused .hostControlRegisterId

/-- `setControlReg(id, v)` (70_reset_and_hazards.md R160; 10_state.md R24). -/
def hostSetControlReg (s : State) (id : Nat) (v : Word) : Result :=
  match hostCrSlot id with
  | some n => .next (s.writeCr n v)
  | none => .refused .hostControlRegisterId

/-- `getPsw()` (70_reset_and_hazards.md R160). -/
def hostGetPsw (s : State) : Word :=
  s.psw.toWord

/-- `setPsw(v)`, bits 63:35 cleared (70_reset_and_hazards.md R160; 10_state.md R21). -/
def hostSetPsw (s : State) (v : Word) : State :=
  s.restorePsw v

/-- `getIr()` (70_reset_and_hazards.md R160). -/
def hostGetIr (s : State) : InstrWord :=
  s.ir

/-- The read of the reservation register: "The host can read it" (10_state.md R27). It changes nothing. -/
def hostGetReservation (s : State) : Reservation :=
  s.res

/-! ### The TLB -/

/-- What `getTlbEntry` returns of an entry: its five fields, without the recency stamp (70_reset_and_hazards.md
R160). -/
structure TlbEntryReply where
  valid : Bool
  accessId : BitVec 8
  protectId : BitVec 32
  virtualAddress : Word
  physicalAddress : Word
  deriving DecidableEq, Repr

/-- The five fields of an entry (70_reset_and_hazards.md R160; 10_state.md R28). -/
def TlbEntry.reply (e : TlbEntry) : TlbEntryReply :=
  { valid := e.valid, accessId := e.accessId, protectId := e.protectId, virtualAddress := e.virtualAddress,
    physicalAddress := e.physicalAddress }

/-- `getTlbEntry(k)`: no recency stamp changes (70_reset_and_hazards.md R160). -/
def hostGetTlbEntry (s : State) (k : Nat) : Host.Outcome TlbEntryReply Fault Refusal :=
  match s.tlb[k]? with
  | some e => .next e.reply
  | none => .refused .hostTlbIndex

/-- `tlbInsert(va, pa, accessId, protectId)` (70_reset_and_hazards.md R160; 20_memory.md R53). -/
def hostTlbInsert (s : State) (va pa : Word) (accessId : BitVec 8) (protectId : BitVec 32) : Result :=
  tlbInsert s va pa accessId protectId

/-- `tlbPurge(va)` (70_reset_and_hazards.md R160; 20_memory.md R54). -/
def hostTlbPurge (s : State) (va : Word) : State :=
  s.purgeTlb va

/-! ### Memory -/

/-- How many of the n bytes at a physical address lie below the I/O window: the bytes from 0xF0000000 on are the I/O
region's (20_memory.md R37, R38, R39). -/
def bytesBelowWindow (pa : Word) (n : Nat) : Nat :=
  min n (Config.ioMemStart - pa.toNat)

/-- All of the n bytes at a physical address are backed, each in its region (70_reset_and_hazards.md R160; 20_memory.md
R36, R37, R39). -/
def hostBacked (s : State) (pa : Word) (n : Nat) : Bool :=
  (bytesBelowWindow pa n == 0 || decide (pa.toNat + bytesBelowWindow pa n ≤ s.params.physMemSize)) &&
    (bytesBelowWindow pa n == n || decide (pa.toNat + n ≤ Config.ioMemStart + s.params.ioMemSize))

/-- The n bytes at a physical address, little-endian: those below the window from physical memory, those in it by one
read of IO_DEVICE (70_reset_and_hazards.md R160). DESIGN CHOICE (log 10): the two parts of an access
that spans 0xF0000000. -/
def hostRead (s : State) (pa : Word) (n : Nat) : Word × State :=
  let k := bytesBelowWindow pa n
  if k = n then regionRead s .phys pa n
  else
    let (high, s1) := regionRead s .io (pa + BitVec.ofNat 64 k) (n - k)
    ((regionRead s .phys pa k).1 ||| high <<< (8 * k), s1)

/-- The low n bytes of v to a physical address, little-endian: a RegionWrite of each region the bytes lie in
(70_reset_and_hazards.md R160). DESIGN CHOICE (log 10): the two parts of an access
that spans 0xF0000000. -/
def State.hostWrite (s : State) (pa : Word) (n : Nat) (v : Word) : State :=
  let k := bytesBelowWindow pa n
  if k = n then s.regionWrite .phys pa n v
  else (s.regionWrite .phys pa k v).regionWrite .io (pa + BitVec.ofNat 64 k) (n - k) (v >>> (8 * k))

/-- The lengths of a host access (70_reset_and_hazards.md R160). -/
def hostLengthOk (n : Nat) : Bool :=
  n == 1 || n == 2 || n == 4 || n == 8

/-- `readMem(pa, n)`: the value, and the state; no translation, protection or alignment check (70_reset_and_hazards.md
R160). DESIGN CHOICE (log 15): of the two ways R161 allows where the device has side effects, a read of the I/O window
is routed through the device, which may change it, and is not refused; 20_memory.md R64 asks that it trigger none. -/
def hostReadMem (s : State) (pa : Word) (n : Nat) : Host.Outcome (Word × State) Fault Refusal :=
  if hostLengthOk n then
    if hostBacked s pa n then .next (hostRead s pa n) else .refused .hostUnbackedBytes
  else .refused .hostAccessLength

/-- `writeMem(pa, v, n)`, which obeys the reservation rule (70_reset_and_hazards.md R160; 20_memory.md R64). -/
def hostWriteMem (s : State) (pa v : Word) (n : Nat) : Result :=
  if hostLengthOk n then
    if hostBacked s pa n then .next (s.hostWrite pa n v) else .refused .hostUnbackedBytes
  else .refused .hostAccessLength

/-- The bytes of an image, as repeated 1-byte writes of physical memory (70_reset_and_hazards.md R160). -/
def writeImage (s : State) (pa : Word) : List Byte → State
  | [] => s
  | v :: bytes => writeImage (s.regionWrite .phys pa 1 (v.setWidth 64)) (pa + 1) bytes

/-- `loadImage(pa, bytes)` (70_reset_and_hazards.md R160; 20_memory.md R64). -/
def hostLoadImage (s : State) (pa : Word) (bytes : List Byte) : Result :=
  if bytes.isEmpty || decide (pa.toNat + bytes.length ≤ s.params.physMemSize) then .next (writeImage s pa bytes)
  else .refused .hostUnbackedBytes

end Sys2Proof.Machine
end

