-- ==== Sys2Proof/Machine/HostRun.lean ====
section
/-!
DEFINITION. The host operations `step(n)` and `run(budget)` (70_reset_and_hazards.md R162, R163).
-/

namespace Sys2Proof.Machine

/-- What step and run return: the instructions retired and the trap record, with the state they leave
(70_reset_and_hazards.md R160, R162). -/
structure RunReply where
  retired : Nat
  trap : TrapRecord
  state : State
  deriving DecidableEq, Repr

/-- The loop of `step(n)` with `k` instructions retired so far: a trapping cycle does not retire, HALT does
(70_reset_and_hazards.md R162). -/
def stepLoop : Nat → Nat → State → Host.Outcome RunReply Fault Refusal
  | 0, k, s => .next { retired := k, trap := s.lastTrap, state := s }
  | n + 1, k, s =>
    if s.run = .running then
      match cycle s with
      | .next t => stepLoop n (if t.run = .trapped then k else k + 1) t
      | .fault e => .fault e
      | .refused e => .refused e
    else .next { retired := k, trap := s.lastTrap, state := s }

/-- `step(n)` (70_reset_and_hazards.md R162). -/
def hostStep (s : State) (n : Nat) : Host.Outcome RunReply Fault Refusal :=
  stepLoop n 0 s

/-- `run(budget)` is `step(budget)` (70_reset_and_hazards.md R163). -/
def hostRun (s : State) (budget : Nat) : Host.Outcome RunReply Fault Refusal :=
  hostStep s budget

end Sys2Proof.Machine
end

