-- ==== Sys2Proof/Safety.lean ====
section
/-!
DEFINITION. What counts as a good state and a good end of a run, and the words the statements use: the fields of a
word, the effects of an access and the frames of an instruction, written from the rules of spec/ and not from the
meanings.
-/

namespace Sys2Proof.Machine

/-! ### Good states -/

/-- No two valid entries have the same page (10_state.md R29). -/
abbrev OneEntryPerPage (tlb : List TlbEntry) : Prop :=
  tlb.Pairwise fun d e => ¬ (d.valid = true ∧ e.valid = true ∧ d.virtualAddress = e.virtualAddress)

/-- No two valid entries have the same recency stamp: "the entry with the smallest stamp" is one (20_memory.md R53). -/
abbrev StampsDistinct (tlb : List TlbEntry) : Prop :=
  tlb.Pairwise fun d e => ¬ (d.valid = true ∧ e.valid = true ∧ d.stamp = e.stamp)

/-- A stored address is page-aligned, bits 13:0 are 0 (10_state.md R28). -/
abbrev PageAligned (a : Word) : Prop :=
  a.toNat % 16384 = 0

/-- The n bytes at `a` lie in the backed part of a region (20_memory.md R36, R37, R39). -/
abbrev Backed (p : Params) (sp : Space) (a n : Nat) : Prop :=
  (sp = .phys ∧ a + n ≤ p.physMemSize) ∨ (sp = .io ∧ 0xF0000000 ≤ a ∧ a + n ≤ 0xF0000000 + p.ioMemSize)

/-- A valid reservation is of 1, 2, 4 or 8 aligned bytes of its region (10_state.md R27; 20_memory.md R41, R42). -/
abbrev Reservation.Ok (p : Params) (q : Reservation) : Prop :=
  q.valid = true →
    (q.len = 1 ∨ q.len = 2 ∨ q.len = 4 ∨ q.len = 8) ∧ q.pa.toNat % q.len = 0 ∧ Backed p q.space q.pa.toNat q.len

/-- The states of a machine of the spec: what 10_state.md and 20_memory.md say holds at any time between cycles. -/
structure State.Inv (s : State) : Prop where
  /-- The parameters are allowed ones (00_scope.md R6; 20_memory.md R38). -/
  params : s.params.Ok
  /-- GR0 is zero (10_state.md R13). -/
  zero : s.gr[0] = 0
  /-- Memory is in canonical form (log 2). -/
  memory : s.mem.wf
  /-- Every byte written lies in a backed region (20_memory.md R36, R37). -/
  backed : ∀ c ∈ s.mem, Backed s.params .phys c.1 1 ∨ Backed s.params .io c.1 1
  /-- TLB_ENTRIES is at least 1 (10_state.md R28). -/
  slots : 0 < s.tlb.length
  /-- Stored addresses are page-aligned (10_state.md R28). -/
  pages : ∀ e ∈ s.tlb, PageAligned e.virtualAddress ∧ PageAligned e.physicalAddress
  /-- The TLB invariant (10_state.md R29). -/
  unique : OneEntryPerPage s.tlb
  /-- A stamp is a value tlbTick has had (20_memory.md R44, R53). -/
  stamps : ∀ e ∈ s.tlb, e.stamp ≤ s.tlbTick
  /-- Recency orders the valid entries (20_memory.md R53). -/
  recency : StampsDistinct s.tlb
  /-- A RUNNING core has no trap recorded (10_state.md R30, R31). -/
  runningClear : s.run = .running → s.lastTrap = TrapRecord.none
  /-- A TRAPPED core has one (60_exceptions.md R140). -/
  trappedSet : s.run = .trapped → s.lastTrap.code ≠ .noTrap
  /-- The reservation register (10_state.md R27). -/
  reservation : s.res.Ok s.params

/-! ### The end of a run (70_reset_and_hazards.md R164) -/

/-- The normal end: HALT retired and no trap recorded. -/
def State.EndedNormally (s : State) : Prop :=
  s.run = .halted ∧ s.lastTrap = TrapRecord.none

/-- The abnormal end: the trap record says why. -/
def State.EndedAbnormally (s : State) : Prop :=
  s.run = .trapped

/-! ### The fields of an instruction word (30_encoding.md R66) -/

/-- `w[lo + len - 1 : lo]`, an unsigned number. -/
def wordBits (w : InstrWord) (lo len : Nat) : Nat :=
  w.toNat / 2 ^ lo % 2 ^ len

/-- The word is of group `g` and family `f`. -/
abbrev InFamily (w : InstrWord) (g f : Nat) : Prop :=
  wordBits w 30 2 = g ∧ wordBits w 26 4 = f

/-- The qualifier, w[21:19]. -/
abbrev qualifier (w : InstrWord) : Nat :=
  wordBits w 19 3

/-- The 4-bit number at bit `lo`: R at 22, B at 15, A at 9. -/
def regAt (w : InstrWord) (lo : Nat) : Fin 16 :=
  Fin.ofNat 16 (wordBits w lo 4)

/-- The k-bit field at bit `lo`: an immediate at 0, pos6 at 7, bpos6 at 13. -/
def fieldAt (w : InstrWord) (lo k : Nat) : BitVec k :=
  BitVec.ofNat k (wordBits w lo k)

/-- The two's-complement number of a k-bit value (30_encoding.md R68). -/
def signedField (v k : Nat) : Int :=
  if v < 2 ^ (k - 1) then v else v - 2 ^ k

/-- The qualifiers a family assigns (30_encoding.md R71, R72, R73, R74); false of every unassigned family. -/
def Assigned (g f q : Nat) : Prop :=
  (g = 0 ∧ (f = 0 ∨ f = 6 ∨ f = 9)) ∨
  (g = 0 ∧ (f = 1 ∨ f = 2 ∨ f = 3 ∨ f = 4 ∨ f = 5 ∨ f = 10) ∧ q = 0) ∨
  (g = 0 ∧ (f = 7 ∨ f = 8) ∧ q ≤ 2) ∨
  (g = 1 ∧ (f = 8 ∨ f = 10)) ∨
  (g = 1 ∧ (f = 9 ∨ f = 11) ∧ q % 2 = 0) ∨
  (g = 2 ∧ (f = 1 ∨ f = 2 ∨ f = 3 ∨ f = 6) ∧ q = 0) ∨
  (g = 2 ∧ f = 4 ∧ q ≤ 3) ∨
  (g = 2 ∧ f = 5) ∨
  (g = 3 ∧ (f = 1 ∨ f = 4 ∨ f = 6) ∧ q ≤ 1) ∨
  (g = 3 ∧ (f = 2 ∨ f = 7 ∨ f = 8 ∨ f = 9) ∧ q = 0) ∨
  (g = 3 ∧ f = 3 ∧ q ≤ 2) ∨
  (g = 3 ∧ f = 5)

/-- The reserved control-register ids (10_state.md R24). -/
def ReservedCr (n : Nat) : Prop :=
  n = 2 ∨ n = 3 ∨ (9 ≤ n ∧ n ≤ 15)

/-- An MR or RFI word (G = 3, F = 1 or 7) that names a reserved id in B (30_encoding.md R75). -/
def NamesReservedCr (w : InstrWord) : Prop :=
  (InFamily w 3 1 ∨ InFamily w 3 7) ∧ ReservedCr (wordBits w 15 4)

/-- A legal word: none of the three grounds of IllegalInstruction (30_encoding.md R75). -/
def LegalWord (w : InstrWord) : Prop :=
  Assigned (wordBits w 30 2) (wordBits w 26 4) (qualifier w) ∧ ¬ NamesReservedCr w

/-! ### Traps (60_exceptions.md R140, R142) -/

/-- `s` with a trap recorded and nothing else changed. -/
def State.trappedWith (s : State) (c : TrapCode) (info1 info2 info3 : BitVec 32) : State :=
  { s with lastTrap := { code := c, info1 := info1, info2 := info2, info3 := info3 }, run := .trapped }

/-- A core that fetches this word takes IllegalInstruction(w, IA, 0) and, beyond the fetch, changes nothing else
(30_encoding.md R75; 60_exceptions.md R141). -/
def RaisesIllegal (w : InstrWord) : Prop :=
  ∀ s s1 : State, s.run = .running → fetch s = (.ok w, s1) →
    step s = .next (s1.trappedWith .illegalInstruction w s.psw.ia 0)

/-! ### Frames -/

/-- `t` is `s` after an instruction that writes `v` to `x[r]` (nothing where r is 0), sets PSW.IA to `ia` and changes
nothing else (10_state.md R13, R14, R15; 30_encoding.md R81). -/
structure RegisterResult (s t : State) (r : Reg) (v : Word) (ia : InstrAddr) : Prop where
  gr : ∀ j, t.readGr j = if j = r ∧ r ≠ 0 then v else s.readGr j
  address : t.psw.ia = ia
  user : t.psw.user = s.psw.user
  translate : t.psw.translate = s.psw.translate
  overflow : t.psw.overflow = s.psw.overflow
  cr : t.cr = s.cr
  ir : t.ir = s.ir
  reservation : t.res = s.res
  tlb : t.tlb = s.tlb
  tick : t.tlbTick = s.tlbTick
  trap : t.lastTrap = s.lastTrap
  run : t.run = s.run
  memory : ∀ a, t.mem.read a = s.mem.read a
  device : t.ioHistory = s.ioHistory
  params : t.params = s.params

/-- The instruction completes: `x[r] <- v`, then IA + 4, and nothing else. -/
def Completes (res : Result) (s : State) (r : Reg) (v : Word) : Prop :=
  ∃ t, res = .next t ∧ RegisterResult s t r v (s.psw.ia + 4)

/-- The instruction completes at a branch target: `x[r] <- v`, then IA is `ia`, and nothing else. -/
def CompletesAt (res : Result) (s : State) (r : Reg) (v : Word) (ia : InstrAddr) : Prop :=
  ∃ t, res = .next t ∧ RegisterResult s t r v ia

/-! ### Arithmetic of 00_scope.md R8 -/

/-- An integer stored into a 64-bit register, modulo 2^64. -/
abbrev wordOf (v : Int) : Word :=
  BitVec.ofInt 64 v

/-- The condition of CMP and CBR with qualifier q, of the signed and unsigned readings (40_alu.md R94). -/
def CondTrue (q : Nat) (x y : Word) : Prop :=
  match q with
  | 0 => x = y
  | 1 => x ≠ y
  | 2 => x.toInt < y.toInt
  | 3 => x.toInt ≤ y.toInt
  | 4 => x.toInt > y.toInt
  | 5 => x.toInt ≥ y.toInt
  | 6 => x.toNat < y.toNat
  | 7 => x.toNat ≥ y.toNat
  | _ => False

/-! ### Translation and memory (20_memory.md R43-R49) -/

/-- 0xF0000000 <= a <= 0xFFFFFFFF, the I/O window. -/
abbrev InWindow (a : Word) : Prop :=
  0xF0000000 ≤ a.toNat ∧ a.toNat ≤ 0xFFFFFFFF

/-- The address goes through the TLB (10_state.md R19). -/
abbrev Translated (s : State) (va : Word) : Prop :=
  ¬ InWindow va ∧ s.psw.translate = true

/-- A valid entry for the page of `va`, `va - (va mod 16384)` (20_memory.md R44). -/
abbrev EntryFor (e : TlbEntry) (va : Word) : Prop :=
  e.valid = true ∧ e.virtualAddress.toNat = va.toNat - va.toNat % 16384

/-- The right an access needs in accessId (20_memory.md R45 (2)). -/
def HasRight (e : TlbEntry) (kind : AccessKind) : Prop :=
  match kind with
  | .read => e.accessId.getLsbD 0 = true
  | .write => e.accessId.getLsbD 1 = true
  | .execute => e.accessId.getLsbD 2 = true

/-- The three conditions of `Permitted` (20_memory.md R45). -/
def Permits (s : State) (e : TlbEntry) (kind : AccessKind) : Prop :=
  (s.psw.user = false ∨ e.accessId.getLsbD 3 = true) ∧ HasRight e kind ∧
  (e.protectId.toNat = 0 ∨
    ∃ pid ∈ [s.cr.pid0, s.cr.pid1, s.cr.pid2, s.cr.pid3], e.protectId.toNat = pid.toNat % 2 ^ 32)

/-- The physical address `Translate` reaches, if no check before the bounds check fails (20_memory.md R43). -/
def ReachesPhysical (s : State) (va : Word) (n : Nat) (kind : AccessKind) (pa : Word) : Prop :=
  va.toNat % n = 0 ∧
  ((¬ Translated s va ∧ pa = va) ∨
    (Translated s va ∧ ∃ e ∈ s.tlb, EntryFor e va ∧ Permits s e kind ∧
      pa = e.physicalAddress + BitVec.ofNat 64 (va.toNat % 16384)))

/-- What `Translate(va, n, kind)` answers, check by check in the order of 20_memory.md R43. -/
inductive TranslateSays (s : State) (va : Word) (n : Nat) (kind : AccessKind) : Translation → Prop where
  | alignment : va.toNat % n ≠ 0 → TranslateSays s va n kind (.trap .alignment)
  | tlbAccess : va.toNat % n = 0 → Translated s va → (∀ e ∈ s.tlb, ¬ EntryFor e va) →
      TranslateSays s va n kind (.trap .tlbAccess)
  | protection (e : TlbEntry) : va.toNat % n = 0 → Translated s va → e ∈ s.tlb → EntryFor e va →
      ¬ Permits s e kind → TranslateSays s va n kind (.trap .protection)
  | ioMemoryAddress (pa : Word) : ReachesPhysical s va n kind pa → InWindow pa →
      pa.toNat + n > 0xF0000000 + s.params.ioMemSize → TranslateSays s va n kind (.trap .ioMemoryAddress)
  | io (pa : Word) : ReachesPhysical s va n kind pa → InWindow pa →
      pa.toNat + n ≤ 0xF0000000 + s.params.ioMemSize → TranslateSays s va n kind (.ok .io pa)
  | physicalMemoryAddress (pa : Word) : ReachesPhysical s va n kind pa → ¬ InWindow pa →
      pa.toNat + n > s.params.physMemSize → TranslateSays s va n kind (.trap .physicalMemoryAddress)
  | phys (pa : Word) : ReachesPhysical s va n kind pa → ¬ InWindow pa →
      pa.toNat + n ≤ s.params.physMemSize → TranslateSays s va n kind (.ok .phys pa)

/-- A page's entry with a new recency stamp, every other entry as it is (20_memory.md R44). -/
def stampPage (tlb : List TlbEntry) (va : Word) (stamp : Nat) : List TlbEntry :=
  tlb.map fun e => if EntryFor e va then { e with stamp := stamp } else e

/-- `s` with the recency update of a hit of `va`: the page's entry gets the new tlbTick as its stamp; a miss changes
nothing (20_memory.md R44). -/
def State.touchedBy (s : State) (va : Word) : State :=
  if ∃ e ∈ s.tlb, EntryFor e va then
    { s with tlbTick := s.tlbTick + 1, tlb := stampPage s.tlb va (s.tlbTick + 1) }
  else s

/-- `s` after the TLB lookup, if any, of an access of n bytes at `va` (20_memory.md R43, R44). -/
def State.afterAccess (s : State) (va : Word) (n : Nat) : State :=
  if va.toNat % n = 0 ∧ Translated s va then s.touchedBy va else s

/-- The little-endian number of n bytes, `f 0` the lowest (20_memory.md R40, R47). -/
def littleEndian (f : Nat → Byte) : Nat → Nat
  | 0 => 0
  | n + 1 => littleEndian f n + 256 ^ n * (f n).toNat

/-- The value `RegionRead(sp, pa, n)` gives: memory's bytes, or the attached device's choice (20_memory.md R47, R52). -/
def regionValue (s : State) (sp : Space) (pa : Word) (n : Nat) : Nat :=
  if sp = .io ∧ s.params.ioDevice = .attached then (Config.ioDeviceRead s.ioHistory pa.toNat n).toNat % 2 ^ (8 * n)
  else littleEndian (fun i => s.mem.read (pa.toNat + i)) n

/-- The device accesses after `RegionRead(sp, pa, n)` (20_memory.md R52; log 4). -/
def historyAfterRead (s : State) (sp : Space) (pa : Word) (n : Nat) : List IoEvent :=
  if sp = .io ∧ s.params.ioDevice = .attached then .read pa.toNat n :: s.ioHistory else s.ioHistory

/-- `sext_{8n}(v)` where asked for and n < 8, else `zext_{8n}(v)`, of a value below 2^(8n) (20_memory.md R49). -/
def extended (v n : Nat) (sx : Bool) : Word :=
  if sx = true ∧ n < 8 ∧ 2 ^ (8 * n - 1) ≤ v then wordOf ((v : Int) - 2 ^ (8 * n)) else wordOf v

/-- Memory and the device after `RegionWrite(sp, pa, n, v)`: the n bytes at `pa` hold v little-endian and every other
byte is as it was; or the attached device gets one write (20_memory.md R48). -/
def RegionWritten (s t : State) (sp : Space) (pa : Word) (n : Nat) (v : Word) : Prop :=
  if sp = .io ∧ s.params.ioDevice = .attached then
    (∀ a, t.mem.read a = s.mem.read a) ∧ t.ioHistory = .write pa.toNat n (v.toNat % 2 ^ (8 * n)) :: s.ioHistory
  else
    (∀ i < n, t.mem.read (pa.toNat + i) = v.extractLsb' (8 * i) 8) ∧
    (∀ a, a < pa.toNat ∨ pa.toNat + n ≤ a → t.mem.read a = s.mem.read a) ∧ t.ioHistory = s.ioHistory

/-- The n bytes at `pa` of a region hold a reserved byte (20_memory.md R60 (a)). -/
def Reservation.Touched (q : Reservation) (sp : Space) (pa : Word) (n : Nat) : Prop :=
  q.space = sp ∧ ∃ a, pa.toNat ≤ a ∧ a < pa.toNat + n ∧ q.pa.toNat ≤ a ∧ a < q.pa.toNat + q.len

/-- The reservation `q` before, `q'` after a write: invalid if it touches a reserved byte, else as it was. -/
def Reservation.AfterWrite (q q' : Reservation) (sp : Space) (pa : Word) (n : Nat) : Prop :=
  (q.Touched sp pa n → q' = { q with valid := false }) ∧ (¬ q.Touched sp pa n → q' = q)

/-- The region a physical address belongs to: the I/O window begins at 0xF0000000 and physical memory ends there at the
latest (20_memory.md R37, R38). -/
def spaceOf (a : Nat) : Space :=
  if a < 0xF0000000 then .phys else .io

/-- One of the n bytes at a physical address is a reserved byte: the same address in the same region (20_memory.md R60
(a), of a host write, which gives no region). -/
def Reservation.HostTouched (q : Reservation) (pa : Word) (n : Nat) : Prop :=
  ∃ a, pa.toNat ≤ a ∧ a < pa.toNat + n ∧ q.pa.toNat ≤ a ∧ a < q.pa.toNat + q.len ∧ q.space = spaceOf a

/-- The part of the state that a MEM instruction leaves as it is beside its registers, memory, the device and the
reservation: IA advances by 4, the TLB has the recency update of the access, and nothing else changes
(41_mem.md R109; 20_memory.md R44). -/
structure AccessFrame (s t : State) (r : Reg) (v : Word) (ea : Word) (n : Nat) : Prop where
  gr : ∀ j, t.readGr j = if j = r ∧ r ≠ 0 then v else s.readGr j
  psw : t.psw = { s.psw with ia := s.psw.ia + 4 }
  cr : t.cr = s.cr
  ir : t.ir = s.ir
  tlb : t.tlb = (s.afterAccess ea n).tlb
  tick : t.tlbTick = (s.afterAccess ea n).tlbTick
  trap : t.lastTrap = s.lastTrap
  run : t.run = s.run
  params : t.params = s.params

/-! ### The instruction forms by qualifier -/

/-- A word of an ALU family and qualifier decodes to its register form where w[14] = 0, to its immediate form where
w[14] = 1 (30_encoding.md R70, R71; 40_alu.md R85). -/
def AluEncoding (f q : Nat) (reg : Reg → Reg → Reg → Instr) (imm : Reg → Reg → BitVec 13 → Instr) : Prop :=
  ∀ w, InFamily w 0 f → qualifier w = q →
    decode w = .ok (if w.getLsbD 14 then imm (regAt w 22) (regAt w 15) (fieldAt w 0 13)
      else reg (regAt w 22) (regAt w 15) (regAt w 9))

/-- Every qualifier the family does not assign raises IllegalInstruction (30_encoding.md R75, R76). -/
def OtherQualifiersIllegal (g f : Nat) : Prop :=
  ∀ w, InFamily w g f → ¬ Assigned g f (qualifier w) → RaisesIllegal w

/-- An ALU instruction of a register and an immediate form, with its second operand: x[A], or sext_13(w[12:0])
(40_alu.md R85). -/
inductive AluForm (s : State) (reg : Reg → Reg → Reg → Instr) (imm : Reg → Reg → BitVec 13 → Instr) (r b : Reg) :
    Word → Instr → Prop where
  | register (a : Reg) : AluForm s reg imm r b (s.readGr a) (reg r b a)
  | immediate (k : BitVec 13) : AluForm s reg imm r b (wordOf k.toInt) (imm r b k)

/-- The amount or position SHAMT gives, cr[1][5:0] (10_state.md R25). -/
def shamtValue (s : State) : Nat :=
  s.cr.shamt.toNat % 64

/-- A BITOP instruction with its position: pos6, or SHAMT (40_alu.md R95). -/
inductive FieldForm (s : State) (pos : Reg → Reg → BitVec 6 → BitVec 6 → Instr) (shamt : Reg → Reg → BitVec 6 → Instr)
    (r b : Reg) (len : BitVec 6) : Nat → Instr → Prop where
  | immediate (p : BitVec 6) : FieldForm s pos shamt r b len p.toNat (pos r b p len)
  | shamt : FieldForm s pos shamt r b len (shamtValue s) (shamt r b len)

/-- A word of family BITOP decodes by w[13] (30_encoding.md R70, R71; 40_alu.md R95). -/
def FieldEncoding (q : Nat) (pos : Reg → Reg → BitVec 6 → BitVec 6 → Instr)
    (shamt : Reg → Reg → BitVec 6 → Instr) : Prop :=
  ∀ w, InFamily w 0 7 → qualifier w = q →
    decode w = .ok (if w.getLsbD 13 then shamt (regAt w 22) (regAt w 15) (fieldAt w 0 6)
      else pos (regAt w 22) (regAt w 15) (fieldAt w 7 6) (fieldAt w 0 6))

/-- len = min(len6 + 1, 64 - pos) (40_alu.md R95). -/
def clampedLength (pos : Nat) (len : BitVec 6) : Nat :=
  min (len.toNat + 1) (64 - pos)

/-- The field of a Word: bits pos + len - 1 .. pos, an unsigned number (40_alu.md R95). -/
def fieldValue (x : Word) (pos len : Nat) : Nat :=
  x.toNat / 2 ^ pos % 2 ^ len

/-- A SHAOP instruction with its amount: x[A][5:0], sa6, or SHAMT (40_alu.md R99). -/
inductive ShiftForm (s : State) (reg : Reg → Reg → Reg → Instr) (imm : Reg → Reg → BitVec 6 → Instr)
    (shamt : Reg → Reg → Instr) (r b : Reg) : Nat → Instr → Prop where
  | register (a : Reg) : ShiftForm s reg imm shamt r b ((s.readGr a).toNat % 64) (reg r b a)
  | immediate (sa : BitVec 6) : ShiftForm s reg imm shamt r b sa.toNat (imm r b sa)
  | shamt : ShiftForm s reg imm shamt r b (shamtValue s) (shamt r b)

/-- A word of family SHAOP decodes by w[13] and w[14] (30_encoding.md R70, R71; 40_alu.md R99). -/
def ShiftEncoding (q : Nat) (reg : Reg → Reg → Reg → Instr) (imm : Reg → Reg → BitVec 6 → Instr)
    (shamt : Reg → Reg → Instr) : Prop :=
  ∀ w, InFamily w 0 8 → qualifier w = q →
    decode w = .ok (if w.getLsbD 13 then shamt (regAt w 22) (regAt w 15)
      else if w.getLsbD 14 then imm (regAt w 22) (regAt w 15) (fieldAt w 0 6)
      else reg (regAt w 22) (regAt w 15) (regAt w 9))

/-- BB: the bit position, the value that branches, and the instruction (42_branch.md R120). -/
inductive BitBranchForm (s : State) (r : Reg) (disp : BitVec 13) : Nat → Bool → Instr → Prop where
  | falseAt (p : BitVec 6) : BitBranchForm s r disp p.toNat false (.bbF r p disp)
  | trueAt (p : BitVec 6) : BitBranchForm s r disp p.toNat true (.bbT r p disp)
  | falseShamt : BitBranchForm s r disp (shamtValue s) false (.bbFShamt r disp)
  | trueShamt : BitBranchForm s r disp (shamtValue s) true (.bbTShamt r disp)

/-- The link value zext_32((IA + 4) mod 2^32) (42_branch.md R116). -/
def linkOf (s : State) : Word :=
  wordOf ((s.psw.ia.toNat + 4) % 2 ^ 32 : Nat)

/-- An instruction address, modulo 2^32 (42_branch.md R115). -/
def addressOf (v : Int) : InstrAddr :=
  BitVec.ofInt 32 v

/-- The recognized control registers with their contents (10_state.md R23). -/
def controlRegisters (s : State) : List (CrSlot × Word) :=
  [(0, s.cr.cpuInfo), (1, s.cr.shamt), (4, s.cr.pid0), (5, s.cr.pid1), (6, s.cr.pid2), (7, s.cr.pid3), (8, s.cr.iva)]

/-- PRB: kind and instruction (43_sys.md R128). -/
def probeForms : List (Nat × AccessKind × (Reg → Reg → Instr)) :=
  [(0, .read, .prbR), (1, .write, .prbW), (2, .execute, .prbX)]

/-- CMP: qualifier, register form, immediate form (40_alu.md R94). -/
def compareForms : List (Nat × (Reg → Reg → Reg → Instr) × (Reg → Reg → BitVec 13 → Instr)) :=
  [(0, .cmpEqR, .cmpEqI), (1, .cmpNeR, .cmpNeI), (2, .cmpLtR, .cmpLtI), (3, .cmpLeR, .cmpLeI),
   (4, .cmpGtR, .cmpGtI), (5, .cmpGeR, .cmpGeI), (6, .cmpLtuR, .cmpLtuI), (7, .cmpGeuR, .cmpGeuI)]

/-- CBR: qualifier and instruction (42_branch.md R121). -/
def compareBranchForms : List (Nat × (Reg → Reg → BitVec 15 → Instr)) :=
  [(0, .cbrEq), (1, .cbrNe), (2, .cbrLt), (3, .cbrLe), (4, .cbrGt), (5, .cbrGe), (6, .cbrLtu), (7, .cbrGeu)]

/-- A MEM family: qualifier, base + offset form, base + index form (41_mem.md R108). -/
abbrev MemForms := List (Nat × (Reg → Reg → BitVec 13 → Instr) × (Reg → Reg → Reg → Instr))

/-- LD (41_mem.md R110). -/
def loadForms : MemForms :=
  [(0, .ldBO, .ldBX), (1, .ldBSO, .ldBSX), (2, .ldHO, .ldHX), (3, .ldHSO, .ldHSX),
   (4, .ldWO, .ldWX), (5, .ldWSO, .ldWSX), (6, .ldDO, .ldDX), (7, .ldDSO, .ldDSX)]

/-- ST (41_mem.md R111). -/
def storeForms : MemForms :=
  [(0, .stBO, .stBX), (2, .stHO, .stHX), (4, .stWO, .stWX), (6, .stDO, .stDX)]

/-- LDR (41_mem.md R112). -/
def loadReserveForms : MemForms :=
  [(0, .ldrBO, .ldrBX), (1, .ldrBSO, .ldrBSX), (2, .ldrHO, .ldrHX), (3, .ldrHSO, .ldrHSX),
   (4, .ldrWO, .ldrWX), (5, .ldrWSO, .ldrWSX), (6, .ldrDO, .ldrDX), (7, .ldrDSO, .ldrDSX)]

/-- STC (41_mem.md R113). -/
def storeConditionalForms : MemForms :=
  [(0, .stcBO, .stcBX), (2, .stcHO, .stcHX), (4, .stcWO, .stcWX), (6, .stcDO, .stcDX)]

/-- n = 2^Q[21:20] bytes (41_mem.md R108). -/
def accessBytes (q : Nat) : Nat :=
  2 ^ (q / 2)

/-- sx = Q[19] (41_mem.md R108). -/
def signExtends (q : Nat) : Bool :=
  q % 2 == 1

/-- ea = (x[B] + sext_13(w[12:0])) mod 2^64 (41_mem.md R108, w[14] = 0). -/
def offsetAddress (s : State) (b : Reg) (ofs : BitVec 13) : Word :=
  wordOf ((s.readGr b).toNat + ofs.toInt)

/-- ea = (x[B] + x[A]) mod 2^64 (41_mem.md R108, w[14] = 1). -/
def indexAddress (s : State) (b a : Reg) : Word :=
  wordOf ((s.readGr b).toNat + (s.readGr a).toNat)

/-- The instruction a form gives with its operands: base + offset, or base + index, with its effective address. -/
inductive FormAt (s : State) (fo : Reg → Reg → BitVec 13 → Instr) (fx : Reg → Reg → Reg → Instr) (r : Reg) :
    Word → Instr → Prop where
  | offset (b : Reg) (ofs : BitVec 13) : FormAt s fo fx r (offsetAddress s b ofs) (fo r b ofs)
  | index (b a : Reg) : FormAt s fo fx r (indexAddress s b a) (fx r b a)

/-- The instruction is one of a MEM family: length n, sign flag sx, register r, effective address ea. -/
def MemAccess (forms : MemForms) (s : State) (i : Instr) (n : Nat) (sx : Bool) (r : Reg) (ea : Word) : Prop :=
  ∃ p ∈ forms, n = accessBytes p.1 ∧ sx = signExtends p.1 ∧ FormAt s p.2.1 p.2.2 r ea i

/-- A word of a MEM family decodes to the offset form where w[14] = 0, to the index form where w[14] = 1
(30_encoding.md R70, R72; 41_mem.md R108). -/
def MemEncoding (f : Nat) (forms : MemForms) : Prop :=
  ∀ p ∈ forms, ∀ w, InFamily w 1 f → qualifier w = p.1 →
    decode w = .ok (if w.getLsbD 14 then p.2.2 (regAt w 22) (regAt w 15) (regAt w 9)
      else p.2.1 (regAt w 22) (regAt w 15) (fieldAt w 0 13))

/-! ### The TLB (20_memory.md R53, R54) -/

/-- `TlbPurge(va)`: the page's entry gets valid = 0, its other fields stay (20_memory.md R54). -/
def purgedTlb (tlb : List TlbEntry) (va : Word) : List TlbEntry :=
  tlb.map fun e => if EntryFor e va then { e with valid := false } else e

/-- Slot k is the one `TlbInsert` writes: the lowest invalid one, or, where all are valid, the lowest of those with the
smallest stamp (20_memory.md R53). -/
def IsVictim (tlb : List TlbEntry) (k : Nat) : Prop :=
  ∃ e, tlb[k]? = some e ∧
    ((e.valid = false ∧ ∀ j f, j < k → tlb[j]? = some f → f.valid = true) ∨
      ((∀ f ∈ tlb, f.valid = true) ∧ (∀ f ∈ tlb, e.stamp ≤ f.stamp) ∧
        ∀ j f, j < k → tlb[j]? = some f → e.stamp < f.stamp))

/-- The TLB after `TlbInsert(va, pa, aid, pid)`, its new stamp given (20_memory.md R53). -/
def InsertedTlb (tlb tlb' : List TlbEntry) (va pa : Word) (aid : BitVec 8) (pid : BitVec 32) (stamp : Nat) : Prop :=
  ∃ k, IsVictim (purgedTlb tlb va) k ∧
    tlb' = (purgedTlb tlb va).set k
      { valid := true, accessId := aid, protectId := pid,
        virtualAddress := wordOf (va.toNat - va.toNat % 16384 : Nat),
        physicalAddress := wordOf (pa.toNat - pa.toNat % 16384 : Nat), stamp := stamp }

/-- The same entries but for their recency stamps, and each stamp as it was or a new one (10_state.md R28; 20_memory.md
R44). -/
def SameTlbButRecency (s t : State) : Prop :=
  t.tlb.length = s.tlb.length ∧ s.tlbTick ≤ t.tlbTick ∧
  ∀ (k : Nat) (e : TlbEntry), s.tlb[k]? = some e → ∃ stamp, t.tlb[k]? = some { e with stamp := stamp } ∧
    (stamp = e.stamp ∨ (s.tlbTick < stamp ∧ stamp ≤ t.tlbTick))

end Sys2Proof.Machine
end

