-- ==== Sys2Proof/Certificates/Slice0/Obligations.lean ====
section
/-!
DEFINITION. The statements for the provers, from the numbered rules of spec/. Their words stand in
Sys2Proof/Safety.lean.
-/

open Sys2Proof Sys2Proof.Machine

/-! ### Words and instructions (30_encoding.md) -/

/-- Every instruction, with every operand at every value, decodes from the word that encodes it (30_encoding.md R66,
R70 to R74): no operand bit is dropped. -/
def Obligations.DecodeOfEncodeGivesTheInstruction : Prop :=
  ∀ i : Instr, decode (encode i) = .ok i

/-- A word that decodes is the word of its instruction but for the bits the instruction ignores (30_encoding.md R70,
R77; the encoder writes 0 there, log 13). -/
def Obligations.EncodeOfDecodeClearsTheIgnoredBits : Prop :=
  ∀ (w : InstrWord) (i : Instr), decode w = .ok i → encode i = w &&& ~~~ignoredBits i

/-- 30_encoding.md R77: two words that differ only in bits their instruction ignores are the same instruction. -/
def Obligations.IgnoredBitsDoNotMatter : Prop :=
  ∀ (w w' : InstrWord) (i : Instr), decode w = .ok i → (w ^^^ w') &&& ~~~ignoredBits i = 0 → decode w' = .ok i

/-- 30_encoding.md R75, R76: a RUNNING core that fetched a word takes IllegalInstruction(w, IA, 0), with no other
change, where the word's (G, F) or Q is not assigned or an MR or RFI word names a reserved control register, and never
otherwise. -/
def Obligations.IllegalInstructionExactlyOnIllegalWords : Prop :=
  ∀ (s s1 : State) (w : InstrWord), s.run = .running → fetch s = (.ok w, s1) →
    (¬ LegalWord w → step s = .next (s1.trappedWith .illegalInstruction w s.psw.ia 0)) ∧
    (LegalWord w → ∀ t, step s = .next t → t.run = .trapped → t.lastTrap.code ≠ .illegalInstruction)

/-- A word decodes to an instruction of a row of the opcode table exactly where it has the row's fixed bits
(30_encoding.md R71 to R74). -/
def Obligations.WordsDecodeByTheFixedBitsOfTheirTableRow : Prop :=
  (∀ (w : InstrWord) (i : Instr), decode w = .ok i → w &&& (opcodeRow i).1 = (opcodeRow i).2) ∧
  (∀ (w : InstrWord) (i : Instr), w &&& (opcodeRow i).1 = (opcodeRow i).2 →
    ∃ j, decode w = .ok j ∧ opcodeRow j = opcodeRow i)

/-- 30_encoding.md R66: the decoder extracts the named bit ranges; imm13, imm15 and imm19 are signed, imm20 and every
other field unsigned. -/
def Obligations.DecodedFieldsAreTheNamedBitRanges : Prop :=
  ∀ w : InstrWord,
    (fieldsOf w).g.toNat = wordBits w 30 2 ∧ (fieldsOf w).f.toNat = wordBits w 26 4 ∧
    (fieldsOf w).r.toNat = wordBits w 22 4 ∧ (fieldsOf w).q.toNat = wordBits w 19 3 ∧
    (fieldsOf w).b.toNat = wordBits w 15 4 ∧ (fieldsOf w).x = w.getLsbD 14 ∧ (fieldsOf w).s = w.getLsbD 13 ∧
    (fieldsOf w).a.toNat = wordBits w 9 4 ∧ (fieldsOf w).imm13.toNat = wordBits w 0 13 ∧
    (fieldsOf w).imm15.toNat = wordBits w 0 15 ∧ (fieldsOf w).imm19.toNat = wordBits w 0 19 ∧
    (fieldsOf w).imm20.toNat = wordBits w 0 20 ∧ (fieldsOf w).pos6.toNat = wordBits w 7 6 ∧
    (fieldsOf w).bpos6.toNat = wordBits w 13 6 ∧ (fieldsOf w).len6.toNat = wordBits w 0 6 ∧
    (fieldsOf w).sa6.toNat = wordBits w 0 6 ∧
    (fieldsOf w).imm13.toInt = signedField (wordBits w 0 13) 13 ∧
    (fieldsOf w).imm15.toInt = signedField (wordBits w 0 15) 15 ∧
    (fieldsOf w).imm19.toInt = signedField (wordBits w 0 19) 19

/-- Words written out in the examples of spec/ decode to the instructions they stand for (40_alu.md to 43_sys.md). -/
def Obligations.ExampleWordsDecodeToTheirInstructions : Prop :=
  decode 0x04C08400#32 = .ok (.addR 3 1 2) ∧ decode 0x04C0C001#32 = .ok (.addI 3 1 1) ∧
  decode 0x1CC0A003#32 = .ok (.extruShamt 3 1 3) ∧ decode 0x20C0C004#32 = .ok (.shlI 3 1 4) ∧
  decode 0x60C88000#32 = .ok (.ldBSO 3 1 0) ∧ decode 0x6CB08000#32 = .ok (.stcDO 2 1 0) ∧
  decode 0x8547FFC0#32 = .ok (.b 5 (-0x40)) ∧ decode 0x90580002#32 = .ok (.bbTShamt 1 2) ∧
  decode 0xD0C08400#32 = .ok (.tlbIns 3 1 2) ∧ decode 0xE0012345#32 = .ok (.trap 0x12345)

/-! ### The cycle (30_encoding.md R81, 70_reset_and_hazards.md) -/

/-- 30_encoding.md R81: a RUNNING core whose fetch address translates reads the 4-byte little-endian word there, writes
it to IR, and runs the instruction it decodes to, at the state the fetch leaves: `step` is `exec` there (the retire is
`exec`'s). -/
def Obligations.StepRunsTheInstructionFetchedAtIa : Prop :=
  ∀ (s : State) (sp : Space) (pa : Word) (i : Instr), s.run = .running → OneEntryPerPage s.tlb →
    TranslateSays s (s.psw.ia.setWidth 64) 4 .execute (.ok sp pa) →
    decode (BitVec.ofNat 32 (regionValue s sp pa 4)) = .ok i →
    step s = exec i { s.afterAccess (s.psw.ia.setWidth 64) 4 with
      ir := BitVec.ofNat 32 (regionValue s sp pa 4), ioHistory := historyAfterRead s sp pa 4 }

/-- A fetch whose translation traps ends the cycle with the trap (IA, 4, 0), IR as it was (30_encoding.md R81;
60_exceptions.md R141, R142; 10_state.md R26). -/
def Obligations.FetchTrapEndsTheCycleBeforeExecute : Prop :=
  ∀ (s : State) (c : TrapCode), s.run = .running → OneEntryPerPage s.tlb →
    TranslateSays s (s.psw.ia.setWidth 64) 4 .execute (.trap c) →
    step s = .next ((s.afterAccess (s.psw.ia.setWidth 64) 4).trappedWith c s.psw.ia 4 0)

/-- A TRAPPED or HALTED core executes nothing: the host's step(n) returns (0, lastTrap) and the state is unchanged
(70_reset_and_hazards.md R159, R162). That `step` answers the same state is the model's choice (log 5). -/
def Obligations.StoppedCoreExecutesNothing : Prop :=
  ∀ s : State, s.run ≠ .running →
    step s = .next s ∧ ∀ n, hostStep s n = .next { retired := 0, trap := s.lastTrap, state := s }

/-- 70_reset_and_hazards.md R162, R163: step(n + 1) of a RUNNING core is one cycle and then step(n); the cycle counts
as retired unless it trapped; step(0) does nothing; run(budget) is step(budget). -/
def Obligations.HostStepCountsRetiredInstructions : Prop :=
  (∀ s, hostStep s 0 = .next { retired := 0, trap := s.lastTrap, state := s }) ∧
  (∀ (s : State) (n : Nat), s.run ≠ .running → hostStep s n = .next { retired := 0, trap := s.lastTrap, state := s }) ∧
  (∀ (s t u : State) (n k : Nat) (q : TrapRecord), s.run = .running → step s = .next t →
    hostStep t n = .next { retired := k, trap := q, state := u } →
    hostStep s (n + 1) = .next { retired := if t.run = .trapped then k else k + 1, trap := q, state := u }) ∧
  (∀ s n, hostRun s n = hostStep s n)

/-! ### Whole-machine rules -/

/-- Every step of a machine of the spec keeps it one: memory canonical, the TLB with one entry per page and ordered
recency, GR0 zero, the trap record and run state in agreement, the reservation inside its region (10_state.md R13, R27
to R31; 20_memory.md R36 to R42). -/
def Obligations.EveryStepKeepsTheStateInvariant : Prop :=
  ∀ s t : State, s.Inv → step s = .next t → t.Inv

/-- The state after reset satisfies the invariant (10_state.md R34; the parameters of State.reset are the model's
choice, log 1). -/
def Obligations.ResetStateSatisfiesTheInvariant : Prop :=
  State.reset.Inv

/-- Every host operation that changes state keeps the invariant (70_reset_and_hazards.md R156, R160). -/
def Obligations.HostOperationsKeepTheStateInvariant : Prop :=
  ∀ s : State, s.Inv →
    (hostReset s).Inv ∧ (∀ v, (hostSetPsw s v).Inv) ∧ (∀ va, (hostTlbPurge s va).Inv) ∧
    (∀ t, hostResume s = .next t → t.Inv) ∧ (∀ t, hostHalt s = .next t → t.Inv) ∧
    (∀ i v t, hostSetGeneralReg s i v = .next t → t.Inv) ∧ (∀ n v t, hostSetControlReg s n v = .next t → t.Inv) ∧
    (∀ va pa aid pid t, hostTlbInsert s va pa aid pid = .next t → t.Inv) ∧
    (∀ pa n v t, hostReadMem s pa n = .next (v, t) → t.Inv) ∧
    (∀ pa v n t, hostWriteMem s pa v n = .next t → t.Inv) ∧
    (∀ pa bytes t, hostLoadImage s pa bytes = .next t → t.Inv) ∧
    (∀ n r, hostStep s n = .next r → r.state.Inv)

/-- Every step of a machine of the spec answers a next state: no instruction, word or address stops the model
(30_encoding.md R82; 60_exceptions.md R138, R140; 70_reset_and_hazards.md R159). -/
def Obligations.EveryStepAnswersANextState : Prop :=
  ∀ s : State, s.Inv → ∃ t, step s = .next t

/-- Traps are precise: a step that traps leaves GR, CR, the whole PSW, memory, the reservation and the TLB entries as
they were; only the trap record, the run state, IR (where the fetch succeeded) and TLB recency change, and an attached
device has seen the fetch's read at most (30_encoding.md R83; 60_exceptions.md R138, R140, R142). -/
def Obligations.TrapsArePrecise : Prop :=
  ∀ s t : State, s.run = .running → step s = .next t → t.run = .trapped →
    (∀ j, t.readGr j = s.readGr j) ∧ t.cr = s.cr ∧ t.psw = s.psw ∧ (∀ a, t.mem.read a = s.mem.read a) ∧
    t.res = s.res ∧ t.params = s.params ∧ SameTlbButRecency s t ∧ t.ioHistory = (fetch s).2.ioHistory ∧
    (∀ w, (fetch s).1 = .ok w → t.ir = w) ∧ (∀ c, (fetch s).1 = .error c → t.ir = s.ir)

/-- No step leaves user mode or changes privileged state from it: U, T, V, every control register but SHAMT and every
TLB entry but its recency stay, and the core is not halted (60_exceptions.md R149; 43_sys.md R123). -/
def Obligations.UserModeCannotChangePrivilegedState : Prop :=
  ∀ s t : State, s.psw.user = true → step s = .next t →
    t.psw.user = true ∧ t.psw.translate = s.psw.translate ∧ t.psw.overflow = s.psw.overflow ∧
    t.cr = { s.cr with shamt := t.cr.shamt } ∧ SameTlbButRecency s t ∧ t.params = s.params ∧
    (s.run = .running → t.run ≠ .halted)

/-- With translation on, a step in user mode changes memory only in the I/O window or in the physical page of a valid
TLB entry that is user-accessible, writable and of a matching protect id (20_memory.md R43, R45; 60_exceptions.md
R149). -/
def Obligations.UserStoresStayInUserWritablePages : Prop :=
  ∀ (s t : State) (a : Nat), s.Inv → s.psw.user = true → s.psw.translate = true → step s = .next t →
    t.mem.read a ≠ s.mem.read a →
    (0xF0000000 ≤ a ∧ a ≤ 0xFFFFFFFF) ∨
    ∃ e ∈ s.tlb, e.valid = true ∧ Permits s e .write ∧
      e.physicalAddress.toNat ≤ a ∧ a < e.physicalAddress.toNat + 16384

/-- U, T and V change by no instruction but RSM, SSM and RFI (10_state.md R16, R18). -/
def Obligations.OnlyStatusInstructionsChangeTheModeBits : Prop :=
  ∀ (s s1 t : State) (w : InstrWord), s.run = .running → fetch s = (.ok w, s1) → step s = .next t →
    ¬ InFamily w 3 6 → ¬ InFamily w 3 7 →
    t.psw.user = s.psw.user ∧ t.psw.translate = s.psw.translate ∧ t.psw.overflow = s.psw.overflow

/-- No instruction writes any general register other than GR[R], R the number in bits 25:22 of its word (10_state.md
R15). -/
def Obligations.OnlyTheDestinationRegisterChanges : Prop :=
  ∀ (s s1 t : State) (w : InstrWord) (j : Reg), s.run = .running → fetch s = (.ok w, s1) → step s = .next t →
    j ≠ regAt w 22 → t.readGr j = s.readGr j

/-- No instruction but ST (G = 1, F = 9) and STC (F = 11) changes a byte of memory (41_mem.md R110 to R113; 40_alu.md
R86; 20_memory.md R52). -/
def Obligations.OnlyStoresChangeMemory : Prop :=
  ∀ (s s1 t : State) (w : InstrWord), s.run = .running → fetch s = (.ok w, s1) → step s = .next t →
    ¬ InFamily w 1 9 → ¬ InFamily w 1 11 → ∀ a, t.mem.read a = s.mem.read a

/-- 20_memory.md R60: (a) a region write, from an ST that does not trap (the n bytes at the physical address its
effective address translates to) or from the host's writeMem and loadImage, invalidates the reservation exactly where it
writes a reserved byte of the reserved region; (b) an STC that does not trap invalidates it; (c) an LDR that does not
trap replaces it by the region, address, length and extended value of its access; (d) reset invalidates it; and no other
step or host operation changes it. -/
def Obligations.ReservationChangesOnlyAsStated : Prop :=
  (∀ (s : State) (sp : Space) (pa : Word) (n : Nat) (v : Word),
    s.res.AfterWrite (s.regionWrite sp pa n v).res sp pa n) ∧
  (∀ (s t : State) (pa v : Word) (n : Nat), hostWriteMem s pa v n = .next t →
    (s.res.HostTouched pa n → t.res = { s.res with valid := false }) ∧ (¬ s.res.HostTouched pa n → t.res = s.res)) ∧
  (∀ (s t : State) (pa : Word) (bytes : List Byte), s.params.Ok → hostLoadImage s pa bytes = .next t →
    s.res.AfterWrite t.res .phys pa bytes.length) ∧
  (∀ (s s1 t : State) (w : InstrWord), s.run = .running → fetch s = (.ok w, s1) → step s = .next t →
    (InFamily w 1 9 → if t.run = .trapped then t.res = s.res else ∃ i n sx r ea sp pa,
      decode w = .ok i ∧ MemAccess storeForms s1 i n sx r ea ∧ (translate s1 ea n .write).1 = .ok sp pa ∧
      RegionWritten s1 t sp pa n (s1.readGr r) ∧ s.res.AfterWrite t.res sp pa n) ∧
    (InFamily w 1 11 → t.res = if t.run = .trapped then s.res else { s.res with valid := false }) ∧
    (InFamily w 1 10 → if t.run = .trapped then t.res = s.res else ∃ i n sx r ea sp pa,
      decode w = .ok i ∧ MemAccess loadReserveForms s1 i n sx r ea ∧ (translate s1 ea n .read).1 = .ok sp pa ∧
      t.res = { valid := true, space := sp, pa := pa, len := n, value := extended (regionValue s1 sp pa n) n sx }) ∧
    (¬ InFamily w 1 9 → ¬ InFamily w 1 10 → ¬ InFamily w 1 11 → t.res = s.res)) ∧
  (∀ (s s1 t : State) (c : TrapCode), s.run = .running → fetch s = (.error c, s1) → step s = .next t → t.res = s.res) ∧
  (∀ s : State, (hostReset s).res.valid = false) ∧
  (∀ (s t : State), hostResume s = .next t → t.res = s.res) ∧ (∀ (s t : State), hostHalt s = .next t → t.res = s.res) ∧
  (∀ s v, (hostSetPsw s v).res = s.res) ∧ (∀ s i v t, hostSetGeneralReg s i v = .next t → t.res = s.res) ∧
  (∀ s n v t, hostSetControlReg s n v = .next t → t.res = s.res) ∧
  (∀ s pa n v t, hostReadMem s pa n = .next (v, t) → t.res = s.res) ∧
  (∀ s va, (hostTlbPurge s va).res = s.res) ∧
  (∀ s va pa aid pid t, hostTlbInsert s va pa aid pid = .next t → t.res = s.res)

/-- An LDR followed by an STC of the same address and length succeeds, whatever happened between the two, as long as
the reservation was not invalidated (20_memory.md R61, R60). -/
def Obligations.StoreConditionalAfterLoadReserveSucceeds : Prop :=
  ∀ (s t u : State) (ldr stc : Instr) (n : Nat) (sx sx' : Bool) (r r' : Reg) (ea ea' : Word) (sp : Space) (pa : Word),
    OneEntryPerPage s.tlb → OneEntryPerPage u.tlb →
    MemAccess loadReserveForms s ldr n sx r ea → TranslateSays s ea n .read (.ok sp pa) → exec ldr s = .next t →
    u.res = t.res →
    MemAccess storeConditionalForms u stc n sx' r' ea' → TranslateSays u ea' n .write (.ok sp pa) →
    ∃ v, exec stc u = .next v ∧ v.readGr r' = (if r' = 0 then 0 else 1) ∧ RegionWritten u v sp pa n (u.readGr r')

/-! ### Registers (10_state.md) -/

/-- 10_state.md R13, R14: GR0 reads 0 and a write to it is discarded, by an instruction and by the host; a write to
GR1 to GR15 is read back and leaves every other register; a host call with an index outside [0, 16) is refused. -/
def Obligations.GeneralRegisterZeroIsHardwired : Prop :=
  (∀ (s : State) (i : Nat) (v : Word), 16 ≤ i →
    hostGetGeneralReg s i = .refused .hostRegisterIndex ∧ hostSetGeneralReg s i v = .refused .hostRegisterIndex) ∧
  (∀ s : State, s.readGr 0 = 0) ∧ (∀ (s : State) (v : Word), s.writeGr 0 v = s) ∧
  (∀ (s : State) (v : Word), hostSetGeneralReg s 0 v = .next s) ∧
  (∀ (s : State) (i j : Reg) (v : Word), i ≠ 0 → (s.writeGr i v).readGr j = if j = i then v else s.readGr j)

/-- 10_state.md R21: PSW[63:35] read 0, and a write of the whole PSW (the host's setPsw, RFI) stores the low 35 bits of
the value, IA exactly. -/
def Obligations.PswReservedBitsReadZero : Prop :=
  (∀ s : State, (hostGetPsw s).toNat < 2 ^ 35) ∧
  (∀ (s : State) (v : Word), (hostGetPsw (hostSetPsw s v)).toNat = v.toNat % 2 ^ 35) ∧
  (∀ (s t : State) (n : CrSlot) (v : Word), s.psw.user = false → s.readCr n = some v → exec (.rfi n) s = .next t →
    t.psw.toWord.toNat = v.toNat % 2 ^ 35)

/-! ### ALU group (40_alu.md) -/

/-- 40_alu.md R88, 43_sys.md R131: NOP and CA, in either mode and whatever their other bits, advance IA by 4 and
change nothing else. -/
def Obligations.NopAndCaOnlyAdvanceTheAddress : Prop :=
  (∀ w, InFamily w 0 0 → decode w = .ok .nop) ∧ (∀ w, InFamily w 3 5 → decode w = .ok .ca) ∧
  ∀ s : State, Completes (exec .nop s) s 0 0 ∧ Completes (exec .ca s) s 0 0

/-- 40_alu.md R89, R90: ADD and SUB write the mathematical result modulo 2^64, or take Overflow(w, IA, 0), with no
other change, where PSW.V = 1 and it is outside [-2^63, 2^63); Q must be 0. -/
def Obligations.AddAndSubWrapOrTrapOnOverflow : Prop :=
  (AluEncoding 1 0 .addR .addI ∧ OtherQualifiersIllegal 0 1) ∧
  (AluEncoding 2 0 .subR .subI ∧ OtherQualifiersIllegal 0 2) ∧
  (∀ (s : State) (r b : Reg) (y : Word) (i : Instr), AluForm s .addR .addI r b y i →
    let sum := (s.readGr b).toInt + y.toInt
    (s.psw.overflow = true ∧ (sum < -2 ^ 63 ∨ sum ≥ 2 ^ 63) →
      exec i s = .next (s.trappedWith .overflow s.ir s.psw.ia 0)) ∧
    (¬ (s.psw.overflow = true ∧ (sum < -2 ^ 63 ∨ sum ≥ 2 ^ 63)) → Completes (exec i s) s r (wordOf sum))) ∧
  (∀ (s : State) (r b : Reg) (y : Word) (i : Instr), AluForm s .subR .subI r b y i →
    let diff := (s.readGr b).toInt - y.toInt
    (s.psw.overflow = true ∧ (diff < -2 ^ 63 ∨ diff ≥ 2 ^ 63) →
      exec i s = .next (s.trappedWith .overflow s.ir s.psw.ia 0)) ∧
    (¬ (s.psw.overflow = true ∧ (diff < -2 ^ 63 ∨ diff ≥ 2 ^ 63)) → Completes (exec i s) s r (wordOf diff)))

/-- 40_alu.md R91, R92, R93: AND, OR and XOR act bit by bit on x[B] and the second operand; Q must be 0. -/
def Obligations.AndOrXorActBitByBit : Prop :=
  (AluEncoding 3 0 .andR .andI ∧ OtherQualifiersIllegal 0 3) ∧
  (AluEncoding 4 0 .orR .orI ∧ OtherQualifiersIllegal 0 4) ∧
  (AluEncoding 5 0 .xorR .xorI ∧ OtherQualifiersIllegal 0 5) ∧
  ∀ (s : State) (r b : Reg) (y : Word) (i : Instr),
    (AluForm s .andR .andI r b y i → ∃ v, Completes (exec i s) s r v ∧
      ∀ k < 64, v.getLsbD k = ((s.readGr b).getLsbD k && y.getLsbD k)) ∧
    (AluForm s .orR .orI r b y i → ∃ v, Completes (exec i s) s r v ∧
      ∀ k < 64, v.getLsbD k = ((s.readGr b).getLsbD k || y.getLsbD k)) ∧
    (AluForm s .xorR .xorI r b y i → ∃ v, Completes (exec i s) s r v ∧
      ∀ k < 64, v.getLsbD k = ((s.readGr b).getLsbD k != y.getLsbD k))

/-- 40_alu.md R94: CMP.cc writes 1 where its condition holds of x[B] and the second operand, else 0, and never traps in
execute. -/
def Obligations.CompareWritesOneOrZero : Prop :=
  ∀ p ∈ compareForms, AluEncoding 6 p.1 p.2.1 p.2.2 ∧
    ∀ (s : State) (r b : Reg) (y : Word) (i : Instr), AluForm s p.2.1 p.2.2 r b y i →
      (CondTrue p.1 (s.readGr b) y → Completes (exec i s) s r 1) ∧
      (¬ CondTrue p.1 (s.readGr b) y → Completes (exec i s) s r 0)

/-- 40_alu.md R95, R96, R97: EXTRU and EXTRS write the field of x[B] at the position, its length cut at bit 63,
zero-extended and sign-extended from its top bit. -/
def Obligations.ExtractWritesTheClampedField : Prop :=
  FieldEncoding 0 .extru .extruShamt ∧ FieldEncoding 1 .extrs .extrsShamt ∧ OtherQualifiersIllegal 0 7 ∧
  ∀ (s : State) (r b : Reg) (len : BitVec 6) (pos : Nat) (i : Instr),
    (FieldForm s .extru .extruShamt r b len pos i →
      Completes (exec i s) s r (wordOf (fieldValue (s.readGr b) pos (clampedLength pos len)))) ∧
    (FieldForm s .extrs .extrsShamt r b len pos i →
      Completes (exec i s) s r
        (if fieldValue (s.readGr b) pos (clampedLength pos len) < 2 ^ (clampedLength pos len - 1)
          then wordOf (fieldValue (s.readGr b) pos (clampedLength pos len))
          else wordOf ((fieldValue (s.readGr b) pos (clampedLength pos len) : Int) -
            2 ^ clampedLength pos len)))

/-- 40_alu.md R95, R98: DEP replaces the bits of the field of x[R] by the low bits of x[B] and keeps the others. -/
def Obligations.DepositReplacesExactlyTheField : Prop :=
  FieldEncoding 2 .dep .depShamt ∧
  ∀ (s : State) (r b : Reg) (len : BitVec 6) (pos : Nat) (i : Instr), FieldForm s .dep .depShamt r b len pos i →
    ∃ v, Completes (exec i s) s r v ∧ ∀ k < 64, v.getLsbD k =
      if pos ≤ k ∧ k < pos + clampedLength pos len then (s.readGr b).getLsbD (k - pos) else (s.readGr r).getLsbD k

/-- 40_alu.md R99, R100, R101, R102: SHL, SHR and SHRA by an amount of 0 to 63 from a register, an immediate or
SHAMT: multiplication by 2^amt modulo 2^64, and the floor of the unsigned and of the signed division by it. -/
def Obligations.ShiftsMultiplyAndDivideByPowersOfTwo : Prop :=
  ShiftEncoding 0 .shlR .shlI .shlShamt ∧ ShiftEncoding 1 .shrR .shrI .shrShamt ∧
  ShiftEncoding 2 .shraR .shraI .shraShamt ∧ OtherQualifiersIllegal 0 8 ∧
  ∀ (s : State) (r b : Reg) (amt : Nat) (i : Instr),
    (ShiftForm s .shlR .shlI .shlShamt r b amt i →
      Completes (exec i s) s r (wordOf ((s.readGr b).toNat * 2 ^ amt : Nat))) ∧
    (ShiftForm s .shrR .shrI .shrShamt r b amt i →
      Completes (exec i s) s r (wordOf ((s.readGr b).toNat / 2 ^ amt : Nat))) ∧
    (ShiftForm s .shraR .shraI .shraShamt r b amt i →
      Completes (exec i s) s r (wordOf ((s.readGr b).toInt / 2 ^ amt)))

/-- 40_alu.md R103, R104, R105, R106: LDI.L writes its 20-bit constant zero-extended; LDI.M, LDI.U and LDI.T replace
bits 39:20, 59:40 and 63:60 of x[R] and keep the others; w[21:20] selects and every qualifier is legal. -/
def Obligations.LoadImmediatePlacesItsBits : Prop :=
  (∀ w, InFamily w 0 9 → qualifier w / 2 = 0 → decode w = .ok (.ldiL (regAt w 22) (fieldAt w 0 20))) ∧
  (∀ w, InFamily w 0 9 → qualifier w / 2 = 1 → decode w = .ok (.ldiM (regAt w 22) (fieldAt w 0 20))) ∧
  (∀ w, InFamily w 0 9 → qualifier w / 2 = 2 → decode w = .ok (.ldiU (regAt w 22) (fieldAt w 0 20))) ∧
  (∀ w, InFamily w 0 9 → qualifier w / 2 = 3 → decode w = .ok (.ldiT (regAt w 22) (fieldAt w 0 20))) ∧
  ∀ (s : State) (r : Reg) (imm : BitVec 20),
    Completes (exec (.ldiL r imm) s) s r (wordOf imm.toNat) ∧
    (∃ v, Completes (exec (.ldiM r imm) s) s r v ∧ ∀ k < 64, v.getLsbD k =
      if 20 ≤ k ∧ k < 40 then imm.getLsbD (k - 20) else (s.readGr r).getLsbD k) ∧
    (∃ v, Completes (exec (.ldiU r imm) s) s r v ∧ ∀ k < 64, v.getLsbD k =
      if 40 ≤ k ∧ k < 60 then imm.getLsbD (k - 40) else (s.readGr r).getLsbD k) ∧
    (∃ v, Completes (exec (.ldiT r imm) s) s r v ∧ ∀ k < 64, v.getLsbD k =
      if 60 ≤ k then imm.getLsbD (k - 60) else (s.readGr r).getLsbD k)

/-- The four LDI instructions in the order L, M, U, T build any 64-bit constant (30_encoding.md R80; 40_alu.md R103 to
R106). -/
def Obligations.FourLoadImmediatesBuildAnyConstant : Prop :=
  ∀ (s : State) (r : Reg) (c : Word), ∃ s1 s2 s3 t,
    exec (.ldiL r (c.extractLsb' 0 20)) s = .next s1 ∧ exec (.ldiM r (c.extractLsb' 20 20)) s1 = .next s2 ∧
    exec (.ldiU r (c.extractLsb' 40 20)) s2 = .next s3 ∧
    exec (.ldiT r ((c.extractLsb' 60 4).setWidth 20)) s3 = .next t ∧ RegisterResult s t r c (s.psw.ia + 16)

/-- 40_alu.md R107: LDO writes x[B] + sext_15(imm15) modulo 2^64 and never traps on overflow, whatever PSW.V is; Q must
be 0. -/
def Obligations.LoadAddressOffsetNeverTraps : Prop :=
  (∀ w, InFamily w 0 10 → qualifier w = 0 → decode w = .ok (.ldo (regAt w 22) (regAt w 15) (fieldAt w 0 15))) ∧
  OtherQualifiersIllegal 0 10 ∧
  ∀ (s : State) (r b : Reg) (imm : BitVec 15),
    Completes (exec (.ldo r b imm) s) s r (wordOf ((s.readGr b).toInt + imm.toInt))

/-! ### Memory (20_memory.md, 41_mem.md) -/

/-- 20_memory.md R43, R44, R45, R46: `Translate` makes its checks in the order of the rule, answers for every address,
and changes nothing but the recency of the entry it hits. -/
def Obligations.TranslateFollowsTheOrderOfItsChecks : Prop :=
  ∀ (s : State) (va : Word) (n : Nat) (kind : AccessKind), OneEntryPerPage s.tlb →
    (∃ x, TranslateSays s va n kind x) ∧
    ∀ x, TranslateSays s va n kind x → translate s va n kind = (x, s.afterAccess va n)

/-- Every access that `Translate` allows is aligned and lies wholly in the backed part of its region (20_memory.md R38,
R39, R42, R46). -/
def Obligations.AllowedAccessesAreAlignedAndBacked : Prop :=
  ∀ (s t : State) (va : Word) (n : Nat) (kind : AccessKind) (sp : Space) (pa : Word), s.Inv →
    n = 1 ∨ n = 2 ∨ n = 4 ∨ n = 8 → translate s va n kind = (.ok sp pa, t) →
    pa.toNat % n = 0 ∧ Backed s.params sp pa.toNat n

/-- 41_mem.md R109: a data access of LD, ST, LDR or STC that `Translate` refuses takes that trap with ea[31:0], the
length and w, and changes nothing else but TLB recency. -/
def Obligations.DataAccessTrapsChangeNothingElse : Prop :=
  ∀ (s : State) (i : Instr) (n : Nat) (sx : Bool) (r : Reg) (ea : Word) (c : TrapCode), OneEntryPerPage s.tlb →
    ((MemAccess loadForms s i n sx r ea ∨ MemAccess loadReserveForms s i n sx r ea) ∧
        TranslateSays s ea n .read (.trap c) ∨
      (MemAccess storeForms s i n sx r ea ∨ MemAccess storeConditionalForms s i n sx r ea) ∧
        TranslateSays s ea n .write (.trap c)) →
    exec i s = .next ((s.afterAccess ea n).trappedWith c (ea.setWidth 32) (BitVec.ofNat 32 n) s.ir)

/-- 41_mem.md R108, R110: every LD form writes the extended value of the n bytes at the address `Translate` reaches,
and leaves memory and the reservation as they are; every qualifier is legal. -/
def Obligations.LoadWritesTheExtendedValue : Prop :=
  MemEncoding 8 loadForms ∧
  ∀ (s : State) (i : Instr) (n : Nat) (sx : Bool) (r : Reg) (ea : Word),
    OneEntryPerPage s.tlb → MemAccess loadForms s i n sx r ea →
    (∀ c, TranslateSays s ea n .read (.trap c) →
      exec i s = .next ((s.afterAccess ea n).trappedWith c (ea.setWidth 32) (BitVec.ofNat 32 n) s.ir)) ∧
    ∀ sp pa, TranslateSays s ea n .read (.ok sp pa) →
      ∃ t, exec i s = .next t ∧
        RegisterResult { s.afterAccess ea n with ioHistory := historyAfterRead s sp pa n } t r
          (extended (regionValue s sp pa n) n sx) (s.psw.ia + 4)

/-- 41_mem.md R108, R111: every ST form stores the low n bytes of x[R] at the address `Translate` reaches and at no
other byte, writes no register, and invalidates the reservation exactly where it touches it; Q[19] must be 0. -/
def Obligations.StoreWritesExactlyItsBytes : Prop :=
  MemEncoding 9 storeForms ∧ OtherQualifiersIllegal 1 9 ∧
  ∀ (s : State) (i : Instr) (n : Nat) (sx : Bool) (r : Reg) (ea : Word),
    OneEntryPerPage s.tlb → MemAccess storeForms s i n sx r ea →
    (∀ c, TranslateSays s ea n .write (.trap c) →
      exec i s = .next ((s.afterAccess ea n).trappedWith c (ea.setWidth 32) (BitVec.ofNat 32 n) s.ir)) ∧
    ∀ sp pa, TranslateSays s ea n .write (.ok sp pa) →
      ∃ t, exec i s = .next t ∧ AccessFrame s t 0 0 ea n ∧ RegionWritten s t sp pa n (s.readGr r) ∧
        s.res.AfterWrite t.res sp pa n

/-- 41_mem.md R108, R112: every LDR form loads as LD and reserves the bytes it read, replacing any earlier
reservation. -/
def Obligations.LoadReserveLoadsAndReserves : Prop :=
  MemEncoding 10 loadReserveForms ∧
  ∀ (s : State) (i : Instr) (n : Nat) (sx : Bool) (r : Reg) (ea : Word),
    OneEntryPerPage s.tlb → MemAccess loadReserveForms s i n sx r ea →
    (∀ c, TranslateSays s ea n .read (.trap c) →
      exec i s = .next ((s.afterAccess ea n).trappedWith c (ea.setWidth 32) (BitVec.ofNat 32 n) s.ir)) ∧
    ∀ sp pa, TranslateSays s ea n .read (.ok sp pa) →
      ∃ t, exec i s = .next t ∧
        RegisterResult
          { s.afterAccess ea n with
            ioHistory := historyAfterRead s sp pa n
            res := { valid := true, space := sp, pa := pa, len := n, value := extended (regionValue s sp pa n) n sx } }
          t r (extended (regionValue s sp pa n) n sx) (s.psw.ia + 4)

/-- 41_mem.md R108, R113: every STC form drops the reservation; with a valid reservation of the same region, physical
address and length it stores the low n bytes of x[R] and writes 1 to x[R], else it stores nothing and writes 0; Q[19]
must be 0. -/
def Obligations.StoreConditionalNeedsTheExactReservation : Prop :=
  MemEncoding 11 storeConditionalForms ∧ OtherQualifiersIllegal 1 11 ∧
  ∀ (s : State) (i : Instr) (n : Nat) (sx : Bool) (r : Reg) (ea : Word),
    OneEntryPerPage s.tlb → MemAccess storeConditionalForms s i n sx r ea →
    (∀ c, TranslateSays s ea n .write (.trap c) →
      exec i s = .next ((s.afterAccess ea n).trappedWith c (ea.setWidth 32) (BitVec.ofNat 32 n) s.ir)) ∧
    ∀ sp pa, TranslateSays s ea n .write (.ok sp pa) →
      (s.res.valid = true ∧ s.res.space = sp ∧ s.res.pa = pa ∧ s.res.len = n →
        ∃ t, exec i s = .next t ∧ AccessFrame s t r 1 ea n ∧ RegionWritten s t sp pa n (s.readGr r) ∧
          t.res = { s.res with valid := false }) ∧
      (¬ (s.res.valid = true ∧ s.res.space = sp ∧ s.res.pa = pa ∧ s.res.len = n) →
        ∃ t, exec i s = .next t ∧ AccessFrame s t r 0 ea n ∧ (∀ a, t.mem.read a = s.mem.read a) ∧
          t.ioHistory = s.ioHistory ∧ t.res = { s.res with valid := false })

/-- Byte order is little-endian (20_memory.md R40, R47, R48): after an n-byte write of v at pa, a read of m bytes at
pa + k, within the n bytes, gives bits 8k + 8m - 1 .. 8k of v; in physical memory and in the default I/O storage. -/
def Obligations.NarrowReadsSeeTheLittleEndianPart : Prop :=
  ∀ (s : State) (sp : Space) (pa v : Word) (n k m : Nat), ¬ (sp = .io ∧ s.params.ioDevice = .attached) →
    n ≤ 8 → k + m ≤ n → pa.toNat + n ≤ 2 ^ 64 →
    (regionRead (s.regionWrite sp pa n v) sp (pa + BitVec.ofNat 64 k) m).1.toNat = v.toNat / 2 ^ (8 * k) % 2 ^ (8 * m)

/-- 20_memory.md R50: a read of n bytes after a write of n bytes of v at the same place gives v mod 2^(8n), and with
sign extension sext_{8n}(v); 0xFF in a 1-byte cell gives -1 with sign extension and 0xFF without. -/
def Obligations.ReadAfterWriteRoundTrips : Prop :=
  (∀ (s : State) (sp : Space) (pa v : Word) (n : Nat), ¬ (sp = .io ∧ s.params.ioDevice = .attached) →
    n = 1 ∨ n = 2 ∨ n = 4 ∨ n = 8 →
    (regionRead (s.regionWrite sp pa n v) sp pa n).1.toNat = v.toNat % 2 ^ (8 * n) ∧
    extendLoaded (regionRead (s.regionWrite sp pa n v) sp pa n).1 n true =
      wordOf (if v.toNat % 2 ^ (8 * n) < 2 ^ (8 * n - 1) then (v.toNat % 2 ^ (8 * n) : Nat)
        else (v.toNat % 2 ^ (8 * n) : Nat) - 2 ^ (8 * n))) ∧
  extendLoaded 0xFF 1 true = wordOf (-1) ∧ extendLoaded 0xFF 1 false = 0xFF

/-! ### BR group (42_branch.md) -/

/-- 42_branch.md R115, R116, R117, R118, R119, R122: B, BR and BV go to their targets modulo 2^32, computed from the
registers before the link IA + 4 is written to x[R]; MBR goes to IA + 4 + 4 x[B] and links nothing; Q must be 0. -/
def Obligations.UnconditionalBranchesReachTheirTargets : Prop :=
  (∀ w, qualifier w = 0 →
    (InFamily w 2 1 → decode w = .ok (.b (regAt w 22) (fieldAt w 0 19))) ∧
    (InFamily w 2 2 → decode w = .ok (.br (regAt w 22) (regAt w 15))) ∧
    (InFamily w 2 3 → decode w = .ok (.bv (regAt w 22) (regAt w 15) (regAt w 9))) ∧
    (InFamily w 2 6 → decode w = .ok (.mbr (regAt w 15)))) ∧
  OtherQualifiersIllegal 2 1 ∧ OtherQualifiersIllegal 2 2 ∧ OtherQualifiersIllegal 2 3 ∧ OtherQualifiersIllegal 2 6 ∧
  ∀ (s : State) (r b a : Reg) (disp : BitVec 19),
    CompletesAt (exec (.b r disp) s) s r (linkOf s) (addressOf (s.psw.ia.toNat + 4 * disp.toInt)) ∧
    CompletesAt (exec (.br r b) s) s r (linkOf s) (addressOf (s.readGr b).toNat) ∧
    CompletesAt (exec (.bv r b a) s) s r (linkOf s) (addressOf ((s.readGr b).toNat + 4 * (s.readGr a).toNat)) ∧
    CompletesAt (exec (.mbr b) s) s 0 0 (addressOf (s.psw.ia.toNat + 4 + 4 * (s.readGr b).toNat))

/-- 42_branch.md R120: BB goes to IA + 4 imm13 where the bit of x[R] at the position (bpos6, or SHAMT) has the value of
its suffix, else to IA + 4, and changes nothing else; Q[21] must be 0. -/
def Obligations.BranchOnBitTestsTheSelectedBit : Prop :=
  (∀ w, InFamily w 2 4 →
    (qualifier w = 0 → decode w = .ok (.bbF (regAt w 22) (fieldAt w 13 6) (fieldAt w 0 13))) ∧
    (qualifier w = 1 → decode w = .ok (.bbT (regAt w 22) (fieldAt w 13 6) (fieldAt w 0 13))) ∧
    (qualifier w = 2 → decode w = .ok (.bbFShamt (regAt w 22) (fieldAt w 0 13))) ∧
    (qualifier w = 3 → decode w = .ok (.bbTShamt (regAt w 22) (fieldAt w 0 13)))) ∧
  OtherQualifiersIllegal 2 4 ∧
  ∀ (s : State) (r : Reg) (disp : BitVec 13) (pos : Nat) (want : Bool) (i : Instr), BitBranchForm s r disp pos want i →
    ((s.readGr r).getLsbD pos = want →
      CompletesAt (exec i s) s 0 0 (addressOf (s.psw.ia.toNat + 4 * disp.toInt))) ∧
    ((s.readGr r).getLsbD pos ≠ want → CompletesAt (exec i s) s 0 0 (addressOf (s.psw.ia.toNat + 4)))

/-- 42_branch.md R121: CBR.cc goes to IA + 4 imm15 where its condition holds of x[R] and x[B], else to IA + 4, and
changes nothing else; every qualifier is assigned. -/
def Obligations.CompareAndBranchTestsItsCondition : Prop :=
  ∀ p ∈ compareBranchForms,
    (∀ w, InFamily w 2 5 → qualifier w = p.1 →
      decode w = .ok (p.2 (regAt w 22) (regAt w 15) (fieldAt w 0 15))) ∧
    ∀ (s : State) (r b : Reg) (disp : BitVec 15),
      (CondTrue p.1 (s.readGr r) (s.readGr b) →
        CompletesAt (exec (p.2 r b disp) s) s 0 0 (addressOf (s.psw.ia.toNat + 4 * disp.toInt))) ∧
      (¬ CondTrue p.1 (s.readGr r) (s.readGr b) →
        CompletesAt (exec (p.2 r b disp) s) s 0 0 (addressOf (s.psw.ia.toNat + 4)))

/-! ### SYS group (43_sys.md) -/

/-- 43_sys.md R123: in user mode MTCR to a recognized id but SHAMT, LPA, TLB.INS, TLB.PRG, RSM, SSM, RFI and HALT take
PrivilegeViolation(w, IA, 0) and change nothing else; a reserved id is reported first, as IllegalInstruction; MFCR, MTCR
to SHAMT, PRB, CA and TRAP do not take it. -/
def Obligations.PrivilegedInstructionsTrapInUserMode : Prop :=
  ∀ (s : State) (r b a : Reg) (n : CrSlot) (mask : BitVec 13) (code : BitVec 19), s.psw.user = true →
    let violation : Result := .next (s.trappedWith .privilegeViolation s.ir s.psw.ia 0)
    let illegal : Result := .next (s.trappedWith .illegalInstruction s.ir s.psw.ia 0)
    exec (.lpa r b) s = violation ∧ exec (.tlbIns r b a) s = violation ∧ exec (.tlbPrg b) s = violation ∧
    exec (.rsm r mask) s = violation ∧ exec (.ssm r mask) s = violation ∧ exec .halt s = violation ∧
    (ReservedCr n.val → exec (.mtcr n r) s = illegal ∧ exec (.rfi n) s = illegal) ∧
    (¬ ReservedCr n.val → (n ≠ 1 → exec (.mtcr n r) s = violation) ∧ exec (.rfi n) s = violation) ∧
    (∀ i ∈ [Instr.mfcr r n, .mtcr 1 r, .prbR r b, .prbW r b, .prbX r b, .ca, .trap code],
      exec i s ≠ violation ∧ ∃ t, exec i s = .next t ∧
        (t.lastTrap = s.lastTrap ∨ t.lastTrap.code ≠ .privilegeViolation))

/-- 43_sys.md R124, R125: MFCR copies all 64 bits of a recognized control register, in either mode; a reserved id
raises IllegalInstruction(w, IA, 0); the family's qualifiers 2 to 7 are illegal. -/
def Obligations.MoveFromControlRegisterCopiesIt : Prop :=
  (∀ w, InFamily w 3 1 → qualifier w = 0 → decode w = .ok (.mfcr (regAt w 22) (regAt w 15))) ∧
  OtherQualifiersIllegal 3 1 ∧
  ∀ (s : State) (r : Reg),
    (∀ p ∈ controlRegisters s, Completes (exec (.mfcr r p.1) s) s r p.2) ∧
    (∀ n : CrSlot, ReservedCr n.val → exec (.mfcr r n) s = .next (s.trappedWith .illegalInstruction s.ir s.psw.ia 0))

/-- 43_sys.md R124, R126; 10_state.md R25: MTCR, privileged but for SHAMT, stores all 64 bits of x[R] in the named
control register and leaves the others; a reserved id raises IllegalInstruction(w, IA, 0). -/
def Obligations.MoveToControlRegisterStoresAllBits : Prop :=
  (∀ w, InFamily w 3 1 → qualifier w = 1 → decode w = .ok (.mtcr (regAt w 15) (regAt w 22))) ∧
  OtherQualifiersIllegal 3 1 ∧
  ∀ (s : State) (r : Reg) (n : CrSlot),
    (ReservedCr n.val → exec (.mtcr n r) s = .next (s.trappedWith .illegalInstruction s.ir s.psw.ia 0)) ∧
    (¬ ReservedCr n.val → n ≠ 1 → s.psw.user = true →
      exec (.mtcr n r) s = .next (s.trappedWith .privilegeViolation s.ir s.psw.ia 0)) ∧
    (¬ ReservedCr n.val → n = 1 ∨ s.psw.user = false →
      ∃ t, exec (.mtcr n r) s = .next t ∧ RegisterResult { s with cr := t.cr } t 0 0 (s.psw.ia + 4) ∧
        controlRegisters t = (controlRegisters s).map fun p => if p.1 = n then (p.1, s.readGr r) else p)

/-- 43_sys.md R127: LPA in privileged mode: an I/O window address is its own physical address; else the TLB is
consulted whatever T is: a hit gives the physical address and updates recency, a miss raises TlbAccess(va[31:0], 1, w);
no protection or bounds check; in user mode it raises PrivilegeViolation; Q must be 0. -/
def Obligations.LoadPhysicalAddressConsultsTheTlb : Prop :=
  (∀ w, InFamily w 3 2 → qualifier w = 0 → decode w = .ok (.lpa (regAt w 22) (regAt w 15))) ∧
  OtherQualifiersIllegal 3 2 ∧
  ∀ (s : State) (r b : Reg),
    (s.psw.user = true → exec (.lpa r b) s = .next (s.trappedWith .privilegeViolation s.ir s.psw.ia 0)) ∧
    (s.psw.user = false → InWindow (s.readGr b) → Completes (exec (.lpa r b) s) s r (s.readGr b)) ∧
    (s.psw.user = false → ¬ InWindow (s.readGr b) → OneEntryPerPage s.tlb →
      (∀ e ∈ s.tlb, EntryFor e (s.readGr b) → ∃ t, exec (.lpa r b) s = .next t ∧
        RegisterResult (s.touchedBy (s.readGr b)) t r
          (e.physicalAddress + BitVec.ofNat 64 ((s.readGr b).toNat % 16384)) (s.psw.ia + 4)) ∧
      ((∀ e ∈ s.tlb, ¬ EntryFor e (s.readGr b)) →
        exec (.lpa r b) s = .next (s.trappedWith .tlbAccess ((s.readGr b).setWidth 32) 1 s.ir)))

/-- 43_sys.md R128: PRB.R, PRB.W and PRB.X write 1 where a one-byte access of their kind would not trap and 0 where it
would, never trap themselves, and change nothing else but the recency of a hit; Q must be 0 to 2. -/
def Obligations.ProbeAnswersWithoutFaulting : Prop :=
  OtherQualifiersIllegal 3 3 ∧
  ∀ p ∈ probeForms,
    (∀ w, InFamily w 3 3 → qualifier w = p.1 → decode w = .ok (p.2.2 (regAt w 22) (regAt w 15))) ∧
    ∀ (s : State) (r b : Reg), OneEntryPerPage s.tlb →
      (∀ sp pa, TranslateSays s (s.readGr b) 1 p.2.1 (.ok sp pa) → ∃ t, exec (p.2.2 r b) s = .next t ∧
        RegisterResult (s.afterAccess (s.readGr b) 1) t r 1 (s.psw.ia + 4)) ∧
      (∀ c, TranslateSays s (s.readGr b) 1 p.2.1 (.trap c) → ∃ t, exec (p.2.2 r b) s = .next t ∧
        RegisterResult (s.afterAccess (s.readGr b) 1) t r 0 (s.psw.ia + 4))

/-- 43_sys.md R129, 20_memory.md R53: TLB.INS in privileged mode purges the page of x[B] and writes the slot the rule
names with the frame and access id of x[A] and the protect id of x[R], stamped with the new tlbTick, and changes nothing
else; in user mode it raises PrivilegeViolation; Q must be 0 or 1. -/
def Obligations.TlbInsertWritesTheVictimSlot : Prop :=
  (∀ w, InFamily w 3 4 → qualifier w = 0 → decode w = .ok (.tlbIns (regAt w 22) (regAt w 15) (regAt w 9))) ∧
  OtherQualifiersIllegal 3 4 ∧
  ∀ (s : State) (r b a : Reg),
    (s.psw.user = true → exec (.tlbIns r b a) s = .next (s.trappedWith .privilegeViolation s.ir s.psw.ia 0)) ∧
    (s.psw.user = false → 0 < s.tlb.length →
      ∃ t, exec (.tlbIns r b a) s = .next t ∧
        RegisterResult { s with tlb := t.tlb, tlbTick := s.tlbTick + 1 } t 0 0 (s.psw.ia + 4) ∧
        InsertedTlb s.tlb t.tlb (s.readGr b)
          (wordOf ((s.readGr a).toNat - (s.readGr a).toNat % 16384 : Nat))
          (BitVec.ofNat 8 (s.readGr a).toNat) (BitVec.ofNat 32 (s.readGr r).toNat) (s.tlbTick + 1))

/-- An insert of a new page into a full TLB evicts exactly the least recently looked up or inserted entry, and no other
slot changes (20_memory.md R53, R44). -/
def Obligations.FullTlbEvictsTheLeastRecentEntry : Prop :=
  ∀ (s t : State) (va pa : Word) (aid : BitVec 8) (pid : BitVec 32), s.Inv → (∀ e ∈ s.tlb, e.valid = true) →
    (∀ e ∈ s.tlb, ¬ EntryFor e va) → tlbInsert s va pa aid pid = .next t →
    ∃ (k : Nat) (old new : TlbEntry), s.tlb[k]? = some old ∧ t.tlb[k]? = some new ∧ EntryFor new va ∧
      ∀ (j : Nat) (e : TlbEntry), s.tlb[j]? = some e → j ≠ k → old.stamp < e.stamp ∧ t.tlb[j]? = some e

/-- 43_sys.md R130, 20_memory.md R54: TLB.PRG in privileged mode invalidates the entry of the page of x[B], if there is
one, keeps its other fields, and changes nothing else; in user mode it raises PrivilegeViolation; R and bits 14:0 are
ignored. -/
def Obligations.TlbPurgeInvalidatesOnePage : Prop :=
  (∀ w, InFamily w 3 4 → qualifier w = 1 → decode w = .ok (.tlbPrg (regAt w 15))) ∧ OtherQualifiersIllegal 3 4 ∧
  ∀ (s : State) (b : Reg),
    (s.psw.user = true → exec (.tlbPrg b) s = .next (s.trappedWith .privilegeViolation s.ir s.psw.ia 0)) ∧
    (s.psw.user = false → ∃ t, exec (.tlbPrg b) s = .next t ∧
      RegisterResult { s with tlb := purgedTlb s.tlb (s.readGr b) } t 0 0 (s.psw.ia + 4) ∧
      ∀ e ∈ t.tlb, ¬ EntryFor e (s.readGr b))

/-- 43_sys.md R132, R133, R134: RSM clears and SSM sets U, T and V where mask bits 0, 1 and 2 are 1; x[R] gets the old
PSW[63:32]; nothing else changes; in user mode they raise PrivilegeViolation; Q must be 0 or 1. -/
def Obligations.StatusMaskClearsAndSetsTheModeBits : Prop :=
  (∀ w, InFamily w 3 6 → qualifier w = 0 → decode w = .ok (.rsm (regAt w 22) (fieldAt w 0 13))) ∧
  (∀ w, InFamily w 3 6 → qualifier w = 1 → decode w = .ok (.ssm (regAt w 22) (fieldAt w 0 13))) ∧
  OtherQualifiersIllegal 3 6 ∧
  ∀ (s : State) (r : Reg) (m : BitVec 13),
    (s.psw.user = true →
      exec (.rsm r m) s = .next (s.trappedWith .privilegeViolation s.ir s.psw.ia 0) ∧
      exec (.ssm r m) s = .next (s.trappedWith .privilegeViolation s.ir s.psw.ia 0)) ∧
    (s.psw.user = false →
      (∃ t, exec (.rsm r m) s = .next t ∧
        RegisterResult
          { s with psw :=
            { s.psw with
              user := s.psw.user && !m.getLsbD 0
              translate := s.psw.translate && !m.getLsbD 1
              overflow := s.psw.overflow && !m.getLsbD 2 } }
          t r (wordOf ((hostGetPsw s).toNat / 2 ^ 32 : Nat)) (s.psw.ia + 4)) ∧
      (∃ t, exec (.ssm r m) s = .next t ∧
        RegisterResult
          { s with psw :=
            { s.psw with
              user := s.psw.user || m.getLsbD 0
              translate := s.psw.translate || m.getLsbD 1
              overflow := s.psw.overflow || m.getLsbD 2 } }
          t r (wordOf ((hostGetPsw s).toNat / 2 ^ 32 : Nat)) (s.psw.ia + 4)))

/-- 43_sys.md R124, R135: RFI in privileged mode loads U, T, V and IA from bits 32, 33, 34 and 31:0 of a recognized
control register, with no + 4, and changes nothing else; a reserved id raises IllegalInstruction, then user mode raises
PrivilegeViolation; Q must be 0. -/
def Obligations.ReturnFromInterruptLoadsThePsw : Prop :=
  (∀ w, InFamily w 3 7 → qualifier w = 0 → decode w = .ok (.rfi (regAt w 15))) ∧ OtherQualifiersIllegal 3 7 ∧
  ∀ s : State,
    (∀ n : CrSlot, ReservedCr n.val →
      exec (.rfi n) s = .next (s.trappedWith .illegalInstruction s.ir s.psw.ia 0)) ∧
    ∀ p ∈ controlRegisters s,
      (s.psw.user = true → exec (.rfi p.1) s = .next (s.trappedWith .privilegeViolation s.ir s.psw.ia 0)) ∧
      (s.psw.user = false → ∃ t, exec (.rfi p.1) s = .next t ∧
        RegisterResult
          { s with psw :=
            { s.psw with
              user := p.2.getLsbD 32, translate := p.2.getLsbD 33, overflow := p.2.getLsbD 34 } }
          t 0 0 (addressOf p.2.toNat))

/-- 43_sys.md R136, R137: TRAP takes SoftwareTrap(w[18:0] zero-extended, IA, w) in either mode, IA stays at the TRAP;
HALT in privileged mode makes the run state HALTED and advances IA by 4, in user mode it raises PrivilegeViolation;
neither changes anything else; Q must be 0. -/
def Obligations.TrapAndHaltStopTheCore : Prop :=
  (∀ w, InFamily w 3 8 → qualifier w = 0 → decode w = .ok (.trap (fieldAt w 0 19))) ∧ OtherQualifiersIllegal 3 8 ∧
  (∀ w, InFamily w 3 9 → qualifier w = 0 → decode w = .ok .halt) ∧ OtherQualifiersIllegal 3 9 ∧
  ∀ (s : State) (code : BitVec 19),
    exec (.trap code) s = .next (s.trappedWith .softwareTrap (BitVec.ofNat 32 code.toNat) s.psw.ia s.ir) ∧
    (s.psw.user = true → exec .halt s = .next (s.trappedWith .privilegeViolation s.ir s.psw.ia 0)) ∧
    (s.psw.user = false → ∃ t, exec .halt s = .next t ∧
      RegisterResult { s with run := .halted } t 0 0 (s.psw.ia + 4))

/-! ### Reset and the host (70_reset_and_hazards.md) -/

/-- 10_state.md R34, 70_reset_and_hazards.md R156: reset, from every run state, gives every piece of core state its
reset value and keeps memory, the number of TLB entries, the parameters and what a device holds. -/
def Obligations.HostResetGivesTheResetValues : Prop :=
  ∀ s : State,
    (∀ i, (hostReset s).readGr i = 0) ∧ (hostGetPsw (hostReset s)).toNat = 0 ∧
    (∀ p ∈ controlRegisters (hostReset s), p.2 = 0) ∧ (hostReset s).ir = 0 ∧
    (hostReset s).res = { valid := false, space := .phys, pa := 0, len := 0, value := 0 } ∧
    (hostReset s).tlb.length = s.tlb.length ∧
    (∀ e ∈ (hostReset s).tlb, e.valid = false ∧ e.accessId = 0 ∧ e.protectId = 0 ∧ e.virtualAddress = 0 ∧
      e.physicalAddress = 0 ∧ e.stamp = 0) ∧
    (hostReset s).tlbTick = 0 ∧
    (hostReset s).lastTrap = { code := .noTrap, info1 := 0, info2 := 0, info3 := 0 } ∧
    (hostReset s).run = .running ∧ (∀ a, (hostReset s).mem.read a = s.mem.read a) ∧
    (hostReset s).ioHistory = s.ioHistory ∧ (hostReset s).params = s.params

/-- 60_exceptions.md R144, 70_reset_and_hazards.md R159, R160: resume leaves TRAPPED for RUNNING with the trap record
cleared and nothing else changed; halt leaves it for HALTED and keeps the record; outside TRAPPED both are refused. -/
def Obligations.ResumeAndHaltLeaveTrappedOnly : Prop :=
  ∀ s : State,
    (s.run = .trapped →
      hostResume s = .next { s with run := .running, lastTrap := { code := .noTrap, info1 := 0, info2 := 0, info3 := 0 } } ∧
      hostHalt s = .next { s with run := .halted }) ∧
    (s.run ≠ .trapped → hostResume s = .refused .hostCallNotTrapped ∧ hostHalt s = .refused .hostCallNotTrapped)
end

