-- ==== Sys2Proof/Laws/Encode.lean ====
section
/-!
SUPPORT. The fields of the words the encoder writes, and the words that given fields make up: what the statements
about decoding and encoding are proved from (30_encoding.md R66, R70).
-/

namespace Sys2Proof
open Machine

/-! ### The fields as bit ranges -/

theorem wordBits_eq (w : InstrWord) (lo len : Nat) : wordBits w lo len = (w.extractLsb' lo len).toNat := by
  rw [BitVec.extractLsb'_toNat, Nat.shiftRight_eq_div_pow]
  rfl

theorem fieldAt_eq (w : InstrWord) (lo k : Nat) : fieldAt w lo k = w.extractLsb' lo k := by
  rw [fieldAt, wordBits_eq, BitVec.ofNat_toNat, BitVec.setWidth_eq]

theorem regAt_eq (w : InstrWord) (lo : Nat) : regAt w lo = (w.extractLsb' lo 4).toFin := by
  apply Fin.ext
  rw [regAt, wordBits_eq, Fin.val_ofNat]
  exact Nat.mod_eq_of_lt (w.extractLsb' lo 4).isLt

/-- A field with a given number as its value. -/
theorem extract_of_wordBits {w : InstrWord} {lo len k : Nat} (h : wordBits w lo len = k) :
    w.extractLsb' lo len = BitVec.ofNat len k := by
  apply BitVec.eq_of_toNat_eq
  rw [BitVec.toNat_ofNat, ← wordBits_eq, h, Nat.mod_eq_of_lt]
  rw [← h, wordBits_eq]
  exact (w.extractLsb' lo len).isLt

theorem regField_toFin (r : Fin 16) : (regField r).toFin = r := rfl

theorem toFin_regField (v : BitVec 4) : regField v.toFin = v := rfl

/-- The group and the family of a word of a family, as the decoder reads them. -/
theorem fields_of_inFamily {w : InstrWord} {g f : Nat} (h : InFamily w g f) :
    (fieldsOf w).g = BitVec.ofNat 2 g ∧ (fieldsOf w).f = BitVec.ofNat 4 f :=
  ⟨extract_of_wordBits h.1, extract_of_wordBits h.2⟩

theorem field_of_qualifier {w : InstrWord} {q : Nat} (h : qualifier w = q) : (fieldsOf w).q = BitVec.ofNat 3 q :=
  extract_of_wordBits h

/-! ### The bits of an encoded word -/

theorem packWord_getLsbD (g : BitVec 2) (f r : BitVec 4) (q : BitVec 3) (low : BitVec 19) (i : Nat) :
    (packWord g f r q low).getLsbD i =
      if i < 19 then low.getLsbD i else if i < 22 then q.getLsbD (i - 19) else if i < 26 then r.getLsbD (i - 22)
      else if i < 30 then f.getLsbD (i - 26) else g.getLsbD (i - 30) := by
  show (g ++ f ++ r ++ q ++ low).getLsbD i = _
  simp only [BitVec.getLsbD_append]
  by_cases h1 : i < 19
  · rw [if_pos h1, if_pos h1]
  · rw [if_neg h1, if_neg h1]
    by_cases h2 : i < 22
    · rw [if_pos (by omega), if_pos h2]
    · rw [if_neg (by omega), if_neg h2]
      by_cases h3 : i < 26
      · rw [if_pos (by omega), if_pos h3]
        congr 1
      · rw [if_neg (by omega), if_neg h3]
        by_cases h4 : i < 30
        · rw [if_pos (by omega), if_pos h4]
          congr 1
        · rw [if_neg (by omega), if_neg h4]
          congr 1

/-- The decoded record of a packed word. -/
theorem fieldsOf_packWord (g : BitVec 2) (f r : BitVec 4) (q : BitVec 3) (low : BitVec 19) :
    fieldsOf (packWord g f r q low) =
      { g := g, f := f, r := r, q := q, b := low.extractLsb' 15 4, x := low.getLsbD 14, s := low.getLsbD 13
        a := low.extractLsb' 9 4, imm13 := low.extractLsb' 0 13, imm15 := low.extractLsb' 0 15, imm19 := low
        imm20 := (q.extractLsb' 0 1 ++ low).setWidth 20, pos6 := low.extractLsb' 7 6, bpos6 := low.extractLsb' 13 6
        len6 := low.extractLsb' 0 6, sa6 := low.extractLsb' 0 6 } := by
  have low_bits : ∀ lo len, lo + len ≤ 19 →
      (packWord g f r q low).extractLsb' lo len = low.extractLsb' lo len := by
    intro lo len h
    apply BitVec.eq_of_getLsbD_eq
    intro i hi
    simp only [BitVec.getLsbD_extractLsb', packWord_getLsbD, if_pos (show lo + i < 19 by omega)]
  unfold fieldsOf
  rw [low_bits 15 4 (by omega), low_bits 9 4 (by omega), low_bits 0 13 (by omega), low_bits 0 15 (by omega),
    low_bits 0 19 (by omega), low_bits 7 6 (by omega), low_bits 13 6 (by omega), low_bits 0 6 (by omega)]
  congr 1
  · apply BitVec.eq_of_getLsbD_eq
    intro i hi
    simp only [BitVec.getLsbD_extractLsb', packWord_getLsbD, hi, decide_true, Bool.true_and]
    rw [if_neg (by omega), if_neg (by omega), if_neg (by omega), if_neg (by omega)]
    congr 1
    omega
  · apply BitVec.eq_of_getLsbD_eq
    intro i hi
    simp only [BitVec.getLsbD_extractLsb', packWord_getLsbD, hi, decide_true, Bool.true_and]
    rw [if_neg (by omega), if_neg (by omega), if_neg (by omega), if_pos (by omega)]
    congr 1
    omega
  · apply BitVec.eq_of_getLsbD_eq
    intro i hi
    simp only [BitVec.getLsbD_extractLsb', packWord_getLsbD, hi, decide_true, Bool.true_and]
    rw [if_neg (by omega), if_neg (by omega), if_pos (by omega)]
    congr 1
    omega
  · apply BitVec.eq_of_getLsbD_eq
    intro i hi
    simp only [BitVec.getLsbD_extractLsb', packWord_getLsbD, hi, decide_true, Bool.true_and]
    rw [if_neg (by omega), if_pos (by omega)]
    congr 1
    omega
  · rw [packWord_getLsbD, if_pos (by omega)]
  · rw [packWord_getLsbD, if_pos (by omega)]
  · exact BitVec.extractLsb'_eq_self
  · apply BitVec.eq_of_getLsbD_eq
    intro i hi
    simp only [BitVec.getLsbD_extractLsb', BitVec.getLsbD_setWidth, BitVec.getLsbD_append, packWord_getLsbD, hi,
      decide_true, Bool.true_and, Nat.zero_add]
    by_cases h : i < 19
    · rw [if_pos h, if_pos h]
    · have : i = 19 := by omega
      subst this
      rfl

section Lows
variable (b a : BitVec 4) (x s : BitVec 1) (imm13 : BitVec 13) (imm15 : BitVec 15) (pos len : BitVec 6)

/-- A packed tail of each format, field by field. -/
theorem low_regs :
    (b ++ x ++ 0#1 ++ a ++ 0#9).extractLsb' 15 4 = b ∧ (b ++ x ++ 0#1 ++ a ++ 0#9).getLsbD 14 = x.getLsbD 0 ∧
    (b ++ x ++ 0#1 ++ a ++ 0#9).getLsbD 13 = false ∧ (b ++ x ++ 0#1 ++ a ++ 0#9).extractLsb' 9 4 = a := by
  refine ⟨?_, ?_, ?_, ?_⟩
  · apply BitVec.eq_of_getLsbD_eq
    intro i hi
    interval_cases i <;> simp only [BitVec.getLsbD_extractLsb', BitVec.getLsbD_append] <;> rfl
  · simp only [BitVec.getLsbD_append]; rfl
  · simp only [BitVec.getLsbD_append]; rfl
  · apply BitVec.eq_of_getLsbD_eq
    intro i hi
    interval_cases i <;> simp only [BitVec.getLsbD_extractLsb', BitVec.getLsbD_append] <;> rfl

theorem low_imm13 :
    (b ++ x ++ 0#1 ++ imm13).extractLsb' 15 4 = b ∧ (b ++ x ++ 0#1 ++ imm13).getLsbD 14 = x.getLsbD 0 ∧
    (b ++ x ++ 0#1 ++ imm13).extractLsb' 0 13 = imm13 := by
  refine ⟨?_, ?_, ?_⟩
  · apply BitVec.eq_of_getLsbD_eq
    intro i hi
    interval_cases i <;> simp only [BitVec.getLsbD_extractLsb', BitVec.getLsbD_append] <;> rfl
  · simp only [BitVec.getLsbD_append]; rfl
  · apply BitVec.eq_of_getLsbD_eq
    intro i hi
    interval_cases i <;> simp only [BitVec.getLsbD_extractLsb', BitVec.getLsbD_append] <;> rfl

theorem low_bitField :
    (b ++ 0#1 ++ s ++ pos ++ 0#1 ++ len).extractLsb' 15 4 = b ∧
    (b ++ 0#1 ++ s ++ pos ++ 0#1 ++ len).getLsbD 13 = s.getLsbD 0 ∧
    (b ++ 0#1 ++ s ++ pos ++ 0#1 ++ len).extractLsb' 7 6 = pos ∧
    (b ++ 0#1 ++ s ++ pos ++ 0#1 ++ len).extractLsb' 0 6 = len := by
  refine ⟨?_, ?_, ?_, ?_⟩
  · apply BitVec.eq_of_getLsbD_eq
    intro i hi
    interval_cases i <;> simp only [BitVec.getLsbD_extractLsb', BitVec.getLsbD_append] <;> rfl
  · simp only [BitVec.getLsbD_append]; rfl
  · apply BitVec.eq_of_getLsbD_eq
    intro i hi
    interval_cases i <;> simp only [BitVec.getLsbD_extractLsb', BitVec.getLsbD_append] <;> rfl
  · apply BitVec.eq_of_getLsbD_eq
    intro i hi
    interval_cases i <;> simp only [BitVec.getLsbD_extractLsb', BitVec.getLsbD_append] <;> rfl

theorem low_shift :
    (b ++ x ++ s ++ 0#7 ++ len).extractLsb' 15 4 = b ∧ (b ++ x ++ s ++ 0#7 ++ len).getLsbD 14 = x.getLsbD 0 ∧
    (b ++ x ++ s ++ 0#7 ++ len).getLsbD 13 = s.getLsbD 0 ∧ (b ++ x ++ s ++ 0#7 ++ len).extractLsb' 0 6 = len := by
  refine ⟨?_, ?_, ?_, ?_⟩
  · apply BitVec.eq_of_getLsbD_eq
    intro i hi
    interval_cases i <;> simp only [BitVec.getLsbD_extractLsb', BitVec.getLsbD_append] <;> rfl
  · simp only [BitVec.getLsbD_append]; rfl
  · simp only [BitVec.getLsbD_append]; rfl
  · apply BitVec.eq_of_getLsbD_eq
    intro i hi
    interval_cases i <;> simp only [BitVec.getLsbD_extractLsb', BitVec.getLsbD_append] <;> rfl

theorem low_imm15 : (b ++ imm15).extractLsb' 15 4 = b ∧ (b ++ imm15).extractLsb' 0 15 = imm15 := by
  constructor <;>
  · apply BitVec.eq_of_getLsbD_eq
    intro i hi
    interval_cases i <;> simp only [BitVec.getLsbD_extractLsb', BitVec.getLsbD_append] <;> rfl

theorem low_branchBit : (pos ++ imm13).extractLsb' 13 6 = pos ∧ (pos ++ imm13).extractLsb' 0 13 = imm13 := by
  constructor <;>
  · apply BitVec.eq_of_getLsbD_eq
    intro i hi
    interval_cases i <;> simp only [BitVec.getLsbD_extractLsb', BitVec.getLsbD_append] <;> rfl

theorem low_mask : (0#6 ++ imm13).extractLsb' 0 13 = imm13 := by
  apply BitVec.eq_of_getLsbD_eq
  intro i hi
  interval_cases i <;> simp only [BitVec.getLsbD_extractLsb', BitVec.getLsbD_append] <;> rfl

theorem low_regB : (b ++ 0#15).extractLsb' 15 4 = b := by
  apply BitVec.eq_of_getLsbD_eq
  intro i hi
  interval_cases i <;> simp only [BitVec.getLsbD_extractLsb', BitVec.getLsbD_append] <;> rfl

theorem low_imm20 (p : BitVec 2) (imm : BitVec 20) :
    (p ++ imm.extractLsb' 19 1).extractLsb' 1 2 = p ∧
    ((p ++ imm.extractLsb' 19 1).extractLsb' 0 1 ++ imm.extractLsb' 0 19).setWidth 20 = imm := by
  constructor
  · apply BitVec.eq_of_getLsbD_eq
    intro i hi
    interval_cases i <;> simp only [BitVec.getLsbD_extractLsb', BitVec.getLsbD_append] <;> rfl
  · apply BitVec.eq_of_getLsbD_eq
    intro i hi
    simp only [BitVec.getLsbD_extractLsb', BitVec.getLsbD_append, BitVec.getLsbD_setWidth, hi, decide_true,
      Bool.true_and]
    by_cases h : i < 19
    · simp [h, hi]
    · have : i = 19 := by omega
      subst this
      rfl

end Lows

/-! ### The decoded record of each encoding, in the fields its format uses -/

section Formats
variable (g : BitVec 2) (f : BitVec 4) (q : BitVec 3) (x s : BitVec 1) (r b a : Reg)

theorem fieldsOf_encodeRegs : fieldsOf (encodeRegs g f q x r b a) =
    { fieldsOf (encodeRegs g f q x r b a) with
      g := g, f := f, r := regField r, q := q, b := regField b, x := x.getLsbD 0, s := false, a := regField a } := by
  simp only [encodeRegs, fieldsOf_packWord, low_regs]

theorem fieldsOf_encodeImm13 (imm : BitVec 13) : fieldsOf (encodeImm13 g f q x r b imm) =
    { fieldsOf (encodeImm13 g f q x r b imm) with
      g := g, f := f, r := regField r, q := q, b := regField b, x := x.getLsbD 0, imm13 := imm } := by
  simp only [encodeImm13, fieldsOf_packWord, low_imm13]

theorem fieldsOf_encodeBitField (pos len : BitVec 6) : fieldsOf (encodeBitField q s r b pos len) =
    { fieldsOf (encodeBitField q s r b pos len) with
      g := 0, f := 7, r := regField r, q := q, b := regField b, s := s.getLsbD 0, pos6 := pos, len6 := len } := by
  simp only [encodeBitField, fieldsOf_packWord, low_bitField]

theorem fieldsOf_encodeShift (sa : BitVec 6) : fieldsOf (encodeShift q x s r b sa) =
    { fieldsOf (encodeShift q x s r b sa) with
      g := 0, f := 8, r := regField r, q := q, b := regField b, x := x.getLsbD 0, s := s.getLsbD 0, sa6 := sa } := by
  simp only [encodeShift, fieldsOf_packWord, low_shift]

theorem fieldsOf_encodeImm20 (p : BitVec 2) (imm : BitVec 20) : fieldsOf (encodeImm20 p r imm) =
    { fieldsOf (encodeImm20 p r imm) with
      g := 0, f := 9, r := regField r, q := p ++ imm.extractLsb' 19 1, imm20 := imm } := by
  simp only [encodeImm20, fieldsOf_packWord, low_imm20]

theorem fieldsOf_encodeImm15 (imm : BitVec 15) : fieldsOf (encodeImm15 g f q r b imm) =
    { fieldsOf (encodeImm15 g f q r b imm) with
      g := g, f := f, r := regField r, q := q, b := regField b, imm15 := imm } := by
  simp only [encodeImm15, fieldsOf_packWord, low_imm15]

theorem fieldsOf_encodeImm19 (imm : BitVec 19) : fieldsOf (encodeImm19 g f q r imm) =
    { fieldsOf (encodeImm19 g f q r imm) with g := g, f := f, r := regField r, q := q, imm19 := imm } := by
  simp only [encodeImm19, fieldsOf_packWord]

theorem fieldsOf_encodeBranchBit (pos : BitVec 6) (imm : BitVec 13) : fieldsOf (encodeBranchBit q r pos imm) =
    { fieldsOf (encodeBranchBit q r pos imm) with
      g := 2, f := 4, r := regField r, q := q, bpos6 := pos, imm13 := imm } := by
  simp only [encodeBranchBit, fieldsOf_packWord, low_branchBit]

theorem fieldsOf_encodeMask (imm : BitVec 13) : fieldsOf (encodeMask q r imm) =
    { fieldsOf (encodeMask q r imm) with g := 3, f := 6, r := regField r, q := q, imm13 := imm } := by
  simp only [encodeMask, fieldsOf_packWord, low_mask]

theorem fieldsOf_encodeRB : fieldsOf (encodeRB g f q r b) =
    { fieldsOf (encodeRB g f q r b) with g := g, f := f, r := regField r, q := q, b := regField b } := by
  simp only [encodeRB, fieldsOf_packWord, low_regB]

end Formats

/-! ### The word made of a word's own fields -/

/-- A packed word is a given word with some bits cleared, part by part. -/
theorem packWord_of_fields {w : InstrWord} {g : BitVec 2} {f : BitVec 4} (hg : w.extractLsb' 30 2 = g)
    (hf : w.extractLsb' 26 4 = f) (r : BitVec 4) (q : BitVec 3) (low : BitVec 19) (m : InstrWord)
    (hm : m.toNat < 2 ^ 26) (hr : r = w.extractLsb' 22 4 &&& ~~~(m.extractLsb' 22 4))
    (hq : q = w.extractLsb' 19 3 &&& ~~~(m.extractLsb' 19 3))
    (hlow : low = w.extractLsb' 0 19 &&& ~~~(m.extractLsb' 0 19)) : packWord g f r q low = w &&& ~~~m := by
  have hhigh : ∀ i, 26 ≤ i → m.getLsbD i = false := fun i hi =>
    Nat.testBit_lt_two_pow (lt_of_lt_of_le hm (Nat.pow_le_pow_right (by norm_num) hi))
  subst hg hf hr hlow hq
  apply BitVec.eq_of_getLsbD_eq
  intro i hi
  rw [packWord_getLsbD]
  simp only [BitVec.getLsbD_and, BitVec.getLsbD_not, BitVec.getLsbD_extractLsb', hi, decide_true, Bool.true_and]
  by_cases h1 : i < 19
  · simp only [h1, if_true, decide_true, Bool.true_and, Nat.zero_add]
  · rw [if_neg h1]
    by_cases h2 : i < 22
    · rw [if_pos h2]; simp only [show 19 + (i - 19) = i by omega, decide_eq_true (show i - 19 < 3 by omega), Bool.true_and]
    · rw [if_neg h2]
      by_cases h3 : i < 26
      · rw [if_pos h3]; simp only [show 22 + (i - 22) = i by omega, decide_eq_true (show i - 22 < 4 by omega), Bool.true_and]
      · rw [if_neg h3, hhigh i (by omega)]
        by_cases h4 : i < 30
        · rw [if_pos h4, show 26 + (i - 26) = i by omega, decide_eq_true (show i - 26 < 4 by omega)]
          simp
        · rw [if_neg h4, show 30 + (i - 30) = i by omega, decide_eq_true (show i - 30 < 2 by omega)]
          simp

theorem tail_regs_false (w : InstrWord) (hx : w.getLsbD 14 = false) :
    w.extractLsb' 15 4 ++ 0#1 ++ 0#1 ++ w.extractLsb' 9 4 ++ 0#9 = w.extractLsb' 0 19 &&& ~~~0x21FF#19 := by
  apply BitVec.eq_of_getLsbD_eq
  intro i hi
  interval_cases i <;>
    simp only [BitVec.getLsbD_extractLsb', BitVec.getLsbD_append, BitVec.getLsbD_and, BitVec.getLsbD_not] <;>
    simp_all

theorem tail_regs_true (w : InstrWord) (hx : w.getLsbD 14 = true) :
    w.extractLsb' 15 4 ++ 1#1 ++ 0#1 ++ w.extractLsb' 9 4 ++ 0#9 = w.extractLsb' 0 19 &&& ~~~0x21FF#19 := by
  apply BitVec.eq_of_getLsbD_eq
  intro i hi
  interval_cases i <;>
    simp only [BitVec.getLsbD_extractLsb', BitVec.getLsbD_append, BitVec.getLsbD_and, BitVec.getLsbD_not] <;>
    simp_all

theorem tail_shiftRegs (w : InstrWord) (hx : w.getLsbD 14 = false) (hs : w.getLsbD 13 = false) :
    w.extractLsb' 15 4 ++ 0#1 ++ 0#1 ++ w.extractLsb' 9 4 ++ 0#9 = w.extractLsb' 0 19 &&& ~~~0x01FF#19 := by
  apply BitVec.eq_of_getLsbD_eq
  intro i hi
  interval_cases i <;>
    simp only [BitVec.getLsbD_extractLsb', BitVec.getLsbD_append, BitVec.getLsbD_and, BitVec.getLsbD_not] <;>
    simp_all

theorem tail_regs (w : InstrWord) :
    w.extractLsb' 15 4 ++ 0#1 ++ 0#1 ++ w.extractLsb' 9 4 ++ 0#9 = w.extractLsb' 0 19 &&& ~~~0x61FF#19 := by
  apply BitVec.eq_of_getLsbD_eq
  intro i hi
  interval_cases i <;>
    simp only [BitVec.getLsbD_extractLsb', BitVec.getLsbD_append, BitVec.getLsbD_and, BitVec.getLsbD_not] <;>
    simp_all

theorem tail_imm13_false (w : InstrWord) (hx : w.getLsbD 14 = false) :
    w.extractLsb' 15 4 ++ 0#1 ++ 0#1 ++ w.extractLsb' 0 13 = w.extractLsb' 0 19 &&& ~~~0x2000#19 := by
  apply BitVec.eq_of_getLsbD_eq
  intro i hi
  interval_cases i <;>
    simp only [BitVec.getLsbD_extractLsb', BitVec.getLsbD_append, BitVec.getLsbD_and, BitVec.getLsbD_not] <;>
    simp_all

theorem tail_imm13_true (w : InstrWord) (hx : w.getLsbD 14 = true) :
    w.extractLsb' 15 4 ++ 1#1 ++ 0#1 ++ w.extractLsb' 0 13 = w.extractLsb' 0 19 &&& ~~~0x2000#19 := by
  apply BitVec.eq_of_getLsbD_eq
  intro i hi
  interval_cases i <;>
    simp only [BitVec.getLsbD_extractLsb', BitVec.getLsbD_append, BitVec.getLsbD_and, BitVec.getLsbD_not] <;>
    simp_all

theorem tail_bitField (w : InstrWord) (hs : w.getLsbD 13 = false) :
    w.extractLsb' 15 4 ++ 0#1 ++ 0#1 ++ w.extractLsb' 7 6 ++ 0#1 ++ w.extractLsb' 0 6 = w.extractLsb' 0 19 &&& ~~~0x4040#19 := by
  apply BitVec.eq_of_getLsbD_eq
  intro i hi
  interval_cases i <;>
    simp only [BitVec.getLsbD_extractLsb', BitVec.getLsbD_append, BitVec.getLsbD_and, BitVec.getLsbD_not] <;>
    simp_all

theorem tail_bitFieldShamt (w : InstrWord) (hs : w.getLsbD 13 = true) :
    w.extractLsb' 15 4 ++ 0#1 ++ 1#1 ++ 0#6 ++ 0#1 ++ w.extractLsb' 0 6 = w.extractLsb' 0 19 &&& ~~~0x5FC0#19 := by
  apply BitVec.eq_of_getLsbD_eq
  intro i hi
  interval_cases i <;>
    simp only [BitVec.getLsbD_extractLsb', BitVec.getLsbD_append, BitVec.getLsbD_and, BitVec.getLsbD_not] <;>
    simp_all

theorem tail_shiftImm (w : InstrWord) (hx : w.getLsbD 14 = true) (hs : w.getLsbD 13 = false) :
    w.extractLsb' 15 4 ++ 1#1 ++ 0#1 ++ 0#7 ++ w.extractLsb' 0 6 = w.extractLsb' 0 19 &&& ~~~0x1FC0#19 := by
  apply BitVec.eq_of_getLsbD_eq
  intro i hi
  interval_cases i <;>
    simp only [BitVec.getLsbD_extractLsb', BitVec.getLsbD_append, BitVec.getLsbD_and, BitVec.getLsbD_not] <;>
    simp_all

theorem tail_shiftShamt (w : InstrWord) (hs : w.getLsbD 13 = true) :
    w.extractLsb' 15 4 ++ 0#1 ++ 1#1 ++ 0#7 ++ 0#6 = w.extractLsb' 0 19 &&& ~~~0x5FFF#19 := by
  apply BitVec.eq_of_getLsbD_eq
  intro i hi
  interval_cases i <;>
    simp only [BitVec.getLsbD_extractLsb', BitVec.getLsbD_append, BitVec.getLsbD_and, BitVec.getLsbD_not] <;>
    simp_all

theorem tail_imm15 (w : InstrWord) :
    w.extractLsb' 15 4 ++ w.extractLsb' 0 15 = w.extractLsb' 0 19 &&& ~~~0x0#19 := by
  apply BitVec.eq_of_getLsbD_eq
  intro i hi
  interval_cases i <;>
    simp only [BitVec.getLsbD_extractLsb', BitVec.getLsbD_append, BitVec.getLsbD_and, BitVec.getLsbD_not] <;>
    simp_all

theorem tail_branchBit (w : InstrWord) :
    w.extractLsb' 13 6 ++ w.extractLsb' 0 13 = w.extractLsb' 0 19 &&& ~~~0x0#19 := by
  apply BitVec.eq_of_getLsbD_eq
  intro i hi
  interval_cases i <;>
    simp only [BitVec.getLsbD_extractLsb', BitVec.getLsbD_append, BitVec.getLsbD_and, BitVec.getLsbD_not] <;>
    simp_all

theorem tail_branchBitShamt (w : InstrWord) :
    0#6 ++ w.extractLsb' 0 13 = w.extractLsb' 0 19 &&& ~~~0x7E000#19 := by
  apply BitVec.eq_of_getLsbD_eq
  intro i hi
  interval_cases i <;>
    simp only [BitVec.getLsbD_extractLsb', BitVec.getLsbD_append, BitVec.getLsbD_and, BitVec.getLsbD_not] <;>
    simp_all

theorem tail_regB (w : InstrWord) :
    w.extractLsb' 15 4 ++ 0#15 = w.extractLsb' 0 19 &&& ~~~0x7FFF#19 := by
  apply BitVec.eq_of_getLsbD_eq
  intro i hi
  interval_cases i <;>
    simp only [BitVec.getLsbD_extractLsb', BitVec.getLsbD_append, BitVec.getLsbD_and, BitVec.getLsbD_not] <;>
    simp_all

theorem keep_bits {n : Nat} (x : BitVec n) : x = x &&& ~~~(0#n) := by simp
theorem clear_bits {n : Nat} (x m : BitVec n) (h : ~~~m = 0#n) : 0#n = x &&& ~~~m := by simp [h]

end Sys2Proof
end

