-- ==== Sys2Proof/Laws/Operands.lean ====
section
/-!
SUPPORT. One lemma per operand form, field computation and condition of Operands.lean and Flags.lean, in the words of
Sys2Proof/Safety.lean (40_alu.md R89, R94, R95, R99; 41_mem.md R108; 42_branch.md R115, R116; 43_sys.md R132).
-/

namespace Sys2Proof.Machine

/-- An integer sum as a sum of Words. -/
theorem wordOf_toNat (x : Word) : wordOf x.toNat = x := by
  rw [wordOf, BitVec.ofInt_natCast, BitVec.ofNat_toNat, BitVec.setWidth_eq]

theorem wordOf_toInt (x : Word) : wordOf x.toInt = x :=
  BitVec.ofInt_toInt

/-! ### Overflow and conditions (40_alu.md R86, R89, R90, R94) -/

theorem outOfSignedRange_iff (v : Int) : outOfSignedRange v = true ↔ v < -2 ^ 63 ∨ v ≥ 2 ^ 63 := by
  simp [outOfSignedRange]

/-- The qualifier of a condition. -/
def Cond.number : Cond → Nat
  | .eq => 0
  | .ne => 1
  | .lt => 2
  | .le => 3
  | .gt => 4
  | .ge => 5
  | .ltu => 6
  | .geu => 7

theorem condHolds_iff (c : Cond) (x y : Word) : condHolds c x y = true ↔ CondTrue c.number x y := by
  cases c <;> simp [condHolds, CondTrue, Cond.number]

/-! ### Fields and amounts (40_alu.md R95, R99) -/

theorem shamtAmount_eq (s : State) : s.shamtAmount = shamtValue s := by
  rw [State.shamtAmount, BitVec.extractLsb'_toNat]
  simp [shamtValue]

theorem shamtValue_lt (s : State) : shamtValue s < 64 :=
  Nat.mod_lt _ (by norm_num)

theorem registerAmount_eq (s : State) (a : Reg) : s.registerAmount a = (s.readGr a).toNat % 64 := by
  rw [State.registerAmount, BitVec.extractLsb'_toNat]
  simp

/-- A field within a Word ends at or before bit 63 and has at least one bit. -/
theorem clampedLength_spec {pos : Nat} (len : BitVec 6) (h : pos < 64) :
    0 < clampedLength pos len ∧ pos + clampedLength pos len ≤ 64 := by
  unfold clampedLength
  omega

theorem fieldMask_getLsbD {pos len : Nat} (h : pos + len ≤ 64) (k : Nat) :
    (fieldMask pos len).getLsbD k = decide (pos ≤ k ∧ k < pos + len) := by
  rw [fieldMask, BitVec.getLsbD_ofNat, ← Nat.shiftLeft_eq, Nat.testBit_shiftLeft, Nat.testBit_two_pow_sub_one,
    Bool.eq_iff_iff]
  simp only [Bool.and_eq_true, decide_eq_true_iff]
  omega

/-- The bits of a deposit: the field's from the value, the others as they were (40_alu.md R98). -/
theorem depositField_getLsbD (old v : Word) {pos len : Nat} (h : pos + len ≤ 64) {k : Nat} (hk : k < 64) :
    (depositField old v pos len).getLsbD k =
      if pos ≤ k ∧ k < pos + len then v.getLsbD (k - pos) else old.getLsbD k := by
  rw [depositField]
  simp only [BitVec.getLsbD_or, BitVec.getLsbD_and, BitVec.getLsbD_not, BitVec.getLsbD_shiftLeft, fieldMask_getLsbD h]
  by_cases hc : pos ≤ k ∧ k < pos + len
  · simp [hc, hk, show ¬ k < pos by omega]
  · simp [hc, hk]

theorem extractUnsigned_eq (x : Word) (pos len : Nat) : extractUnsigned x pos len = wordOf (fieldValue x pos len) := by
  apply BitVec.eq_of_toNat_eq
  rw [extractUnsigned, BitVec.toNat_setWidth, BitVec.extractLsb'_toNat, wordOf, fieldValue, BitVec.ofInt_natCast,
    BitVec.toNat_ofNat, Nat.shiftRight_eq_div_pow]

theorem extractSigned_eq (x : Word) (pos : Nat) {len : Nat} (h : 0 < len) : extractSigned x pos len =
    if fieldValue x pos len < 2 ^ (len - 1) then wordOf (fieldValue x pos len)
    else wordOf ((fieldValue x pos len : Int) - 2 ^ len) := by
  rw [extractSigned, BitVec.signExtend, BitVec.toInt_eq_toNat_cond, BitVec.extractLsb'_toNat,
    Nat.shiftRight_eq_div_pow]
  have hp : 2 ^ len = 2 * 2 ^ (len - 1) := by rw [← pow_succ', Nat.sub_add_cancel h]
  unfold fieldValue
  by_cases hc : x.toNat / 2 ^ pos % 2 ^ len < 2 ^ (len - 1)
  · rw [if_pos hc, if_pos (by omega)]
  · rw [if_neg hc, if_neg (by omega)]
    norm_cast

/-! ### Addresses (41_mem.md R108; 42_branch.md R115, R116) -/

/-- The lengths of a data access. -/
theorem AccessLen.bytes_cases (len : AccessLen) : len.bytes = 1 ∨ len.bytes = 2 ∨ len.bytes = 4 ∨ len.bytes = 8 := by
  cases len <;> simp [AccessLen.bytes]

theorem eaOffset_eq (s : State) (b : Reg) (ofs : BitVec 13) : s.eaOffset b ofs = offsetAddress s b ofs := by
  unfold State.eaOffset offsetAddress immediate
  rw [wordOf, BitVec.ofInt_add, ← wordOf, wordOf_toNat]
  rfl

theorem eaIndex_eq (s : State) (b a : Reg) : s.eaIndex b a = indexAddress s b a := by
  unfold State.eaIndex indexAddress
  rw [wordOf, BitVec.ofInt_add, ← wordOf, ← wordOf, wordOf_toNat, wordOf_toNat]

theorem linkValue_eq (s : State) : s.linkValue = linkOf s := by
  apply BitVec.eq_of_toNat_eq
  rw [State.linkValue, linkOf, wordOf, BitVec.ofInt_natCast, BitVec.toNat_ofNat, BitVec.toNat_setWidth,
    BitVec.toNat_add]
  rfl

theorem addressOf_toNat (a : InstrAddr) : addressOf a.toNat = a := by
  rw [addressOf, BitVec.ofInt_natCast, BitVec.ofNat_toNat, BitVec.setWidth_eq]

theorem relativeTarget_eq {k : Nat} (s : State) (disp : BitVec k) :
    s.relativeTarget disp = addressOf (s.psw.ia.toNat + 4 * disp.toInt) := by
  rw [State.relativeTarget, addressOf, BitVec.ofInt_add, BitVec.ofInt_mul, ← addressOf, addressOf_toNat]
  rfl

theorem setWidth_eq_addressOf (x : Word) : x.setWidth 32 = addressOf x.toNat := by
  apply BitVec.eq_of_toNat_eq
  rw [addressOf, BitVec.ofInt_natCast, BitVec.toNat_setWidth, BitVec.toNat_ofNat]

/-! ### The PSW as a Word (10_state.md R16, R21; 43_sys.md R132) -/

theorem Psw.toWord_toNat (p : Psw) : p.toWord.toNat =
    p.ia.toNat + 2 ^ 32 * (p.user.toNat + 2 * p.translate.toNat + 4 * p.overflow.toNat) := by
  rw [Psw.toWord, BitVec.toNat_setWidth_of_le (by norm_num)]
  simp only [BitVec.toNat_append, BitVec.toNat_ofBool, ← Nat.shiftLeft_add_eq_or_of_lt, p.ia.isLt]
  rw [← Nat.shiftLeft_add_eq_or_of_lt (by cases p.user <;> decide),
    ← Nat.shiftLeft_add_eq_or_of_lt (by cases p.translate <;> decide)]
  simp only [Nat.shiftLeft_eq]
  ring

theorem statusWord_eq (s : State) : s.statusWord = wordOf (s.psw.toWord.toNat / 2 ^ 32 : Nat) := by
  apply BitVec.eq_of_toNat_eq
  have := s.psw.toWord.isLt
  rw [State.statusWord, wordOf, BitVec.ofInt_natCast, BitVec.toNat_ofNat, BitVec.toNat_ushiftRight,
    Nat.shiftRight_eq_div_pow]
  omega

/-- A signed field of a word (30_encoding.md R66, R68). -/
theorem toInt_eq_signedField {k : Nat} (hk : 0 < k) (x : BitVec k) : x.toInt = signedField x.toNat k := by
  obtain ⟨j, rfl⟩ : ∃ j, k = j + 1 := ⟨k - 1, by omega⟩
  rw [BitVec.toInt_eq_toNat_cond, signedField, Nat.add_sub_cancel, pow_succ]
  have : 2 * x.toNat < 2 ^ j * 2 ↔ x.toNat < 2 ^ j := by omega
  simp only [this]
  push_cast
  rw [pow_succ]

end Sys2Proof.Machine
end

