-- ==== Sys2Proof/Laws/Memory.lean ====
section
/-!
SUPPORT. The laws of memory: a read after a write, the frame of a write, the canonical form, and the little-endian
values (20_memory.md R40, R47, R48).
-/

namespace Sys2Proof.Machine

/-! ### One byte -/

/-- A write is read back at its address and leaves every other address as it was. -/
theorem Memory.lookup_write (m : Memory) (a b : Nat) (v : Byte) :
    (m.write a v).lookup b = if b = a then some v else m.lookup b := by
  induction m with
  | nil => by_cases h : b = a <;> simp [Memory.write, Memory.lookup, h, eq_comm (a := a)]
  | cons c m ih =>
    obtain ⟨k, u⟩ := c
    by_cases h1 : a < k
    · by_cases h : b = a
      · simp [Memory.write, Memory.lookup, h1, h]
      · simp [Memory.write, Memory.lookup, h1, h, Ne.symm h]
    · by_cases h2 : a = k
      · by_cases h : b = a
        · simp [Memory.write, Memory.lookup, h2, h]
        · simp [Memory.write, Memory.lookup, h2, h2 ▸ h, Ne.symm (h2 ▸ h)]
      · by_cases hb : k = b
        · have hba : b ≠ a := fun e => h2 (by rw [hb, e])
          subst hb
          simp [Memory.write, Memory.lookup, h1, h2, hba]
        · simp [Memory.write, Memory.lookup, h1, h2, hb, ih]

/-- The read after a write, for every pair of addresses. -/
theorem Memory.read_write (m : Memory) (a b : Nat) (v : Byte) :
    (m.write a v).read b = if b = a then v else m.read b := by
  unfold Memory.read
  rw [Memory.lookup_write]
  by_cases h : b = a <;> simp [h]

@[simp] theorem Memory.read_write_same (m : Memory) (a : Nat) (v : Byte) : (m.write a v).read a = v := by
  simp [Memory.read_write]

theorem Memory.read_write_of_ne (m : Memory) {a b : Nat} (v : Byte) (h : b ≠ a) :
    (m.write a v).read b = m.read b := by
  simp [Memory.read_write, h]

/-! ### The canonical form -/

/-- The entries of a memory after a write are the old ones and the written one. -/
theorem Memory.mem_write {m : Memory} {a : Nat} {v : Byte} {c : Host.Cell} (h : c ∈ m.write a v) :
    c = (a, v) ∨ c ∈ m := by
  induction m with
  | nil => simpa [Memory.write] using h
  | cons d m ih =>
    obtain ⟨k, u⟩ := d
    simp only [Memory.write] at h
    split at h
    · simpa using h
    · split at h
      · rcases List.mem_cons.1 h with h | h
        · exact .inl h
        · exact .inr (List.mem_cons_of_mem _ h)
      · rcases List.mem_cons.1 h with h | h
        · exact .inr (h ▸ List.mem_cons_self)
        · exact (ih h).imp id (List.mem_cons_of_mem _)

/-- A write keeps the addresses strictly rising. -/
theorem Memory.wf_write {m : Memory} (h : m.wf) (a : Nat) (v : Byte) : (m.write a v).wf := by
  induction m with
  | nil => simp [Memory.write, Memory.wf]
  | cons d m ih =>
    obtain ⟨k, u⟩ := d
    have hm : Memory.wf m := (List.pairwise_cons.1 h).2
    have hk := (List.pairwise_cons.1 h).1
    simp only [Memory.write]
    split
    · rename_i hak
      refine List.pairwise_cons.2 ⟨fun c hc => ?_, h⟩
      rcases List.mem_cons.1 hc with rfl | hc
      · exact hak
      · exact hak.trans (hk c hc)
    · split
      · rename_i hak
        exact List.pairwise_cons.2 ⟨fun c hc => by simpa [hak] using hk c hc, hm⟩
      · refine List.pairwise_cons.2 ⟨fun c hc => ?_, ih hm⟩
        rcases Memory.mem_write hc with rfl | hc
        · simp only; omega
        · exact hk c hc

/-- In canonical form the address of an entry reads as the entry's byte. -/
theorem Memory.lookup_of_mem {m : Memory} (h : m.wf) {c : Host.Cell} (hc : c ∈ m) : m.lookup c.1 = some c.2 := by
  induction m with
  | nil => cases hc
  | cons d m ih =>
    obtain ⟨k, u⟩ := d
    rcases List.mem_cons.1 hc with rfl | hc
    · simp [Memory.lookup]
    · have hlt := (List.pairwise_cons.1 h).1 c hc
      have hne : k ≠ c.1 := Nat.ne_of_lt hlt
      simp [Memory.lookup, hne, ih (List.pairwise_cons.1 h).2 hc]

/-! ### Values of several bytes -/

/-- A write of n bytes keeps the canonical form. -/
theorem Memory.wf_writeBytes {m : Memory} (h : m.wf) (a n : Nat) (v : Word) : (m.writeBytes a n v).wf := by
  induction n generalizing m a v with
  | zero => exact h
  | succ n ih => exact ih (Memory.wf_write h a _) (a + 1) (v >>> 8)

/-- The entries after a write of n bytes are the old ones and entries of those n addresses. -/
theorem Memory.mem_writeBytes {m : Memory} {a n : Nat} {v : Word} {c : Host.Cell} (h : c ∈ m.writeBytes a n v) :
    (a ≤ c.1 ∧ c.1 < a + n) ∨ c ∈ m := by
  induction n generalizing m a v with
  | zero => exact .inr h
  | succ n ih =>
    rcases ih h with h | h
    · exact .inl (by omega)
    · rcases Memory.mem_write h with rfl | h
      · exact .inl (by simp only; omega)
      · exact .inr h

/-- Byte k of a write of n bytes is bits 8k + 7 .. 8k of the value (20_memory.md R48), and every other byte is as it
was. -/
theorem Memory.read_writeBytes (m : Memory) (a n : Nat) (v : Word) (b : Nat) :
    (m.writeBytes a n v).read b =
      if a ≤ b ∧ b < a + n then v.extractLsb' (8 * (b - a)) 8 else m.read b := by
  induction n generalizing m a v with
  | zero => simp [Memory.writeBytes, show ¬ (a ≤ b ∧ b < a) by omega]
  | succ n ih =>
    simp only [Memory.writeBytes, ih, Memory.read_write]
    by_cases h0 : b = a
    · subst h0
      simp
      apply BitVec.eq_of_getLsbD_eq
      intro i hi
      simp [hi, show i < 64 by omega]
    · by_cases h1 : a + 1 ≤ b ∧ b < a + 1 + n
      · have h2 : a ≤ b ∧ b < a + (n + 1) := by omega
        simp only [h1, h2, and_self, if_true]
        apply BitVec.eq_of_getLsbD_eq
        intro i hi
        simp only [BitVec.getLsbD_extractLsb', BitVec.getLsbD_ushiftRight, hi, decide_true, Bool.true_and]
        congr 1
        omega
      · rw [if_neg h1, if_neg h0, if_neg (by omega)]

theorem Memory.read_writeBytes_inside (m : Memory) (a n : Nat) (v : Word) {i : Nat} (h : i < n) :
    (m.writeBytes a n v).read (a + i) = v.extractLsb' (8 * i) 8 := by
  rw [Memory.read_writeBytes, if_pos (by omega)]
  congr 1
  omega

theorem Memory.read_writeBytes_outside (m : Memory) (a n : Nat) (v : Word) {b : Nat} (h : b < a ∨ a + n ≤ b) :
    (m.writeBytes a n v).read b = m.read b := by
  rw [Memory.read_writeBytes, if_neg (by omega)]

/-- The little-endian number of n bytes is below 256^n. -/
theorem littleEndian_lt (f : Nat → Byte) (n : Nat) : littleEndian f n < 256 ^ n := by
  induction n with
  | zero => simp [littleEndian]
  | succ n ih =>
    have hb : (f n).toNat ≤ 255 := by have := (f n).isLt; omega
    have : 256 ^ n * (f n).toNat ≤ 256 ^ n * 255 := Nat.mul_le_mul_left _ hb
    simp only [littleEndian, pow_succ]
    omega

/-- The number of n + 1 bytes, its lowest byte first. -/
theorem littleEndian_succ (f : Nat → Byte) (n : Nat) :
    littleEndian f (n + 1) = (f 0).toNat + 256 * littleEndian (fun i => f (i + 1)) n := by
  induction n with
  | zero => simp [littleEndian]
  | succ n ih =>
    rw [littleEndian, ih, littleEndian, pow_succ]
    ring

/-- `Memory.readBytes` is the little-endian number of the bytes at the address (20_memory.md R47). -/
theorem Memory.readBytes_eq (m : Memory) (a n : Nat) :
    m.readBytes a n = littleEndian (fun i => m.read (a + i)) n := by
  induction n generalizing a with
  | zero => rfl
  | succ n ih =>
    rw [Memory.readBytes, ih, littleEndian_succ]
    simp [Nat.add_assoc, Nat.add_comm 1]

theorem Memory.readBytes_lt (m : Memory) (a n : Nat) : m.readBytes a n < 256 ^ n := by
  rw [Memory.readBytes_eq]
  exact littleEndian_lt _ _

/-- Equal bytes give equal numbers. -/
theorem littleEndian_congr {f g : Nat → Byte} {n : Nat} (h : ∀ i < n, f i = g i) :
    littleEndian f n = littleEndian g n := by
  induction n with
  | zero => rfl
  | succ n ih => simp [littleEndian, ih fun i hi => h i (by omega), h n (by omega)]

/-- The bytes k .. k + m - 1 of a Word are its bits 8k + 8m - 1 .. 8k. -/
theorem littleEndian_extract (v : Word) (k m : Nat) :
    littleEndian (fun i => v.extractLsb' (8 * (k + i)) 8) m = v.toNat / 2 ^ (8 * k) % 2 ^ (8 * m) := by
  induction m with
  | zero => simp [littleEndian, Nat.mod_one]
  | succ m ih =>
    have hp : (256 : Nat) ^ m = 2 ^ (8 * m) := by rw [pow_mul]; norm_num
    rw [littleEndian, ih, hp, BitVec.extractLsb'_toNat, Nat.shiftRight_eq_div_pow,
      show 8 * (m + 1) = 8 * m + 8 by ring, pow_add, Nat.mod_mul, Nat.div_div_eq_div_mul, ← pow_add,
      show 8 * (k + m) = 8 * k + 8 * m by ring]

/-- A read within the bytes of a write gives the part of the value that lies there (20_memory.md R40). -/
theorem Memory.readBytes_writeBytes (m : Memory) (a n : Nat) (v : Word) {k l : Nat} (h : k + l ≤ n) :
    (m.writeBytes a n v).readBytes (a + k) l = v.toNat / 2 ^ (8 * k) % 2 ^ (8 * l) := by
  rw [Memory.readBytes_eq, ← littleEndian_extract]
  refine littleEndian_congr fun i hi => ?_
  rw [Nat.add_assoc, Memory.read_writeBytes_inside _ _ _ _ (by omega)]

end Sys2Proof.Machine
end

