-- ==== Sys2Proof/Laws/State.lean ====
section
/-!
SUPPORT. One lemma per field of State for each named update of Machine/Ops.lean, true by rfl and tagged @[simp], and
the laws of reading a general register after an update.
-/

namespace Sys2Proof.Machine

variable (s : State)

/-! ### writeGr -/

@[simp] theorem State.writeGr_params (i : Reg) (v : Word) : (s.writeGr i v).params = s.params := rfl
@[simp] theorem State.writeGr_gr (i : Reg) (v : Word) : (s.writeGr i v).gr = (if i = 0 then s.gr else s.gr.set i v) := rfl
@[simp] theorem State.writeGr_psw (i : Reg) (v : Word) : (s.writeGr i v).psw = s.psw := rfl
@[simp] theorem State.writeGr_cr (i : Reg) (v : Word) : (s.writeGr i v).cr = s.cr := rfl
@[simp] theorem State.writeGr_ir (i : Reg) (v : Word) : (s.writeGr i v).ir = s.ir := rfl
@[simp] theorem State.writeGr_res (i : Reg) (v : Word) : (s.writeGr i v).res = s.res := rfl
@[simp] theorem State.writeGr_tlb (i : Reg) (v : Word) : (s.writeGr i v).tlb = s.tlb := rfl
@[simp] theorem State.writeGr_tlbTick (i : Reg) (v : Word) : (s.writeGr i v).tlbTick = s.tlbTick := rfl
@[simp] theorem State.writeGr_lastTrap (i : Reg) (v : Word) : (s.writeGr i v).lastTrap = s.lastTrap := rfl
@[simp] theorem State.writeGr_run (i : Reg) (v : Word) : (s.writeGr i v).run = s.run := rfl
@[simp] theorem State.writeGr_mem (i : Reg) (v : Word) : (s.writeGr i v).mem = s.mem := rfl
@[simp] theorem State.writeGr_ioHistory (i : Reg) (v : Word) : (s.writeGr i v).ioHistory = s.ioHistory := rfl

/-! ### retireTo -/

@[simp] theorem State.retireTo_params (t : InstrAddr) : (s.retireTo t).params = s.params := rfl
@[simp] theorem State.retireTo_gr (t : InstrAddr) : (s.retireTo t).gr = s.gr := rfl
@[simp] theorem State.retireTo_psw (t : InstrAddr) : (s.retireTo t).psw = ({ s.psw with ia := t }) := rfl
@[simp] theorem State.retireTo_cr (t : InstrAddr) : (s.retireTo t).cr = s.cr := rfl
@[simp] theorem State.retireTo_ir (t : InstrAddr) : (s.retireTo t).ir = s.ir := rfl
@[simp] theorem State.retireTo_res (t : InstrAddr) : (s.retireTo t).res = s.res := rfl
@[simp] theorem State.retireTo_tlb (t : InstrAddr) : (s.retireTo t).tlb = s.tlb := rfl
@[simp] theorem State.retireTo_tlbTick (t : InstrAddr) : (s.retireTo t).tlbTick = s.tlbTick := rfl
@[simp] theorem State.retireTo_lastTrap (t : InstrAddr) : (s.retireTo t).lastTrap = s.lastTrap := rfl
@[simp] theorem State.retireTo_run (t : InstrAddr) : (s.retireTo t).run = s.run := rfl
@[simp] theorem State.retireTo_mem (t : InstrAddr) : (s.retireTo t).mem = s.mem := rfl
@[simp] theorem State.retireTo_ioHistory (t : InstrAddr) : (s.retireTo t).ioHistory = s.ioHistory := rfl

@[simp] theorem State.retireTo_readGr (t : InstrAddr) (j : Reg) : (s.retireTo t).readGr j = s.readGr j := rfl

/-! ### retire -/

@[simp] theorem State.retire_params : (s.retire).params = s.params := rfl
@[simp] theorem State.retire_gr : (s.retire).gr = s.gr := rfl
@[simp] theorem State.retire_psw : (s.retire).psw = ({ s.psw with ia := s.psw.ia + 4 }) := rfl
@[simp] theorem State.retire_cr : (s.retire).cr = s.cr := rfl
@[simp] theorem State.retire_ir : (s.retire).ir = s.ir := rfl
@[simp] theorem State.retire_res : (s.retire).res = s.res := rfl
@[simp] theorem State.retire_tlb : (s.retire).tlb = s.tlb := rfl
@[simp] theorem State.retire_tlbTick : (s.retire).tlbTick = s.tlbTick := rfl
@[simp] theorem State.retire_lastTrap : (s.retire).lastTrap = s.lastTrap := rfl
@[simp] theorem State.retire_run : (s.retire).run = s.run := rfl
@[simp] theorem State.retire_mem : (s.retire).mem = s.mem := rfl
@[simp] theorem State.retire_ioHistory : (s.retire).ioHistory = s.ioHistory := rfl

@[simp] theorem State.retire_readGr (j : Reg) : (s.retire).readGr j = s.readGr j := rfl

/-! ### restorePsw -/

@[simp] theorem State.restorePsw_params (v : Word) : (s.restorePsw v).params = s.params := rfl
@[simp] theorem State.restorePsw_gr (v : Word) : (s.restorePsw v).gr = s.gr := rfl
@[simp] theorem State.restorePsw_psw (v : Word) : (s.restorePsw v).psw = (Psw.ofWord v) := rfl
@[simp] theorem State.restorePsw_cr (v : Word) : (s.restorePsw v).cr = s.cr := rfl
@[simp] theorem State.restorePsw_ir (v : Word) : (s.restorePsw v).ir = s.ir := rfl
@[simp] theorem State.restorePsw_res (v : Word) : (s.restorePsw v).res = s.res := rfl
@[simp] theorem State.restorePsw_tlb (v : Word) : (s.restorePsw v).tlb = s.tlb := rfl
@[simp] theorem State.restorePsw_tlbTick (v : Word) : (s.restorePsw v).tlbTick = s.tlbTick := rfl
@[simp] theorem State.restorePsw_lastTrap (v : Word) : (s.restorePsw v).lastTrap = s.lastTrap := rfl
@[simp] theorem State.restorePsw_run (v : Word) : (s.restorePsw v).run = s.run := rfl
@[simp] theorem State.restorePsw_mem (v : Word) : (s.restorePsw v).mem = s.mem := rfl
@[simp] theorem State.restorePsw_ioHistory (v : Word) : (s.restorePsw v).ioHistory = s.ioHistory := rfl

@[simp] theorem State.restorePsw_readGr (v : Word) (j : Reg) : (s.restorePsw v).readGr j = s.readGr j := rfl

/-! ### writeCr -/

@[simp] theorem State.writeCr_params (n : CrSlot) (v : Word) : (s.writeCr n v).params = s.params := rfl
@[simp] theorem State.writeCr_gr (n : CrSlot) (v : Word) : (s.writeCr n v).gr = s.gr := rfl
@[simp] theorem State.writeCr_psw (n : CrSlot) (v : Word) : (s.writeCr n v).psw = s.psw := rfl
@[simp] theorem State.writeCr_cr (n : CrSlot) (v : Word) : (s.writeCr n v).cr = (s.cr.write n v) := rfl
@[simp] theorem State.writeCr_ir (n : CrSlot) (v : Word) : (s.writeCr n v).ir = s.ir := rfl
@[simp] theorem State.writeCr_res (n : CrSlot) (v : Word) : (s.writeCr n v).res = s.res := rfl
@[simp] theorem State.writeCr_tlb (n : CrSlot) (v : Word) : (s.writeCr n v).tlb = s.tlb := rfl
@[simp] theorem State.writeCr_tlbTick (n : CrSlot) (v : Word) : (s.writeCr n v).tlbTick = s.tlbTick := rfl
@[simp] theorem State.writeCr_lastTrap (n : CrSlot) (v : Word) : (s.writeCr n v).lastTrap = s.lastTrap := rfl
@[simp] theorem State.writeCr_run (n : CrSlot) (v : Word) : (s.writeCr n v).run = s.run := rfl
@[simp] theorem State.writeCr_mem (n : CrSlot) (v : Word) : (s.writeCr n v).mem = s.mem := rfl
@[simp] theorem State.writeCr_ioHistory (n : CrSlot) (v : Word) : (s.writeCr n v).ioHistory = s.ioHistory := rfl

@[simp] theorem State.writeCr_readGr (n : CrSlot) (v : Word) (j : Reg) : (s.writeCr n v).readGr j = s.readGr j := rfl

/-! ### raise -/

@[simp] theorem State.raise_params (c : TrapCode) (x y z : BitVec 32) : (s.raise c x y z).params = s.params := rfl
@[simp] theorem State.raise_gr (c : TrapCode) (x y z : BitVec 32) : (s.raise c x y z).gr = s.gr := rfl
@[simp] theorem State.raise_psw (c : TrapCode) (x y z : BitVec 32) : (s.raise c x y z).psw = s.psw := rfl
@[simp] theorem State.raise_cr (c : TrapCode) (x y z : BitVec 32) : (s.raise c x y z).cr = s.cr := rfl
@[simp] theorem State.raise_ir (c : TrapCode) (x y z : BitVec 32) : (s.raise c x y z).ir = s.ir := rfl
@[simp] theorem State.raise_res (c : TrapCode) (x y z : BitVec 32) : (s.raise c x y z).res = s.res := rfl
@[simp] theorem State.raise_tlb (c : TrapCode) (x y z : BitVec 32) : (s.raise c x y z).tlb = s.tlb := rfl
@[simp] theorem State.raise_tlbTick (c : TrapCode) (x y z : BitVec 32) : (s.raise c x y z).tlbTick = s.tlbTick := rfl
@[simp] theorem State.raise_lastTrap (c : TrapCode) (x y z : BitVec 32) : (s.raise c x y z).lastTrap = ({ code := c, info1 := x, info2 := y, info3 := z }) := rfl
@[simp] theorem State.raise_run (c : TrapCode) (x y z : BitVec 32) : (s.raise c x y z).run = (.trapped) := rfl
@[simp] theorem State.raise_mem (c : TrapCode) (x y z : BitVec 32) : (s.raise c x y z).mem = s.mem := rfl
@[simp] theorem State.raise_ioHistory (c : TrapCode) (x y z : BitVec 32) : (s.raise c x y z).ioHistory = s.ioHistory := rfl

@[simp] theorem State.raise_readGr (c : TrapCode) (x y z : BitVec 32) (j : Reg) : (s.raise c x y z).readGr j = s.readGr j := rfl

/-! ### clearTrap -/

@[simp] theorem State.clearTrap_params : (s.clearTrap).params = s.params := rfl
@[simp] theorem State.clearTrap_gr : (s.clearTrap).gr = s.gr := rfl
@[simp] theorem State.clearTrap_psw : (s.clearTrap).psw = s.psw := rfl
@[simp] theorem State.clearTrap_cr : (s.clearTrap).cr = s.cr := rfl
@[simp] theorem State.clearTrap_ir : (s.clearTrap).ir = s.ir := rfl
@[simp] theorem State.clearTrap_res : (s.clearTrap).res = s.res := rfl
@[simp] theorem State.clearTrap_tlb : (s.clearTrap).tlb = s.tlb := rfl
@[simp] theorem State.clearTrap_tlbTick : (s.clearTrap).tlbTick = s.tlbTick := rfl
@[simp] theorem State.clearTrap_lastTrap : (s.clearTrap).lastTrap = (TrapRecord.none) := rfl
@[simp] theorem State.clearTrap_run : (s.clearTrap).run = (.running) := rfl
@[simp] theorem State.clearTrap_mem : (s.clearTrap).mem = s.mem := rfl
@[simp] theorem State.clearTrap_ioHistory : (s.clearTrap).ioHistory = s.ioHistory := rfl

@[simp] theorem State.clearTrap_readGr (j : Reg) : (s.clearTrap).readGr j = s.readGr j := rfl

/-! ### raiseIllegal -/

@[simp] theorem State.raiseIllegal_params : (s.raiseIllegal).params = s.params := rfl
@[simp] theorem State.raiseIllegal_gr : (s.raiseIllegal).gr = s.gr := rfl
@[simp] theorem State.raiseIllegal_psw : (s.raiseIllegal).psw = s.psw := rfl
@[simp] theorem State.raiseIllegal_cr : (s.raiseIllegal).cr = s.cr := rfl
@[simp] theorem State.raiseIllegal_ir : (s.raiseIllegal).ir = s.ir := rfl
@[simp] theorem State.raiseIllegal_res : (s.raiseIllegal).res = s.res := rfl
@[simp] theorem State.raiseIllegal_tlb : (s.raiseIllegal).tlb = s.tlb := rfl
@[simp] theorem State.raiseIllegal_tlbTick : (s.raiseIllegal).tlbTick = s.tlbTick := rfl
@[simp] theorem State.raiseIllegal_lastTrap : (s.raiseIllegal).lastTrap = ({ code := .illegalInstruction, info1 := s.ir, info2 := s.psw.ia, info3 := 0 }) := rfl
@[simp] theorem State.raiseIllegal_run : (s.raiseIllegal).run = (.trapped) := rfl
@[simp] theorem State.raiseIllegal_mem : (s.raiseIllegal).mem = s.mem := rfl
@[simp] theorem State.raiseIllegal_ioHistory : (s.raiseIllegal).ioHistory = s.ioHistory := rfl

@[simp] theorem State.raiseIllegal_readGr (j : Reg) : (s.raiseIllegal).readGr j = s.readGr j := rfl

/-! ### raisePrivilege -/

@[simp] theorem State.raisePrivilege_params : (s.raisePrivilege).params = s.params := rfl
@[simp] theorem State.raisePrivilege_gr : (s.raisePrivilege).gr = s.gr := rfl
@[simp] theorem State.raisePrivilege_psw : (s.raisePrivilege).psw = s.psw := rfl
@[simp] theorem State.raisePrivilege_cr : (s.raisePrivilege).cr = s.cr := rfl
@[simp] theorem State.raisePrivilege_ir : (s.raisePrivilege).ir = s.ir := rfl
@[simp] theorem State.raisePrivilege_res : (s.raisePrivilege).res = s.res := rfl
@[simp] theorem State.raisePrivilege_tlb : (s.raisePrivilege).tlb = s.tlb := rfl
@[simp] theorem State.raisePrivilege_tlbTick : (s.raisePrivilege).tlbTick = s.tlbTick := rfl
@[simp] theorem State.raisePrivilege_lastTrap : (s.raisePrivilege).lastTrap = ({ code := .privilegeViolation, info1 := s.ir, info2 := s.psw.ia, info3 := 0 }) := rfl
@[simp] theorem State.raisePrivilege_run : (s.raisePrivilege).run = (.trapped) := rfl
@[simp] theorem State.raisePrivilege_mem : (s.raisePrivilege).mem = s.mem := rfl
@[simp] theorem State.raisePrivilege_ioHistory : (s.raisePrivilege).ioHistory = s.ioHistory := rfl

@[simp] theorem State.raisePrivilege_readGr (j : Reg) : (s.raisePrivilege).readGr j = s.readGr j := rfl

/-! ### raiseOverflow -/

@[simp] theorem State.raiseOverflow_params : (s.raiseOverflow).params = s.params := rfl
@[simp] theorem State.raiseOverflow_gr : (s.raiseOverflow).gr = s.gr := rfl
@[simp] theorem State.raiseOverflow_psw : (s.raiseOverflow).psw = s.psw := rfl
@[simp] theorem State.raiseOverflow_cr : (s.raiseOverflow).cr = s.cr := rfl
@[simp] theorem State.raiseOverflow_ir : (s.raiseOverflow).ir = s.ir := rfl
@[simp] theorem State.raiseOverflow_res : (s.raiseOverflow).res = s.res := rfl
@[simp] theorem State.raiseOverflow_tlb : (s.raiseOverflow).tlb = s.tlb := rfl
@[simp] theorem State.raiseOverflow_tlbTick : (s.raiseOverflow).tlbTick = s.tlbTick := rfl
@[simp] theorem State.raiseOverflow_lastTrap : (s.raiseOverflow).lastTrap = ({ code := .overflow, info1 := s.ir, info2 := s.psw.ia, info3 := 0 }) := rfl
@[simp] theorem State.raiseOverflow_run : (s.raiseOverflow).run = (.trapped) := rfl
@[simp] theorem State.raiseOverflow_mem : (s.raiseOverflow).mem = s.mem := rfl
@[simp] theorem State.raiseOverflow_ioHistory : (s.raiseOverflow).ioHistory = s.ioHistory := rfl

@[simp] theorem State.raiseOverflow_readGr (j : Reg) : (s.raiseOverflow).readGr j = s.readGr j := rfl

/-! ### raiseData -/

@[simp] theorem State.raiseData_params (c : TrapCode) (ea : Word) (n : Nat) : (s.raiseData c ea n).params = s.params := rfl
@[simp] theorem State.raiseData_gr (c : TrapCode) (ea : Word) (n : Nat) : (s.raiseData c ea n).gr = s.gr := rfl
@[simp] theorem State.raiseData_psw (c : TrapCode) (ea : Word) (n : Nat) : (s.raiseData c ea n).psw = s.psw := rfl
@[simp] theorem State.raiseData_cr (c : TrapCode) (ea : Word) (n : Nat) : (s.raiseData c ea n).cr = s.cr := rfl
@[simp] theorem State.raiseData_ir (c : TrapCode) (ea : Word) (n : Nat) : (s.raiseData c ea n).ir = s.ir := rfl
@[simp] theorem State.raiseData_res (c : TrapCode) (ea : Word) (n : Nat) : (s.raiseData c ea n).res = s.res := rfl
@[simp] theorem State.raiseData_tlb (c : TrapCode) (ea : Word) (n : Nat) : (s.raiseData c ea n).tlb = s.tlb := rfl
@[simp] theorem State.raiseData_tlbTick (c : TrapCode) (ea : Word) (n : Nat) : (s.raiseData c ea n).tlbTick = s.tlbTick := rfl
@[simp] theorem State.raiseData_lastTrap (c : TrapCode) (ea : Word) (n : Nat) : (s.raiseData c ea n).lastTrap = ({ code := c, info1 := ea.setWidth 32, info2 := BitVec.ofNat 32 n, info3 := s.ir }) := rfl
@[simp] theorem State.raiseData_run (c : TrapCode) (ea : Word) (n : Nat) : (s.raiseData c ea n).run = (.trapped) := rfl
@[simp] theorem State.raiseData_mem (c : TrapCode) (ea : Word) (n : Nat) : (s.raiseData c ea n).mem = s.mem := rfl
@[simp] theorem State.raiseData_ioHistory (c : TrapCode) (ea : Word) (n : Nat) : (s.raiseData c ea n).ioHistory = s.ioHistory := rfl

@[simp] theorem State.raiseData_readGr (c : TrapCode) (ea : Word) (n : Nat) (j : Reg) : (s.raiseData c ea n).readGr j = s.readGr j := rfl

/-! ### raiseFetch -/

@[simp] theorem State.raiseFetch_params (c : TrapCode) : (s.raiseFetch c).params = s.params := rfl
@[simp] theorem State.raiseFetch_gr (c : TrapCode) : (s.raiseFetch c).gr = s.gr := rfl
@[simp] theorem State.raiseFetch_psw (c : TrapCode) : (s.raiseFetch c).psw = s.psw := rfl
@[simp] theorem State.raiseFetch_cr (c : TrapCode) : (s.raiseFetch c).cr = s.cr := rfl
@[simp] theorem State.raiseFetch_ir (c : TrapCode) : (s.raiseFetch c).ir = s.ir := rfl
@[simp] theorem State.raiseFetch_res (c : TrapCode) : (s.raiseFetch c).res = s.res := rfl
@[simp] theorem State.raiseFetch_tlb (c : TrapCode) : (s.raiseFetch c).tlb = s.tlb := rfl
@[simp] theorem State.raiseFetch_tlbTick (c : TrapCode) : (s.raiseFetch c).tlbTick = s.tlbTick := rfl
@[simp] theorem State.raiseFetch_lastTrap (c : TrapCode) : (s.raiseFetch c).lastTrap = ({ code := c, info1 := s.psw.ia, info2 := 4, info3 := 0 }) := rfl
@[simp] theorem State.raiseFetch_run (c : TrapCode) : (s.raiseFetch c).run = (.trapped) := rfl
@[simp] theorem State.raiseFetch_mem (c : TrapCode) : (s.raiseFetch c).mem = s.mem := rfl
@[simp] theorem State.raiseFetch_ioHistory (c : TrapCode) : (s.raiseFetch c).ioHistory = s.ioHistory := rfl

@[simp] theorem State.raiseFetch_readGr (c : TrapCode) (j : Reg) : (s.raiseFetch c).readGr j = s.readGr j := rfl

/-! ### touchTlb -/

@[simp] theorem State.touchTlb_params (k : Nat) : (s.touchTlb k).params = s.params := rfl
@[simp] theorem State.touchTlb_gr (k : Nat) : (s.touchTlb k).gr = s.gr := rfl
@[simp] theorem State.touchTlb_psw (k : Nat) : (s.touchTlb k).psw = s.psw := rfl
@[simp] theorem State.touchTlb_cr (k : Nat) : (s.touchTlb k).cr = s.cr := rfl
@[simp] theorem State.touchTlb_ir (k : Nat) : (s.touchTlb k).ir = s.ir := rfl
@[simp] theorem State.touchTlb_res (k : Nat) : (s.touchTlb k).res = s.res := rfl
@[simp] theorem State.touchTlb_tlb (k : Nat) : (s.touchTlb k).tlb = (s.tlb.modify k (fun e => { e with stamp := s.tlbTick + 1 })) := rfl
@[simp] theorem State.touchTlb_tlbTick (k : Nat) : (s.touchTlb k).tlbTick = (s.tlbTick + 1) := rfl
@[simp] theorem State.touchTlb_lastTrap (k : Nat) : (s.touchTlb k).lastTrap = s.lastTrap := rfl
@[simp] theorem State.touchTlb_run (k : Nat) : (s.touchTlb k).run = s.run := rfl
@[simp] theorem State.touchTlb_mem (k : Nat) : (s.touchTlb k).mem = s.mem := rfl
@[simp] theorem State.touchTlb_ioHistory (k : Nat) : (s.touchTlb k).ioHistory = s.ioHistory := rfl

@[simp] theorem State.touchTlb_readGr (k : Nat) (j : Reg) : (s.touchTlb k).readGr j = s.readGr j := rfl

/-! ### purgeTlb -/

@[simp] theorem State.purgeTlb_params (va : Word) : (s.purgeTlb va).params = s.params := rfl
@[simp] theorem State.purgeTlb_gr (va : Word) : (s.purgeTlb va).gr = s.gr := rfl
@[simp] theorem State.purgeTlb_psw (va : Word) : (s.purgeTlb va).psw = s.psw := rfl
@[simp] theorem State.purgeTlb_cr (va : Word) : (s.purgeTlb va).cr = s.cr := rfl
@[simp] theorem State.purgeTlb_ir (va : Word) : (s.purgeTlb va).ir = s.ir := rfl
@[simp] theorem State.purgeTlb_res (va : Word) : (s.purgeTlb va).res = s.res := rfl
@[simp] theorem State.purgeTlb_tlb (va : Word) : (s.purgeTlb va).tlb = (purgeEntries s.tlb va) := rfl
@[simp] theorem State.purgeTlb_tlbTick (va : Word) : (s.purgeTlb va).tlbTick = s.tlbTick := rfl
@[simp] theorem State.purgeTlb_lastTrap (va : Word) : (s.purgeTlb va).lastTrap = s.lastTrap := rfl
@[simp] theorem State.purgeTlb_run (va : Word) : (s.purgeTlb va).run = s.run := rfl
@[simp] theorem State.purgeTlb_mem (va : Word) : (s.purgeTlb va).mem = s.mem := rfl
@[simp] theorem State.purgeTlb_ioHistory (va : Word) : (s.purgeTlb va).ioHistory = s.ioHistory := rfl

@[simp] theorem State.purgeTlb_readGr (va : Word) (j : Reg) : (s.purgeTlb va).readGr j = s.readGr j := rfl

/-! ### regionWrite -/

@[simp] theorem State.regionWrite_params (sp : Space) (pa : Word) (n : Nat) (v : Word) : (s.regionWrite sp pa n v).params = s.params := rfl
@[simp] theorem State.regionWrite_gr (sp : Space) (pa : Word) (n : Nat) (v : Word) : (s.regionWrite sp pa n v).gr = s.gr := rfl
@[simp] theorem State.regionWrite_psw (sp : Space) (pa : Word) (n : Nat) (v : Word) : (s.regionWrite sp pa n v).psw = s.psw := rfl
@[simp] theorem State.regionWrite_cr (sp : Space) (pa : Word) (n : Nat) (v : Word) : (s.regionWrite sp pa n v).cr = s.cr := rfl
@[simp] theorem State.regionWrite_ir (sp : Space) (pa : Word) (n : Nat) (v : Word) : (s.regionWrite sp pa n v).ir = s.ir := rfl
@[simp] theorem State.regionWrite_res (sp : Space) (pa : Word) (n : Nat) (v : Word) : (s.regionWrite sp pa n v).res = (s.res.afterWrite sp pa n) := rfl
@[simp] theorem State.regionWrite_tlb (sp : Space) (pa : Word) (n : Nat) (v : Word) : (s.regionWrite sp pa n v).tlb = s.tlb := rfl
@[simp] theorem State.regionWrite_tlbTick (sp : Space) (pa : Word) (n : Nat) (v : Word) : (s.regionWrite sp pa n v).tlbTick = s.tlbTick := rfl
@[simp] theorem State.regionWrite_lastTrap (sp : Space) (pa : Word) (n : Nat) (v : Word) : (s.regionWrite sp pa n v).lastTrap = s.lastTrap := rfl
@[simp] theorem State.regionWrite_run (sp : Space) (pa : Word) (n : Nat) (v : Word) : (s.regionWrite sp pa n v).run = s.run := rfl
@[simp] theorem State.regionWrite_mem (sp : Space) (pa : Word) (n : Nat) (v : Word) : (s.regionWrite sp pa n v).mem = (if s.usesDevice sp then s.mem else s.mem.writeBytes pa.toNat n v) := rfl
@[simp] theorem State.regionWrite_ioHistory (sp : Space) (pa : Word) (n : Nat) (v : Word) : (s.regionWrite sp pa n v).ioHistory = (if s.usesDevice sp then .write pa.toNat n (v.toNat % 2 ^ (8 * n)) :: s.ioHistory else s.ioHistory) := rfl

@[simp] theorem State.regionWrite_readGr (sp : Space) (pa : Word) (n : Nat) (v : Word) (j : Reg) : (s.regionWrite sp pa n v).readGr j = s.readGr j := rfl

/-! ### reserve -/

@[simp] theorem State.reserve_params (sp : Space) (pa : Word) (n : Nat) (v : Word) : (s.reserve sp pa n v).params = s.params := rfl
@[simp] theorem State.reserve_gr (sp : Space) (pa : Word) (n : Nat) (v : Word) : (s.reserve sp pa n v).gr = s.gr := rfl
@[simp] theorem State.reserve_psw (sp : Space) (pa : Word) (n : Nat) (v : Word) : (s.reserve sp pa n v).psw = s.psw := rfl
@[simp] theorem State.reserve_cr (sp : Space) (pa : Word) (n : Nat) (v : Word) : (s.reserve sp pa n v).cr = s.cr := rfl
@[simp] theorem State.reserve_ir (sp : Space) (pa : Word) (n : Nat) (v : Word) : (s.reserve sp pa n v).ir = s.ir := rfl
@[simp] theorem State.reserve_res (sp : Space) (pa : Word) (n : Nat) (v : Word) : (s.reserve sp pa n v).res = ({ valid := true, space := sp, pa := pa, len := n, value := v }) := rfl
@[simp] theorem State.reserve_tlb (sp : Space) (pa : Word) (n : Nat) (v : Word) : (s.reserve sp pa n v).tlb = s.tlb := rfl
@[simp] theorem State.reserve_tlbTick (sp : Space) (pa : Word) (n : Nat) (v : Word) : (s.reserve sp pa n v).tlbTick = s.tlbTick := rfl
@[simp] theorem State.reserve_lastTrap (sp : Space) (pa : Word) (n : Nat) (v : Word) : (s.reserve sp pa n v).lastTrap = s.lastTrap := rfl
@[simp] theorem State.reserve_run (sp : Space) (pa : Word) (n : Nat) (v : Word) : (s.reserve sp pa n v).run = s.run := rfl
@[simp] theorem State.reserve_mem (sp : Space) (pa : Word) (n : Nat) (v : Word) : (s.reserve sp pa n v).mem = s.mem := rfl
@[simp] theorem State.reserve_ioHistory (sp : Space) (pa : Word) (n : Nat) (v : Word) : (s.reserve sp pa n v).ioHistory = s.ioHistory := rfl

@[simp] theorem State.reserve_readGr (sp : Space) (pa : Word) (n : Nat) (v : Word) (j : Reg) : (s.reserve sp pa n v).readGr j = s.readGr j := rfl

/-! ### dropReservation -/

@[simp] theorem State.dropReservation_params : (s.dropReservation).params = s.params := rfl
@[simp] theorem State.dropReservation_gr : (s.dropReservation).gr = s.gr := rfl
@[simp] theorem State.dropReservation_psw : (s.dropReservation).psw = s.psw := rfl
@[simp] theorem State.dropReservation_cr : (s.dropReservation).cr = s.cr := rfl
@[simp] theorem State.dropReservation_ir : (s.dropReservation).ir = s.ir := rfl
@[simp] theorem State.dropReservation_res : (s.dropReservation).res = ({ s.res with valid := false }) := rfl
@[simp] theorem State.dropReservation_tlb : (s.dropReservation).tlb = s.tlb := rfl
@[simp] theorem State.dropReservation_tlbTick : (s.dropReservation).tlbTick = s.tlbTick := rfl
@[simp] theorem State.dropReservation_lastTrap : (s.dropReservation).lastTrap = s.lastTrap := rfl
@[simp] theorem State.dropReservation_run : (s.dropReservation).run = s.run := rfl
@[simp] theorem State.dropReservation_mem : (s.dropReservation).mem = s.mem := rfl
@[simp] theorem State.dropReservation_ioHistory : (s.dropReservation).ioHistory = s.ioHistory := rfl

@[simp] theorem State.dropReservation_readGr (j : Reg) : (s.dropReservation).readGr j = s.readGr j := rfl

/-! ### Reading and writing general registers (10_state.md R13, R14) -/

@[simp] theorem State.readGr_zero : s.readGr 0 = 0 := rfl

theorem State.readGr_writeGr (i j : Reg) (v : Word) :
    (s.writeGr i v).readGr j = if j = 0 then 0 else if i = j then v else s.readGr j := by
  unfold State.readGr State.writeGr
  by_cases hj : j = 0
  · simp [hj]
  · by_cases hi : i = 0
    · subst hi
      have h0 : ¬ (0 : Reg) = j := fun h => hj h.symm
      simp [hj, h0]
    · by_cases hij : i = j
      · subst hij; simp [hi]
      · have hv : i.val ≠ j.val := fun h => hij (Fin.ext h)
        simp [hj, hi, hij, hv]

@[simp] theorem State.readGr_writeGr_self (i : Reg) (v : Word) :
    (s.writeGr i v).readGr i = if i = 0 then 0 else v := by
  simp [State.readGr_writeGr]

theorem State.readGr_writeGr_of_ne {i j : Reg} (v : Word) (h : j ≠ i) :
    (s.writeGr i v).readGr j = s.readGr j := by
  rw [State.readGr_writeGr]
  by_cases hj : j = 0
  · simp [hj]
  · rw [if_neg hj, if_neg (fun hh : i = j => h hh.symm)]

/-- A write to GR0 changes nothing at all (10_state.md R13). -/
@[simp] theorem State.writeGr_zero (v : Word) : s.writeGr 0 v = s := rfl

/-- No write reaches the storage slot of GR0. -/
theorem State.writeGr_slot_zero (i : Reg) (v : Word) : (s.writeGr i v).gr[0] = s.gr[0] := by
  by_cases hi : i = 0
  · simp [hi]
  · have : i.val ≠ 0 := fun h => hi (Fin.ext h)
    simp [hi, this]

/-! ### The PSW as a 64-bit register (10_state.md R16, R21) -/

/-- The 64-bit PSW, bit by bit (10_state.md R16, R21). -/
theorem Psw.getLsbD_toWord (p : Psw) (i : Nat) :
    p.toWord.getLsbD i =
      if i < 32 then p.ia.getLsbD i
      else if i = 32 then p.user else if i = 33 then p.translate else if i = 34 then p.overflow else false := by
  obtain ⟨ia, u, t, v⟩ := p
  simp only [Psw.toWord, BitVec.getLsbD_setWidth, BitVec.getLsbD_append, BitVec.getLsbD_ofBool]
  by_cases h : i < 32
  · simp [h, show i < 64 by omega]
  · by_cases h32 : i = 32
    · simp [h32]
    · by_cases h33 : i = 33
      · simp [h33]
      · by_cases h34 : i = 34
        · simp [h34]
        · simp [h, h32, h33, h34, show i - 32 ≠ 0 by omega, show i - 32 - 1 ≠ 0 by omega,
            show i - 32 - 1 - 1 ≠ 0 by omega]

@[simp] theorem Psw.ofWord_toWord (p : Psw) : Psw.ofWord p.toWord = p := by
  obtain ⟨ia, u, t, v⟩ := p
  simp only [Psw.ofWord, Psw.mk.injEq, Psw.getLsbD_toWord]
  refine ⟨?_, by simp, by simp, by simp⟩
  apply BitVec.eq_of_getLsbD_eq
  intro i hi
  simp [Psw.getLsbD_toWord, hi]

/-- The control registers read back what was written, and only the slot written changes (10_state.md R25). -/
theorem State.readCr_writeCr (n m : CrSlot) (v : Word) :
    (s.writeCr n v).readCr m = if n = m ∧ m.recognized then some v else s.readCr m := by
  fin_cases n <;> fin_cases m <;> rfl

/-- A slot reads as a register exactly when its id is recognized (10_state.md R23, R24). -/
theorem State.readCr_isSome (n : CrSlot) : (s.readCr n).isSome = n.recognized := by
  fin_cases n <;> rfl

end Sys2Proof.Machine
end

