-- ==== Sys2Proof/Laws/Ops.lean ====
section
/-!
SUPPORT. One lemma per shared operation of Machine/Ops.lean that says once everything it can do, in the words of
Sys2Proof/Safety.lean: the TLB lookup, insert and purge, `translate`, the region read and write.
-/

namespace Sys2Proof.Machine

/-! ### Pages and the I/O window -/

theorem inIoWindow_iff (a : Word) : inIoWindow a = true ↔ InWindow a := by
  rw [inIoWindow, Bool.and_eq_true, decide_eq_true_iff, decide_eq_true_iff]
  rfl

theorem pageOffset_toNat (va : Word) : (pageOffset va).toNat = va.toNat % 16384 := by
  simp [pageOffset]

theorem pageOffset_eq (va : Word) : pageOffset va = BitVec.ofNat 64 (va.toNat % 16384) := by
  apply BitVec.eq_of_toNat_eq
  rw [pageOffset_toNat, BitVec.toNat_ofNat]
  have := va.isLt
  omega

theorem pageBase_toNat (va : Word) : (pageBase va).toNat = va.toNat - va.toNat % 16384 := by
  have h := va.isLt
  rw [pageBase, BitVec.toNat_sub, pageOffset_toNat]
  omega

theorem pageBase_eq (va : Word) : pageBase va = wordOf (va.toNat - va.toNat % 16384 : Nat) := by
  apply BitVec.eq_of_toNat_eq
  have := va.isLt
  rw [pageBase_toNat, wordOf, BitVec.ofInt_natCast, BitVec.toNat_ofNat]
  omega

theorem pageBase_aligned (va : Word) : PageAligned (pageBase va) := by
  rw [PageAligned, pageBase_toNat]
  omega

/-! ### The TLB lookup (20_memory.md R44) -/

theorem TlbEntry.covers_iff (e : TlbEntry) (va : Word) : e.covers va = true ↔ EntryFor e va := by
  simp [TlbEntry.covers, EntryFor, ← BitVec.toNat_inj, pageBase_toNat]

theorem HasRight_iff (e : TlbEntry) (kind : AccessKind) : e.grants kind = true ↔ HasRight e kind := by
  cases kind <;> rfl

theorem pidMatches_iff (e : TlbEntry) (c : ControlRegs) :
    e.pidMatches c = true ↔ (e.protectId.toNat = 0 ∨
      ∃ pid ∈ [c.pid0, c.pid1, c.pid2, c.pid3], e.protectId.toNat = pid.toNat % 2 ^ 32) := by
  have hw : ∀ v : Word, e.protectId = v.setWidth 32 ↔ e.protectId.toNat = v.toNat % 2 ^ 32 := fun v => by
    rw [← BitVec.toNat_inj, BitVec.toNat_setWidth]
  have h0 : e.protectId = 0#32 ↔ e.protectId.toNat = 0 := by
    rw [← BitVec.toNat_inj]
    rfl
  simp [TlbEntry.pidMatches, hw, h0, or_assoc]

/-- `Permitted` is the three conditions of 20_memory.md R45. -/
theorem permitted_iff (s : State) (e : TlbEntry) (kind : AccessKind) :
    permitted s e kind = true ↔ Permits s e kind := by
  simp only [permitted, Permits, Bool.and_eq_true, Bool.or_eq_true, Bool.not_eq_true', HasRight_iff, pidMatches_iff,
    and_assoc]

/-- What a lookup can answer: a miss and no change, or an entry for the page and its recency update. -/
theorem lookupTlb_cases {s t : State} {va : Word} {o : Option TlbEntry} (h : lookupTlb s va = (o, t)) :
    (o = none ∧ t = s ∧ ∀ e ∈ s.tlb, ¬ EntryFor e va) ∨
    ∃ k e, o = some e ∧ s.tlb[k]? = some e ∧ EntryFor e va ∧ t = s.touchTlb k := by
  unfold lookupTlb at h
  split at h
  · rename_i hk
    obtain ⟨rfl, rfl⟩ := Prod.mk.inj h
    refine .inl ⟨rfl, rfl, fun e he hc => ?_⟩
    have := List.findIdx?_eq_none_iff.1 hk e he
    rw [(TlbEntry.covers_iff e va).2 hc] at this
    exact absurd this (by decide)
  · rename_i k hk
    obtain ⟨rfl, rfl⟩ := Prod.mk.inj h
    obtain ⟨hlt, hcov, -⟩ := List.findIdx?_eq_some_iff_getElem.1 hk
    exact .inr ⟨k, s.tlb[k], List.getElem?_eq_getElem hlt, List.getElem?_eq_getElem hlt,
      (TlbEntry.covers_iff _ _).1 hcov, rfl⟩

/-- With one entry per page the entries of a page are one. -/
theorem OneEntryPerPage.eq_of_entryFor {tlb : List TlbEntry} (h : OneEntryPerPage tlb) {va : Word} {i j : Nat}
    {d e : TlbEntry} (hi : tlb[i]? = some d) (hj : tlb[j]? = some e) (hd : EntryFor d va) (he : EntryFor e va) :
    i = j := by
  obtain ⟨hi', rfl⟩ := List.getElem?_eq_some_iff.1 hi
  obtain ⟨hj', rfl⟩ := List.getElem?_eq_some_iff.1 hj
  have hv : tlb[i].virtualAddress = tlb[j].virtualAddress := BitVec.eq_of_toNat_eq (hd.2.trans he.2.symm)
  rcases Nat.lt_trichotomy i j with hlt | heq | hlt
  · exact absurd ⟨hd.1, he.1, hv⟩ (List.pairwise_iff_getElem.1 h i j hi' hj' hlt)
  · exact heq
  · exact absurd ⟨he.1, hd.1, hv.symm⟩ (List.pairwise_iff_getElem.1 h j i hj' hi' hlt)

/-- The recency update of a page with one entry changes that entry alone. -/
theorem modify_eq_stampPage {tlb : List TlbEntry} (h : OneEntryPerPage tlb) {va : Word} {k : Nat} {e : TlbEntry}
    (hk : tlb[k]? = some e) (he : EntryFor e va) (st : Nat) :
    tlb.modify k (fun d => { d with stamp := st }) = stampPage tlb va st := by
  apply List.ext_getElem?
  intro j
  rw [List.getElem?_modify, stampPage, List.getElem?_map]
  cases hj : tlb[j]? with
  | none => simp
  | some d =>
    by_cases hd : EntryFor d va
    · have hkj : k = j := h.eq_of_entryFor hk hj he hd
      simp [hkj, hd]
    · have hkj : k ≠ j := by
        rintro rfl
        rw [hk] at hj
        exact hd (Option.some.inj hj ▸ he)
      simp [hkj, hd]

/-- A lookup that hits, with one entry per page: the page's entry and its recency update (20_memory.md R44). -/
theorem lookupTlb_hit {s : State} {va : Word} {e : TlbEntry} (h : OneEntryPerPage s.tlb) (he : e ∈ s.tlb)
    (hv : EntryFor e va) : lookupTlb s va = (some e, s.touchedBy va) := by
  rcases hl : lookupTlb s va with ⟨o, t⟩
  rcases lookupTlb_cases hl with ⟨-, -, hno⟩ | ⟨k, d, rfl, hk, hd, rfl⟩
  · exact absurd hv (hno e he)
  · obtain ⟨j, hj, rfl⟩ := List.mem_iff_getElem.1 he
    have hkj : k = j := h.eq_of_entryFor hk (List.getElem?_eq_getElem hj) hd hv
    subst hkj
    rw [List.getElem?_eq_getElem hj] at hk
    cases hk
    have hx : ∃ d ∈ s.tlb, EntryFor d va := ⟨_, he, hv⟩
    rw [State.touchedBy, if_pos hx, State.touchTlb,
      modify_eq_stampPage h (List.getElem?_eq_getElem hj) hv]

/-- A lookup that misses changes nothing (20_memory.md R44). -/
theorem lookupTlb_miss {s : State} {va : Word} (h : ∀ e ∈ s.tlb, ¬ EntryFor e va) : lookupTlb s va = (none, s) := by
  rcases hl : lookupTlb s va with ⟨o, t⟩
  rcases lookupTlb_cases hl with ⟨rfl, rfl, -⟩ | ⟨k, d, -, hk, hd, -⟩
  · rfl
  · exact absurd hd (h d (List.mem_of_getElem? hk))

/-! ### Recency changes nothing else -/

theorem SameTlbButRecency.refl (s : State) : SameTlbButRecency s s :=
  ⟨rfl, le_refl _, fun _ e hk => ⟨e.stamp, hk, .inl rfl⟩⟩

theorem SameTlbButRecency.trans {s t u : State} (h : SameTlbButRecency s t) (g : SameTlbButRecency t u) :
    SameTlbButRecency s u := by
  obtain ⟨hl, ht, hk⟩ := h
  obtain ⟨gl, gt, gk⟩ := g
  refine ⟨gl.trans hl, ht.trans gt, fun k e he => ?_⟩
  obtain ⟨st, h1, h2⟩ := hk k e he
  obtain ⟨st', g1, g2⟩ := gk k _ h1
  refine ⟨st', g1, ?_⟩
  rcases g2 with rfl | g2
  · exact h2.imp id fun h2 => ⟨h2.1, h2.2.trans gt⟩
  · exact .inr ⟨lt_of_le_of_lt ht g2.1, g2.2⟩

theorem SameTlbButRecency.of_eq {s t : State} (h : t.tlb = s.tlb) (g : t.tlbTick = s.tlbTick) :
    SameTlbButRecency s t :=
  ⟨by rw [h], by rw [g], fun k e he => ⟨e.stamp, by rw [h]; exact he, .inl rfl⟩⟩

theorem sameTlbButRecency_touchTlb (s : State) (k : Nat) : SameTlbButRecency s (s.touchTlb k) := by
  refine ⟨by simp [State.touchTlb], by simp [State.touchTlb], fun j e he => ?_⟩
  by_cases hkj : k = j
  · exact ⟨s.tlbTick + 1, by simp [State.touchTlb, he, hkj], .inr ⟨by simp, by simp [State.touchTlb]⟩⟩
  · exact ⟨e.stamp, by simp [State.touchTlb, he, hkj], .inl rfl⟩

/-- `t` is `s` but for the TLB's recency: what a translation leaves, whatever it answers (20_memory.md R44, R52). -/
structure RecencyOnly (s t : State) : Prop where
  eq : t = { s with tlb := t.tlb, tlbTick := t.tlbTick }
  tlb : SameTlbButRecency s t
  touched : t = s ∨ ∃ k, t = s.touchTlb k

theorem RecencyOnly.refl (s : State) : RecencyOnly s s :=
  ⟨rfl, .refl s, .inl rfl⟩

theorem recencyOnly_touchTlb (s : State) (k : Nat) : RecencyOnly s (s.touchTlb k) :=
  ⟨rfl, sameTlbButRecency_touchTlb s k, .inr ⟨k, rfl⟩⟩

theorem lookupTlb_recencyOnly (s : State) (va : Word) : RecencyOnly s (lookupTlb s va).2 := by
  rcases hl : lookupTlb s va with ⟨o, t⟩
  rcases lookupTlb_cases hl with ⟨-, rfl, -⟩ | ⟨k, d, -, -, -, rfl⟩
  · exact .refl _
  · exact recencyOnly_touchTlb s k

section RecencyOnly
variable {s t : State} (h : RecencyOnly s t)
include h

theorem RecencyOnly.params : t.params = s.params := by rw [h.eq]
theorem RecencyOnly.gr : t.gr = s.gr := by rw [h.eq]
theorem RecencyOnly.psw : t.psw = s.psw := by rw [h.eq]
theorem RecencyOnly.cr : t.cr = s.cr := by rw [h.eq]
theorem RecencyOnly.ir : t.ir = s.ir := by rw [h.eq]
theorem RecencyOnly.res : t.res = s.res := by rw [h.eq]
theorem RecencyOnly.lastTrap : t.lastTrap = s.lastTrap := by rw [h.eq]
theorem RecencyOnly.run : t.run = s.run := by rw [h.eq]
theorem RecencyOnly.mem : t.mem = s.mem := by rw [h.eq]
theorem RecencyOnly.ioHistory : t.ioHistory = s.ioHistory := by rw [h.eq]
theorem RecencyOnly.readGr (j : Reg) : t.readGr j = s.readGr j := by simp only [State.readGr, h.gr]
theorem RecencyOnly.readCr (n : CrSlot) : t.readCr n = s.readCr n := by simp only [State.readCr, h.cr]

end RecencyOnly

/-! ### Translation (20_memory.md R43, R46) -/

/-- The routing and the bounds check. -/
theorem route_cases (p : Params) (pa : Word) (n : Nat) :
    (InWindow pa ∧ pa.toNat + n > 0xF0000000 + p.ioMemSize ∧ route p pa n = .trap .ioMemoryAddress) ∨
    (InWindow pa ∧ pa.toNat + n ≤ 0xF0000000 + p.ioMemSize ∧ route p pa n = .ok .io pa) ∨
    (¬ InWindow pa ∧ pa.toNat + n > p.physMemSize ∧ route p pa n = .trap .physicalMemoryAddress) ∨
    (¬ InWindow pa ∧ pa.toNat + n ≤ p.physMemSize ∧ route p pa n = .ok .phys pa) := by
  unfold route
  by_cases hw : InWindow pa
  · rw [if_pos ((inIoWindow_iff pa).2 hw)]
    by_cases hb : pa.toNat + n > 0xF0000000 + p.ioMemSize
    · exact .inl ⟨hw, hb, if_pos hb⟩
    · exact .inr (.inl ⟨hw, by omega, if_neg hb⟩)
  · rw [if_neg (fun h => hw ((inIoWindow_iff pa).1 h))]
    by_cases hb : pa.toNat + n > p.physMemSize
    · exact .inr (.inr (.inl ⟨hw, hb, if_pos hb⟩))
    · exact .inr (.inr (.inr ⟨hw, by omega, if_neg hb⟩))

/-- The check whether an address goes through the TLB. -/
theorem untranslated_iff (s : State) (va : Word) :
    (inIoWindow va || !s.psw.translate) = true ↔ ¬ Translated s va := by
  rw [Bool.or_eq_true, inIoWindow_iff, Translated]
  cases s.psw.translate <;> simp

/-- Translation of an address that does not go through the TLB. -/
theorem translate_direct {s : State} {va : Word} {n : Nat} (kind : AccessKind) (ha : va.toNat % n = 0)
    (ht : ¬ Translated s va) : translate s va n kind = (route s.params va n, s) := by
  rw [translate, if_neg (by omega), if_pos ((untranslated_iff s va).2 ht)]

/-- Translation of an address that goes through the TLB. -/
theorem translate_tlb {s : State} {va : Word} {n : Nat} (kind : AccessKind) (ha : va.toNat % n = 0)
    (ht : Translated s va) : translate s va n kind =
      match lookupTlb s va with
      | (none, s1) => (.trap .tlbAccess, s1)
      | (some e, s1) =>
        if permitted s e kind then (route s.params (e.physicalAddress + pageOffset va) n, s1)
        else (.trap .protection, s1) := by
  rw [translate, if_neg (by omega), if_neg (fun h => (untranslated_iff s va).1 h ht)]
  try rfl

/-- A translation changes nothing but recency, whatever it answers (20_memory.md R44, R52). -/
theorem translate_recencyOnly (s : State) (va : Word) (n : Nat) (kind : AccessKind) :
    RecencyOnly s (translate s va n kind).2 := by
  have hl := lookupTlb_recencyOnly s va
  unfold translate
  split
  · exact .refl s
  · split
    · exact .refl s
    · split
      · rename_i h; rw [h] at hl; exact hl
      · rename_i h; rw [h] at hl
        split <;> exact hl

/-- What an answered translation says about its address, in every state (20_memory.md R43). -/
theorem translate_ok {s t : State} {va : Word} {n : Nat} {kind : AccessKind} {sp : Space} {pa : Word}
    (h : translate s va n kind = (.ok sp pa, t)) :
    ReachesPhysical s va n kind pa ∧
      ((sp = .io ∧ InWindow pa ∧ pa.toNat + n ≤ 0xF0000000 + s.params.ioMemSize) ∨
        (sp = .phys ∧ ¬ InWindow pa ∧ pa.toNat + n ≤ s.params.physMemSize)) := by
  have hroute : ∀ q : Word, route s.params q n = .ok sp pa → q = pa ∧
      ((sp = .io ∧ InWindow pa ∧ pa.toNat + n ≤ 0xF0000000 + s.params.ioMemSize) ∨
        (sp = .phys ∧ ¬ InWindow pa ∧ pa.toNat + n ≤ s.params.physMemSize)) := by
    intro q hq
    rcases route_cases s.params q n with ⟨-, -, hr⟩ | ⟨hw, hb, hr⟩ | ⟨-, -, hr⟩ | ⟨hw, hb, hr⟩ <;>
      rw [hr] at hq <;> cases hq
    · exact ⟨rfl, .inl ⟨rfl, hw, hb⟩⟩
    · exact ⟨rfl, .inr ⟨rfl, hw, hb⟩⟩
  by_cases ha : va.toNat % n = 0
  · by_cases ht : Translated s va
    · rw [translate_tlb kind ha ht] at h
      rcases hl : lookupTlb s va with ⟨o, s1⟩
      rw [hl] at h
      rcases lookupTlb_cases hl with ⟨rfl, -, -⟩ | ⟨k, e, rfl, hk, he, -⟩
      · cases h
      · simp only at h
        split at h
        · rename_i hp
          obtain ⟨rfl, hb⟩ := hroute _ (Prod.mk.inj h).1
          exact ⟨⟨ha, .inr ⟨ht, e, List.mem_of_getElem? hk, he, (permitted_iff s e kind).1 hp,
            by rw [pageOffset_eq]⟩⟩, hb⟩
        · cases h
    · rw [translate_direct kind ha ht] at h
      obtain ⟨rfl, hb⟩ := hroute _ (Prod.mk.inj h).1
      exact ⟨⟨ha, .inl ⟨ht, rfl⟩⟩, hb⟩
  · rw [translate, if_pos ha] at h
    cases h

/-- A trap of a translation is one of the five of 20_memory.md R43. -/
theorem translate_trap {s t : State} {va : Word} {n : Nat} {kind : AccessKind} {c : TrapCode}
    (h : translate s va n kind = (.trap c, t)) :
    c = .alignment ∨ c = .tlbAccess ∨ c = .protection ∨ c = .ioMemoryAddress ∨ c = .physicalMemoryAddress := by
  have hroute : ∀ q : Word, route s.params q n = .trap c → c = .ioMemoryAddress ∨ c = .physicalMemoryAddress := by
    intro q hq
    rcases route_cases s.params q n with ⟨-, -, hr⟩ | ⟨-, -, hr⟩ | ⟨-, -, hr⟩ | ⟨-, -, hr⟩ <;>
      rw [hr] at hq <;> cases hq
    · exact .inl rfl
    · exact .inr rfl
  have h1 := congrArg Prod.fst h
  unfold translate at h1
  split at h1
  · cases h1; exact .inl rfl
  · split at h1
    · exact .inr (.inr (.inr (hroute _ h1)))
    · split at h1
      · cases h1; exact .inr (.inl rfl)
      · split at h1
        · exact .inr (.inr (.inr (hroute _ h1)))
        · cases h1; exact .inr (.inr (.inl rfl))

/-! ### Region access (20_memory.md R47, R48, R60) -/

/-- `s` with the device history a read leaves. -/
theorem regionRead_eq (s : State) (sp : Space) (pa : Word) (n : Nat) :
    regionRead s sp pa n =
      (BitVec.ofNat 64 (regionValue s sp pa n), { s with ioHistory := historyAfterRead s sp pa n }) := by
  unfold regionRead regionValue historyAfterRead State.usesDevice
  by_cases h : sp = .io ∧ s.params.ioDevice = .attached
  · simp [h]
  · have h' : (sp == .io && s.params.ioDevice == .attached) = false := by
      rw [Bool.and_eq_false_iff]
      by_cases h1 : sp = .io
      · exact .inr (by simpa using fun h2 => h ⟨h1, h2⟩)
      · exact .inl (by simpa using h1)
    simp [h, h', Memory.readBytes_eq]

/-- A value read fits its length. -/
theorem regionValue_lt (s : State) (sp : Space) (pa : Word) (n : Nat) : regionValue s sp pa n < 2 ^ (8 * n) := by
  unfold regionValue
  split
  · exact Nat.mod_lt _ (Nat.two_pow_pos _)
  · have := littleEndian_lt (fun i => s.mem.read (pa.toNat + i)) n
    rwa [show (256 : Nat) = 2 ^ 8 by rfl, ← pow_mul] at this

theorem Reservation.overlaps_iff (q : Reservation) (pa : Word) (n : Nat) :
    q.overlaps pa n = true ↔ ∃ a, pa.toNat ≤ a ∧ a < pa.toNat + n ∧ q.pa.toNat ≤ a ∧ a < q.pa.toNat + q.len := by
  rw [Reservation.overlaps, decide_eq_true_iff]
  constructor
  · intro h
    exact ⟨max pa.toNat q.pa.toNat, by omega, by omega, by omega, by omega⟩
  · rintro ⟨a, h1, h2, h3, h4⟩
    omega

/-- The reservation rule of a region write (20_memory.md R60 (a)). -/
theorem Reservation.afterWrite_spec (q : Reservation) (sp : Space) (pa : Word) (n : Nat) :
    q.AfterWrite (q.afterWrite sp pa n) sp pa n := by
  unfold Reservation.AfterWrite Reservation.afterWrite Reservation.Touched
  constructor
  · rintro ⟨h1, h2⟩
    exact if_pos ⟨h1, (Reservation.overlaps_iff q pa n).2 h2⟩
  · intro h
    exact if_neg fun g => h ⟨g.1, (Reservation.overlaps_iff q pa n).1 g.2⟩

theorem Reservation.AfterWrite.eq {q q' : Reservation} {sp : Space} {pa : Word} {n : Nat}
    (h : q.AfterWrite q' sp pa n) : q' = q ∨ q' = { q with valid := false } := by
  by_cases ht : q.Touched sp pa n
  · exact .inr (h.1 ht)
  · exact .inl (h.2 ht)

/-- Memory and the device after a region write (20_memory.md R48). -/
theorem regionWrite_written (s : State) (sp : Space) (pa : Word) (n : Nat) (v : Word) :
    RegionWritten s (s.regionWrite sp pa n v) sp pa n v := by
  unfold RegionWritten
  by_cases h : sp = .io ∧ s.params.ioDevice = .attached
  · have h' : s.usesDevice sp = true := by simp [State.usesDevice, h]
    rw [if_pos h]
    simp [State.regionWrite, h']
  · have h' : s.usesDevice sp = false := by
      rw [State.usesDevice, Bool.and_eq_false_iff]
      by_cases h1 : sp = .io
      · exact .inr (by simpa using fun h2 => h ⟨h1, h2⟩)
      · exact .inl (by simpa using h1)
    rw [if_neg h]
    refine ⟨fun i hi => ?_, fun a ha => ?_, ?_⟩
    · simp only [State.regionWrite, h', Bool.false_eq_true, if_false]
      exact Memory.read_writeBytes_inside _ _ _ _ hi
    · simp only [State.regionWrite, h', Bool.false_eq_true, if_false]
      exact Memory.read_writeBytes_outside _ _ _ _ ha
    · simp [State.regionWrite, h']

/-- Outside the bytes written memory is as it was, in either kind of region. -/
theorem RegionWritten.outside {s t : State} {sp : Space} {pa : Word} {n : Nat} {v : Word}
    (h : RegionWritten s t sp pa n v) {a : Nat} (ha : a < pa.toNat ∨ pa.toNat + n ≤ a) :
    t.mem.read a = s.mem.read a := by
  unfold RegionWritten at h
  split at h
  · exact h.1 a
  · exact h.2.1 a ha

/-! ### Extension (20_memory.md R49) -/

theorem extendLoaded_eq {v n : Nat} (hn : n = 1 ∨ n = 2 ∨ n = 4 ∨ n = 8) (hv : v < 2 ^ (8 * n)) (sx : Bool) :
    extendLoaded (BitVec.ofNat 64 v) n sx = extended v n sx := by
  have h64 : v < 2 ^ 64 := by
    rcases hn with rfl | rfl | rfl | rfl <;> omega
  have hz : ((BitVec.ofNat 64 v).setWidth (8 * n)).setWidth 64 = wordOf v := by
    apply BitVec.eq_of_toNat_eq
    rw [wordOf, BitVec.ofInt_natCast, BitVec.toNat_setWidth, BitVec.toNat_setWidth, BitVec.toNat_ofNat,
      Nat.mod_eq_of_lt h64, Nat.mod_eq_of_lt hv, Nat.mod_eq_of_lt h64]
  have hi : ((BitVec.ofNat 64 v).setWidth (8 * n)).signExtend 64 =
      if 2 ^ (8 * n - 1) ≤ v then wordOf ((v : Int) - 2 ^ (8 * n)) else wordOf v := by
    rw [BitVec.signExtend, BitVec.toInt_eq_toNat_cond, BitVec.toNat_setWidth, BitVec.toNat_ofNat,
      Nat.mod_eq_of_lt h64, Nat.mod_eq_of_lt hv]
    by_cases hs : 2 ^ (8 * n - 1) ≤ v
    · rw [if_neg (by rcases hn with rfl | rfl | rfl | rfl <;> omega), if_pos hs]
      norm_cast
    · rw [if_pos (by rcases hn with rfl | rfl | rfl | rfl <;> omega), if_neg hs]
  unfold extendLoaded extended
  by_cases h8 : n < 8
  · cases sx
    · simp [hz]
    · simp [h8, hi]
  · simp [h8, hz]

/-! ### Insert and purge (20_memory.md R53, R54) -/

theorem purgeEntries_eq (tlb : List TlbEntry) (va : Word) : purgeEntries tlb va = purgedTlb tlb va := by
  unfold purgeEntries purgedTlb
  refine List.map_congr_left fun e _ => ?_
  by_cases h : EntryFor e va
  · rw [if_pos ((TlbEntry.covers_iff e va).2 h), if_pos h]
  · rw [if_neg (fun hc => h ((TlbEntry.covers_iff e va).1 hc)), if_neg h]

/-- The smallest stamp is a stamp and bounds every stamp. -/
theorem smallestStamp_spec {tlb : List TlbEntry} {m : Nat} (h : smallestStamp tlb = some m) :
    (∃ e ∈ tlb, e.stamp = m) ∧ ∀ e ∈ tlb, m ≤ e.stamp := by
  induction tlb generalizing m with
  | nil => cases h
  | cons d tlb ih =>
    rw [smallestStamp] at h
    split at h
    · rename_i hn
      cases h
      cases tlb with
      | nil => simp
      | cons e tlb =>
        rw [smallestStamp] at hn
        split at hn <;> cases hn
    · rename_i k hk
      cases h
      obtain ⟨⟨e, he, hek⟩, hall⟩ := ih hk
      constructor
      · rcases Nat.le_total d.stamp k with hle | hle
        · exact ⟨d, List.mem_cons_self, by omega⟩
        · exact ⟨e, List.mem_cons_of_mem _ he, by omega⟩
      · intro f hf
        rcases List.mem_cons.1 hf with rfl | hf
        · omega
        · have := hall f hf; omega

theorem smallestStamp_isSome {tlb : List TlbEntry} (h : 0 < tlb.length) : ∃ m, smallestStamp tlb = some m := by
  cases tlb with
  | nil => cases h
  | cons d tlb =>
    rw [smallestStamp]
    split <;> exact ⟨_, rfl⟩

/-- The slot an insert writes is the one 20_memory.md R53 names. -/
theorem victimSlot_spec {tlb : List TlbEntry} {k : Nat} (h : victimSlot tlb = some k) : IsVictim tlb k := by
  unfold victimSlot at h
  split at h
  · rename_i j hj
    cases h
    obtain ⟨hlt, hv, hlow⟩ := List.findIdx?_eq_some_iff_getElem.1 hj
    refine ⟨tlb[k], List.getElem?_eq_getElem hlt, .inl ⟨by simpa using hv, fun i f hi hf => ?_⟩⟩
    obtain ⟨hi', rfl⟩ := List.getElem?_eq_some_iff.1 hf
    simpa using hlow i hi
  · rename_i hall
    split at h
    · cases h
    · rename_i m hm
      obtain ⟨hlt, hst, hlow⟩ := List.findIdx?_eq_some_iff_getElem.1 h
      have hall' : ∀ f ∈ tlb, f.valid = true := fun f hf => by
        simpa using List.findIdx?_eq_none_iff.1 hall f hf
      obtain ⟨-, hmin⟩ := smallestStamp_spec hm
      have hek : tlb[k].stamp = m := by simpa using hst
      refine ⟨tlb[k], List.getElem?_eq_getElem hlt, .inr ⟨hall', fun f hf => hek ▸ hmin f hf, fun i f hi hf => ?_⟩⟩
      obtain ⟨hi', rfl⟩ := List.getElem?_eq_some_iff.1 hf
      have hne : tlb[i].stamp ≠ m := by simpa using hlow i hi
      have := hmin _ (List.getElem_mem hi')
      omega

theorem victimSlot_isSome {tlb : List TlbEntry} (h : 0 < tlb.length) : ∃ k, victimSlot tlb = some k := by
  unfold victimSlot
  split
  · exact ⟨_, rfl⟩
  · obtain ⟨m, hm⟩ := smallestStamp_isSome h
    rw [hm]
    obtain ⟨⟨e, he, hem⟩, -⟩ := smallestStamp_spec hm
    cases hf : tlb.findIdx? (fun e => e.stamp == m) with
    | none =>
      have := List.findIdx?_eq_none_iff.1 hf e he
      simp [hem] at this
    | some k => exact ⟨k, hf⟩

theorem purgedTlb_length (tlb : List TlbEntry) (va : Word) : (purgedTlb tlb va).length = tlb.length := by
  simp [purgedTlb]

/-- An insert answers a next state exactly where the TLB has an entry, and what it then is (20_memory.md R53). -/
theorem tlbInsert_next {s : State} (h : 0 < s.tlb.length) (va pa : Word) (aid : BitVec 8) (pid : BitVec 32) :
    ∃ tlb', tlbInsert s va pa aid pid = .next { s with tlbTick := s.tlbTick + 1, tlb := tlb' } ∧
      InsertedTlb s.tlb tlb' va pa aid pid (s.tlbTick + 1) := by
  obtain ⟨k, hk⟩ := victimSlot_isSome (tlb := purgedTlb s.tlb va) (by rw [purgedTlb_length]; exact h)
  refine ⟨_, ?_, k, victimSlot_spec hk, rfl⟩
  rw [tlbInsert, purgeEntries_eq, hk]
  simp only [newTlbEntry, pageBase_eq]

/-- The one way an insert stops. -/
theorem tlbInsert_cases {s t : State} {va pa : Word} {aid : BitVec 8} {pid : BitVec 32}
    (h : tlbInsert s va pa aid pid = .next t) :
    ∃ tlb', t = { s with tlbTick := s.tlbTick + 1, tlb := tlb' } ∧
      InsertedTlb s.tlb tlb' va pa aid pid (s.tlbTick + 1) := by
  have hpos : 0 < s.tlb.length := by
    rcases Nat.eq_zero_or_pos s.tlb.length with h0 | h0
    · rw [tlbInsert, List.length_eq_zero_iff.1 h0] at h
      simp [purgeEntries, victimSlot, smallestStamp] at h
    · exact h0
  obtain ⟨tlb', h', hi⟩ := tlbInsert_next hpos va pa aid pid
  rw [h'] at h
  cases h
  exact ⟨tlb', rfl, hi⟩

end Sys2Proof.Machine
end

