-- ==== Sys2Proof/Laws/Exec.lean ====
section
/-!
SUPPORT. Everything an instruction can do, said once: `exec_cases` gives every next state of `exec`, and
`exec_answers` says that there is one. Whole-machine statements go by these cases instead of by 125 meanings.
-/

namespace Sys2Proof.Machine

/-- What kind of state an instruction may write beside a general register and PSW.IA. -/
inductive InstrKind where
  | plain
  | store
  | loadReserve
  | storeConditional
  | controlWrite
  | tlbWrite
  | status
  | halting
  deriving DecidableEq, Repr

/-- The kind of each instruction. -/
def kindOf : Instr → InstrKind
  | .stBO _ _ _ | .stBX _ _ _ | .stHO _ _ _ | .stHX _ _ _ | .stWO _ _ _ | .stWX _ _ _ | .stDO _ _ _
  | .stDX _ _ _ => .store
  | .ldrBO _ _ _ | .ldrBX _ _ _ | .ldrBSO _ _ _ | .ldrBSX _ _ _ | .ldrHO _ _ _ | .ldrHX _ _ _ | .ldrHSO _ _ _
  | .ldrHSX _ _ _ | .ldrWO _ _ _ | .ldrWX _ _ _ | .ldrWSO _ _ _ | .ldrWSX _ _ _ | .ldrDO _ _ _ | .ldrDX _ _ _
  | .ldrDSO _ _ _ | .ldrDSX _ _ _ => .loadReserve
  | .stcBO _ _ _ | .stcBX _ _ _ | .stcHO _ _ _ | .stcHX _ _ _ | .stcWO _ _ _ | .stcWX _ _ _ | .stcDO _ _ _
  | .stcDX _ _ _ => .storeConditional
  | .mtcr _ _ => .controlWrite
  | .tlbIns _ _ _ | .tlbPrg _ => .tlbWrite
  | .rsm _ _ | .ssm _ _ | .rfi _ => .status
  | .halt => .halting
  | _ => .plain

/-- The register an instruction writes, if it writes one (10_state.md R15). -/
def destinationOf : Instr → Option Reg
  | .addR r _ _ | .addI r _ _ | .subR r _ _ | .subI r _ _ | .andR r _ _ | .andI r _ _ | .orR r _ _ | .orI r _ _
  | .xorR r _ _ | .xorI r _ _ | .cmpEqR r _ _ | .cmpEqI r _ _ | .cmpNeR r _ _ | .cmpNeI r _ _ | .cmpLtR r _ _
  | .cmpLtI r _ _ | .cmpLeR r _ _ | .cmpLeI r _ _ | .cmpGtR r _ _ | .cmpGtI r _ _ | .cmpGeR r _ _ | .cmpGeI r _ _
  | .cmpLtuR r _ _ | .cmpLtuI r _ _ | .cmpGeuR r _ _ | .cmpGeuI r _ _ | .extru r _ _ _ | .extruShamt r _ _
  | .extrs r _ _ _ | .extrsShamt r _ _ | .dep r _ _ _ | .depShamt r _ _ | .shlR r _ _ | .shlI r _ _ | .shlShamt r _
  | .shrR r _ _ | .shrI r _ _ | .shrShamt r _ | .shraR r _ _ | .shraI r _ _ | .shraShamt r _ | .ldiL r _ | .ldiM r _
  | .ldiU r _ | .ldiT r _ | .ldo r _ _ => some r
  | .ldBO r _ _ | .ldBX r _ _ | .ldBSO r _ _ | .ldBSX r _ _ | .ldHO r _ _ | .ldHX r _ _ | .ldHSO r _ _ | .ldHSX r _ _
  | .ldWO r _ _ | .ldWX r _ _ | .ldWSO r _ _ | .ldWSX r _ _ | .ldDO r _ _ | .ldDX r _ _ | .ldDSO r _ _
  | .ldDSX r _ _ => some r
  | .ldrBO r _ _ | .ldrBX r _ _ | .ldrBSO r _ _ | .ldrBSX r _ _ | .ldrHO r _ _ | .ldrHX r _ _ | .ldrHSO r _ _
  | .ldrHSX r _ _ | .ldrWO r _ _ | .ldrWX r _ _ | .ldrWSO r _ _ | .ldrWSX r _ _ | .ldrDO r _ _ | .ldrDX r _ _
  | .ldrDSO r _ _ | .ldrDSX r _ _ => some r
  | .stcBO r _ _ | .stcBX r _ _ | .stcHO r _ _ | .stcHX r _ _ | .stcWO r _ _ | .stcWX r _ _ | .stcDO r _ _
  | .stcDX r _ _ => some r
  | .b r _ | .br r _ | .bv r _ _ => some r
  | .mfcr r _ | .lpa r _ | .prbR r _ | .prbW r _ | .prbX r _ | .rsm r _ | .ssm r _ => some r
  | _ => none

/-- Everything an instruction can do. `u` is always the state after the instruction's own translation, if it makes
one, which differs from `s` in TLB recency only. -/
inductive ExecCase (i : Instr) (s t : State) : Prop where
  /-- A trap (60_exceptions.md R140); IllegalInstruction only of a reserved control-register id (43_sys.md R124). -/
  | trap (u : State) (c : TrapCode) (info1 info2 info3 : BitVec 32) (hu : RecencyOnly s u) (hc : c ≠ .noTrap)
      (hi : c = .illegalInstruction → i.wellFormed = false) (ht : t = u.raise c info1 info2 info3)
  /-- A register result, a branch, or nothing; an attached device may have answered a read. -/
  | result (u : State) (r : Reg) (v : Word) (ia : InstrAddr) (history : List IoEvent) (hk : kindOf i = .plain)
      (hu : RecencyOnly s u) (hr : r = 0 ∨ destinationOf i = some r)
      (ht : t = (({ u with ioHistory := history } : State).writeGr r v).retireTo ia)
  | store (u : State) (sp : Space) (pa ea v : Word) (n : Nat) (hk : kindOf i = .store)
      (hn : n = 1 ∨ n = 2 ∨ n = 4 ∨ n = 8) (hu : translate s ea n .write = (.ok sp pa, u))
      (ht : t = (u.regionWrite sp pa n v).retire)
  | loadReserve (u : State) (sp : Space) (pa ea v : Word) (n : Nat) (r : Reg) (history : List IoEvent)
      (hk : kindOf i = .loadReserve) (hr : destinationOf i = some r) (hn : n = 1 ∨ n = 2 ∨ n = 4 ∨ n = 8)
      (hu : translate s ea n .read = (.ok sp pa, u))
      (ht : t = ((({ u with ioHistory := history } : State).reserve sp pa n v).writeGr r v).retire)
  | conditionalStored (u : State) (sp : Space) (pa ea v : Word) (n : Nat) (r : Reg) (hk : kindOf i = .storeConditional)
      (hr : destinationOf i = some r) (hn : n = 1 ∨ n = 2 ∨ n = 4 ∨ n = 8)
      (hu : translate s ea n .write = (.ok sp pa, u))
      (ht : t = ((u.dropReservation.regionWrite sp pa n v).writeGr r 1).retire)
  | conditionalFailed (u : State) (r : Reg) (hk : kindOf i = .storeConditional) (hr : destinationOf i = some r)
      (hu : RecencyOnly s u) (ht : t = (u.dropReservation.writeGr r 0).retire)
  | controlWrite (n : CrSlot) (v : Word) (hk : kindOf i = .controlWrite) (hn : n = 1 ∨ s.psw.user = false)
      (ht : t = (s.writeCr n v).retire)
  | tlbInserted (u : State) (va pa : Word) (aid : BitVec 8) (pid : BitVec 32) (hk : kindOf i = .tlbWrite)
      (hp : s.psw.user = false) (hu : tlbInsert s va pa aid pid = .next u) (ht : t = u.retire)
  | tlbPurged (va : Word) (hk : kindOf i = .tlbWrite) (hp : s.psw.user = false) (ht : t = (s.purgeTlb va).retire)
  | status (p : Psw) (r : Reg) (v : Word) (hk : kindOf i = .status) (hr : destinationOf i = some r)
      (hp : s.psw.user = false) (ht : t = (({ s with psw := p } : State).writeGr r v).retire)
  | restored (v : Word) (hk : kindOf i = .status) (hp : s.psw.user = false) (ht : t = s.restorePsw v)
  | halted (hk : kindOf i = .halting) (hp : s.psw.user = false) (ht : t = ({ s with run := .halted } : State).retire)

section Shared
variable {i : Instr} {s t : State}

/-! ### The shared meanings -/

theorem execCase_writeResult {r : Reg} {v : Word} (hk : kindOf i = .plain) (hr : destinationOf i = some r)
    (h : writeResult r v s = .next t) : ExecCase i s t := by
  cases h
  exact .result s r v (s.psw.ia + 4) s.ioHistory hk (.refl s) (.inr hr) rfl

theorem execCase_addResult {r : Reg} {x y : Word} (hk : kindOf i = .plain) (hr : destinationOf i = some r)
    (h : addResult r x y s = .next t) : ExecCase i s t := by
  unfold addResult at h
  split at h
  · cases h
    exact .trap s .overflow s.ir s.psw.ia 0 (.refl s) (by decide) (by intro hc; cases hc) rfl
  · exact execCase_writeResult hk hr h

theorem execCase_subResult {r : Reg} {x y : Word} (hk : kindOf i = .plain) (hr : destinationOf i = some r)
    (h : subResult r x y s = .next t) : ExecCase i s t := by
  unfold subResult at h
  split at h
  · cases h
    exact .trap s .overflow s.ir s.psw.ia 0 (.refl s) (by decide) (by intro hc; cases hc) rfl
  · exact execCase_writeResult hk hr h

/-- A trap of a data access. -/
theorem execCase_dataTrap {c : TrapCode} {ea : Word} {n : Nat} {kind : AccessKind} {u : State}
    (hu : translate s ea n kind = (.trap c, u)) (i1 i2 i3 : BitVec 32) (ht : t = u.raise c i1 i2 i3) :
    ExecCase i s t := by
  have hro : RecencyOnly s u := by
    have := translate_recencyOnly s ea n kind
    rwa [hu] at this
  refine .trap u c i1 i2 i3 hro ?_ ?_ ht <;>
    rcases translate_trap hu with rfl | rfl | rfl | rfl | rfl <;> simp

theorem recencyOnly_of_translate {ea : Word} {n : Nat} {kind : AccessKind} {u : State} {x : Translation}
    (hu : translate s ea n kind = (x, u)) : RecencyOnly s u := by
  have := translate_recencyOnly s ea n kind
  rwa [hu] at this

theorem execCase_loadValue {len : AccessLen} {sx : Bool} {r : Reg} {ea : Word} (hk : kindOf i = .plain)
    (hr : destinationOf i = some r) (h : loadValue len sx r ea s = .next t) : ExecCase i s t := by
  unfold loadValue at h
  split at h
  · rename_i hu
    cases h
    exact execCase_dataTrap hu _ _ _ rfl
  · rename_i sp pa u hu
    simp only [regionRead_eq] at h
    cases h
    exact .result u r _ _ _ hk (recencyOnly_of_translate hu) (.inr hr) rfl

theorem execCase_storeValue {len : AccessLen} {r : Reg} {ea : Word} (hk : kindOf i = .store)
    (h : storeValue len r ea s = .next t) : ExecCase i s t := by
  unfold storeValue at h
  split at h
  · rename_i hu
    cases h
    exact execCase_dataTrap hu _ _ _ rfl
  · rename_i hu
    cases h
    exact .store _ _ _ ea _ _ hk len.bytes_cases hu rfl

theorem execCase_loadReserve {len : AccessLen} {sx : Bool} {r : Reg} {ea : Word} (hk : kindOf i = .loadReserve)
    (hr : destinationOf i = some r) (h : loadReserve len sx r ea s = .next t) : ExecCase i s t := by
  unfold loadReserve at h
  split at h
  · rename_i hu
    cases h
    exact execCase_dataTrap hu _ _ _ rfl
  · rename_i hu
    simp only [regionRead_eq] at h
    cases h
    exact .loadReserve _ _ _ ea _ _ r _ hk hr len.bytes_cases hu rfl

theorem execCase_storeConditional {len : AccessLen} {r : Reg} {ea : Word} (hk : kindOf i = .storeConditional)
    (hr : destinationOf i = some r) (h : storeConditional len r ea s = .next t) : ExecCase i s t := by
  unfold storeConditional at h
  split at h
  · rename_i hu
    cases h
    exact execCase_dataTrap hu _ _ _ rfl
  · rename_i hu
    split at h
    · cases h
      exact .conditionalStored _ _ _ ea _ _ r hk hr len.bytes_cases hu rfl
    · cases h
      exact .conditionalFailed _ r hk hr (recencyOnly_of_translate hu) rfl

theorem execCase_linkAndBranch {r : Reg} {ia : InstrAddr} (hk : kindOf i = .plain) (hr : destinationOf i = some r)
    (h : linkAndBranch r ia s = .next t) : ExecCase i s t := by
  cases h
  exact .result s r _ ia s.ioHistory hk (.refl s) (.inr hr) rfl

theorem execCase_branchIf {taken : Bool} {ia : InstrAddr} (hk : kindOf i = .plain)
    (h : branchIf taken ia s = .next t) : ExecCase i s t := by
  cases h
  cases taken
  · exact .result s 0 0 (s.psw.ia + 4) s.ioHistory hk (.refl s) (.inl rfl) rfl
  · exact .result s 0 0 ia s.ioHistory hk (.refl s) (.inl rfl) rfl

theorem execCase_probe {kind : AccessKind} {r : Reg} {va : Word} (hk : kindOf i = .plain)
    (hr : destinationOf i = some r) (h : probe kind r va s = .next t) : ExecCase i s t := by
  unfold probe at h
  split at h <;>
  · rename_i hu
    cases h
    exact .result _ r _ _ _ hk (recencyOnly_of_translate hu) (.inr hr) rfl

/-- A privileged instruction traps in user mode, else it has its effect. -/
theorem execCase_privileged {effect : Result} (he : s.psw.user = false → effect = .next t → ExecCase i s t)
    (h : privileged s effect = .next t) : ExecCase i s t := by
  unfold privileged at h
  split at h
  · cases h
    exact .trap s .privilegeViolation s.ir s.psw.ia 0 (.refl s) (by decide) (by intro hc; cases hc) rfl
  · rename_i hp
    exact he (by simpa using hp) h

end Shared

/-- A control-register read fails exactly for a reserved id. -/
theorem readCr_none_iff (s : State) (n : CrSlot) : s.readCr n = none ↔ n.recognized = false := by
  rw [← State.readCr_isSome s n]
  cases s.readCr n <;> simp

/-- Every next state of an instruction is one of the cases. -/
theorem exec_cases {i : Instr} {s t : State} (h : exec i s = .next t) : ExecCase i s t := by
  cases i
  case nop =>
    cases h
    exact .result s 0 0 (s.psw.ia + 4) s.ioHistory rfl (.refl s) (.inl rfl) rfl
  case ca =>
    cases h
    exact .result s 0 0 (s.psw.ia + 4) s.ioHistory rfl (.refl s) (.inl rfl) rfl
  case mbr b =>
    cases h
    exact .result s 0 0 _ s.ioHistory rfl (.refl s) (.inl rfl) rfl
  case trap code =>
    cases h
    exact .trap s .softwareTrap _ _ _ (.refl s) (by decide) (by intro hc; cases hc) rfl
  case mfcr r n =>
    simp only [exec, execMfcr] at h
    split at h
    · rename_i hn
      cases h
      exact .trap s .illegalInstruction s.ir s.psw.ia 0 (.refl s) (by decide)
        (fun _ => by simpa [Instr.wellFormed, Instr.crSlot?] using (readCr_none_iff s n).1 hn) rfl
    · cases h
      exact .result s r _ (s.psw.ia + 4) s.ioHistory rfl (.refl s) (.inr rfl) rfl
  case mtcr n r =>
    simp only [exec, execMtcr] at h
    split at h
    · split at h
      · cases h
        exact .trap s .privilegeViolation s.ir s.psw.ia 0 (.refl s) (by decide) (by intro hc; cases hc) rfl
      · rename_i hp
        cases h
        refine .controlWrite n _ rfl ?_ rfl
        by_cases hn : n = 1
        · exact .inl hn
        · exact .inr (by simpa [hn] using hp)
    · rename_i hn
      cases h
      exact .trap s .illegalInstruction s.ir s.psw.ia 0 (.refl s) (by decide)
        (fun _ => by simpa [Instr.wellFormed, Instr.crSlot?] using hn) rfl
  case lpa r b =>
    refine execCase_privileged (fun hp h => ?_) h
    split at h
    · cases h
      exact .result s r _ (s.psw.ia + 4) s.ioHistory rfl (.refl s) (.inr rfl) rfl
    · have hro := lookupTlb_recencyOnly s (s.readGr b)
      split at h <;> rename_i hl <;> rw [hl] at hro <;> cases h
      · exact .trap _ .tlbAccess _ _ _ hro (by decide) (by intro hc; cases hc) rfl
      · exact .result _ r _ _ _ rfl hro (.inr rfl) rfl
  case tlbIns r b a =>
    refine execCase_privileged (fun hp h => ?_) h
    split at h
    · rename_i hu
      cases h
      exact .tlbInserted _ _ _ _ _ rfl hp hu rfl
    · cases h
    · cases h
  case tlbPrg b =>
    refine execCase_privileged (fun hp h => ?_) h
    cases h
    exact .tlbPurged _ rfl hp rfl
  case rsm r m =>
    refine execCase_privileged (fun hp h => ?_) h
    cases h
    exact .status _ r _ rfl rfl hp rfl
  case ssm r m =>
    refine execCase_privileged (fun hp h => ?_) h
    cases h
    exact .status _ r _ rfl rfl hp rfl
  case rfi n =>
    simp only [exec, execRfi] at h
    split at h
    · rename_i hn
      cases h
      exact .trap s .illegalInstruction s.ir s.psw.ia 0 (.refl s) (by decide)
        (fun _ => by simpa [Instr.wellFormed, Instr.crSlot?] using (readCr_none_iff s n).1 hn) rfl
    · refine execCase_privileged (fun hp h => ?_) h
      cases h
      exact .restored _ rfl hp rfl
  case halt =>
    refine execCase_privileged (fun hp h => ?_) h
    cases h
    exact .halted rfl hp rfl
  case addR => exact execCase_addResult rfl rfl h
  case addI => exact execCase_addResult rfl rfl h
  case subR => exact execCase_subResult rfl rfl h
  case subI => exact execCase_subResult rfl rfl h
  case prbR => exact execCase_probe rfl rfl h
  case prbW => exact execCase_probe rfl rfl h
  case prbX => exact execCase_probe rfl rfl h
  all_goals first
    | exact execCase_writeResult rfl rfl h
    | exact execCase_loadValue rfl rfl h
    | exact execCase_storeValue rfl h
    | exact execCase_loadReserve rfl rfl h
    | exact execCase_storeConditional rfl rfl h
    | exact execCase_linkAndBranch rfl rfl h
    | exact execCase_branchIf rfl h

/-- With at least one TLB entry every instruction answers a next state: it completes or takes a trap. -/
theorem exec_answers (i : Instr) {s : State} (h : 0 < s.tlb.length) : ∃ t, exec i s = .next t := by
  have hpriv : ∀ effect : Result, (∃ t, effect = .next t) → ∃ t, privileged s effect = .next t := by
    intro effect he
    unfold privileged
    split
    · exact ⟨_, rfl⟩
    · exact he
  have hadd : ∀ r x y, ∃ t, addResult r x y s = .next t := by
    intro r x y
    unfold addResult
    split <;> exact ⟨_, rfl⟩
  have hsub : ∀ r x y, ∃ t, subResult r x y s = .next t := by
    intro r x y
    unfold subResult
    split <;> exact ⟨_, rfl⟩
  have hload : ∀ len sx r ea, ∃ t, loadValue len sx r ea s = .next t := by
    intro len sx r ea
    unfold loadValue
    split <;> exact ⟨_, rfl⟩
  have hstore : ∀ len r ea, ∃ t, storeValue len r ea s = .next t := by
    intro len r ea
    unfold storeValue
    split <;> exact ⟨_, rfl⟩
  have hldr : ∀ len sx r ea, ∃ t, loadReserve len sx r ea s = .next t := by
    intro len sx r ea
    unfold loadReserve
    split <;> exact ⟨_, rfl⟩
  have hstc : ∀ len r ea, ∃ t, storeConditional len r ea s = .next t := by
    intro len r ea
    unfold storeConditional
    split
    · exact ⟨_, rfl⟩
    · split <;> exact ⟨_, rfl⟩
  have hprobe : ∀ kind r va, ∃ t, probe kind r va s = .next t := by
    intro kind r va
    unfold probe
    split <;> exact ⟨_, rfl⟩
  cases i
  case mfcr r n => simp only [exec, execMfcr]; split <;> exact ⟨_, rfl⟩
  case mtcr n r =>
    simp only [exec, execMtcr]
    split
    · split <;> exact ⟨_, rfl⟩
    · exact ⟨_, rfl⟩
  case rfi n =>
    simp only [exec, execRfi]
    split
    · exact ⟨_, rfl⟩
    · exact hpriv _ ⟨_, rfl⟩
  case lpa r b =>
    refine hpriv _ ?_
    split
    · exact ⟨_, rfl⟩
    · split <;> exact ⟨_, rfl⟩
  case tlbIns r b a =>
    refine hpriv _ ?_
    obtain ⟨tlb', hi, -⟩ := tlbInsert_next h (s.readGr b) (s.readGr a) ((s.readGr a).extractLsb' 0 8)
      ((s.readGr r).extractLsb' 0 32)
    rw [hi]
    exact ⟨_, rfl⟩
  case tlbPrg b => exact hpriv _ ⟨_, rfl⟩
  case rsm r m => exact hpriv _ ⟨_, rfl⟩
  case ssm r m => exact hpriv _ ⟨_, rfl⟩
  case halt => exact hpriv _ ⟨_, rfl⟩
  case addR => exact hadd _ _ _
  case addI => exact hadd _ _ _
  case subR => exact hsub _ _ _
  case subI => exact hsub _ _ _
  case prbR => exact hprobe _ _ _
  case prbW => exact hprobe _ _ _
  case prbX => exact hprobe _ _ _
  all_goals first
    | exact ⟨_, rfl⟩
    | exact hload _ _ _ _
    | exact hstore _ _ _
    | exact hldr _ _ _ _
    | exact hstc _ _ _

end Sys2Proof.Machine
end

