-- ==== Sys2Proof/Laws/Invariant.lean ====
section
/-!
SUPPORT. The operations of Machine/Ops.lean keep the invariant `State.Inv`, one lemma per operation: memory keeps its
canonical form, the TLB its invariant, GR0 its zero.
-/

namespace Sys2Proof.Machine

/-! ### The TLB -/

/-- The TLB part of the invariant (10_state.md R28, R29; 20_memory.md R44, R53). -/
structure TlbOk (tlb : List TlbEntry) (tick : Nat) : Prop where
  slots : 0 < tlb.length
  pages : ∀ e ∈ tlb, PageAligned e.virtualAddress ∧ PageAligned e.physicalAddress
  unique : OneEntryPerPage tlb
  stamps : ∀ e ∈ tlb, e.stamp ≤ tick
  recency : StampsDistinct tlb

theorem State.Inv.tlbOk {s : State} (h : s.Inv) : TlbOk s.tlb s.tlbTick :=
  ⟨h.slots, h.pages, h.unique, h.stamps, h.recency⟩

/-- The same state but for its TLB. -/
theorem State.Inv.withTlb {s : State} (h : s.Inv) {tlb : List TlbEntry} {tick : Nat} (ht : TlbOk tlb tick) :
    ({ s with tlb := tlb, tlbTick := tick } : State).Inv :=
  ⟨h.params, h.zero, h.memory, h.backed, ht.slots, ht.pages, ht.unique, ht.stamps, ht.recency, h.runningClear,
    h.trappedSet, h.reservation⟩

/-- A recency update keeps it. -/
theorem TlbOk.touch {tlb : List TlbEntry} {tick : Nat} (h : TlbOk tlb tick) (k : Nat) :
    TlbOk (tlb.modify k (fun e => { e with stamp := tick + 1 })) (tick + 1) := by
  have hg : ∀ (j : Nat) (hj : j < (tlb.modify k (fun e => { e with stamp := tick + 1 })).length),
      ∃ hj' : j < tlb.length, (tlb.modify k (fun e => { e with stamp := tick + 1 }))[j] =
        if k = j then { tlb[j] with stamp := tick + 1 } else tlb[j] := by
    intro j hj
    refine ⟨by simpa using hj, ?_⟩
    rw [List.getElem_modify]
  constructor
  · simpa using h.slots
  · intro e he
    obtain ⟨j, hj, rfl⟩ := List.mem_iff_getElem.1 he
    obtain ⟨hj', heq⟩ := hg j hj
    rw [heq]
    have := h.pages _ (List.getElem_mem hj')
    split <;> exact this
  · refine List.pairwise_iff_getElem.2 fun i j hi hj hij => ?_
    obtain ⟨hi', ei⟩ := hg i hi
    obtain ⟨hj', ej⟩ := hg j hj
    have := List.pairwise_iff_getElem.1 h.unique i j hi' hj' hij
    rw [ei, ej]
    split <;> split <;> exact this
  · intro e he
    obtain ⟨j, hj, rfl⟩ := List.mem_iff_getElem.1 he
    obtain ⟨hj', heq⟩ := hg j hj
    rw [heq]
    have := h.stamps _ (List.getElem_mem hj')
    split
    · exact le_refl _
    · omega
  · refine List.pairwise_iff_getElem.2 fun i j hi hj hij => ?_
    obtain ⟨hi', ei⟩ := hg i hi
    obtain ⟨hj', ej⟩ := hg j hj
    have := List.pairwise_iff_getElem.1 h.recency i j hi' hj' hij
    have s1 := h.stamps _ (List.getElem_mem hi')
    have s2 := h.stamps _ (List.getElem_mem hj')
    rw [ei, ej]
    split <;> split
    · omega
    · simp only; rintro ⟨-, -, h⟩; omega
    · simp only; rintro ⟨-, -, h⟩; omega
    · exact this

/-- A purge keeps it. -/
theorem TlbOk.purge {tlb : List TlbEntry} {tick : Nat} (h : TlbOk tlb tick) (va : Word) :
    TlbOk (purgedTlb tlb va) tick := by
  unfold purgedTlb
  constructor
  · simpa using h.slots
  · intro e he
    obtain ⟨d, hd, rfl⟩ := List.mem_map.1 he
    have := h.pages d hd
    split <;> exact this
  · refine List.pairwise_map.2 (h.unique.imp fun {d e} hde => ?_)
    rintro ⟨h1, h2, h3⟩
    split at h1 <;> split at h2 <;> simp_all
  · intro e he
    obtain ⟨d, hd, rfl⟩ := List.mem_map.1 he
    have := h.stamps d hd
    split <;> exact this
  · refine List.pairwise_map.2 (h.recency.imp fun {d e} hde => ?_)
    rintro ⟨h1, h2, h3⟩
    split at h1 <;> split at h2 <;> simp_all

/-- After a purge no entry is for the page. -/
theorem not_entryFor_of_mem_purgedTlb {tlb : List TlbEntry} {va : Word} {e : TlbEntry} (he : e ∈ purgedTlb tlb va) :
    ¬ EntryFor e va := by
  obtain ⟨d, hd, rfl⟩ := List.mem_map.1 he
  split
  · rintro ⟨h, -⟩
    cases h
  · assumption

/-- An insert keeps it. -/
theorem TlbOk.insert {tlb tlb' : List TlbEntry} {tick : Nat} {va pa : Word} {aid : BitVec 8} {pid : BitVec 32}
    (h : TlbOk tlb tick) (hi : InsertedTlb tlb tlb' va pa aid pid (tick + 1)) : TlbOk tlb' (tick + 1) := by
  have hp := h.purge va
  obtain ⟨k, -, rfl⟩ := hi
  have pb : ∀ v : Word, PageAligned (wordOf (v.toNat - v.toNat % 16384 : Nat)) := fun v => by
    rw [← pageBase_eq]
    exact pageBase_aligned v
  have hg : ∀ (j : Nat) (n : TlbEntry) (hj : j < ((purgedTlb tlb va).set k n).length),
      ∃ hj' : j < (purgedTlb tlb va).length,
        ((purgedTlb tlb va).set k n)[j] = if k = j then n else (purgedTlb tlb va)[j] := by
    intro j n hj
    exact ⟨by simpa using hj, by rw [List.getElem_set]⟩
  have hva : ∀ e ∈ purgedTlb tlb va, e.valid = true →
      e.virtualAddress ≠ wordOf (va.toNat - va.toNat % 16384 : Nat) := by
    intro e he hv heq
    refine not_entryFor_of_mem_purgedTlb he ⟨hv, ?_⟩
    rw [heq, ← pageBase_eq, pageBase_toNat]
  constructor
  · simpa using hp.slots
  · intro e he
    obtain ⟨j, hj, rfl⟩ := List.mem_iff_getElem.1 he
    obtain ⟨hj', heq⟩ := hg j _ hj
    rw [heq]
    split
    · exact ⟨pb _, pb _⟩
    · exact hp.pages _ (List.getElem_mem hj')
  · refine List.pairwise_iff_getElem.2 fun i j hi hj hij => ?_
    obtain ⟨hi', ei⟩ := hg i _ hi
    obtain ⟨hj', ej⟩ := hg j _ hj
    rw [ei, ej]
    split <;> split
    · omega
    · rintro ⟨-, h2, h3⟩; exact hva _ (List.getElem_mem hj') h2 h3.symm
    · rintro ⟨h1, -, h3⟩; exact hva _ (List.getElem_mem hi') h1 h3
    · exact List.pairwise_iff_getElem.1 hp.unique i j hi' hj' hij
  · intro e he
    obtain ⟨j, hj, rfl⟩ := List.mem_iff_getElem.1 he
    obtain ⟨hj', heq⟩ := hg j _ hj
    rw [heq]
    split
    · exact le_refl _
    · have := hp.stamps _ (List.getElem_mem hj'); omega
  · refine List.pairwise_iff_getElem.2 fun i j hi hj hij => ?_
    obtain ⟨hi', ei⟩ := hg i _ hi
    obtain ⟨hj', ej⟩ := hg j _ hj
    have s1 := hp.stamps _ (List.getElem_mem hi')
    have s2 := hp.stamps _ (List.getElem_mem hj')
    rw [ei, ej]
    split <;> split
    · omega
    · simp only; rintro ⟨-, -, h⟩; omega
    · simp only; rintro ⟨-, -, h⟩; omega
    · exact List.pairwise_iff_getElem.1 hp.recency i j hi' hj' hij

/-! ### The operations -/

section Keeps
variable {s : State} (h : s.Inv)
include h

theorem State.Inv.touchTlb (k : Nat) : (s.touchTlb k).Inv :=
  h.withTlb (h.tlbOk.touch k)

theorem State.Inv.recencyOnly {u : State} (hu : RecencyOnly s u) : u.Inv := by
  rcases hu.touched with rfl | ⟨k, rfl⟩
  · exact h
  · exact h.touchTlb k

theorem State.Inv.purgeTlb (va : Word) : (s.purgeTlb va).Inv := by
  have ht := h.tlbOk.purge va
  rw [← purgeEntries_eq] at ht
  exact h.withTlb ht

theorem State.Inv.tlbInsert {t : State} {va pa : Word} {aid : BitVec 8} {pid : BitVec 32}
    (hi : tlbInsert s va pa aid pid = .next t) : t.Inv := by
  obtain ⟨tlb', rfl, hv⟩ := tlbInsert_cases hi
  exact h.withTlb (h.tlbOk.insert hv)

theorem State.Inv.withPsw (p : Psw) : ({ s with psw := p } : State).Inv :=
  ⟨h.params, h.zero, h.memory, h.backed, h.slots, h.pages, h.unique, h.stamps, h.recency, h.runningClear,
    h.trappedSet, h.reservation⟩

theorem State.Inv.withHistory (history : List IoEvent) : ({ s with ioHistory := history } : State).Inv :=
  ⟨h.params, h.zero, h.memory, h.backed, h.slots, h.pages, h.unique, h.stamps, h.recency, h.runningClear,
    h.trappedSet, h.reservation⟩

theorem State.Inv.withIr (w : InstrWord) : ({ s with ir := w } : State).Inv :=
  ⟨h.params, h.zero, h.memory, h.backed, h.slots, h.pages, h.unique, h.stamps, h.recency, h.runningClear,
    h.trappedSet, h.reservation⟩

theorem State.Inv.withReservation {q : Reservation} (hq : q.Ok s.params) : ({ s with res := q } : State).Inv :=
  ⟨h.params, h.zero, h.memory, h.backed, h.slots, h.pages, h.unique, h.stamps, h.recency, h.runningClear,
    h.trappedSet, hq⟩

theorem State.Inv.dropReservation : s.dropReservation.Inv :=
  h.withReservation (fun hv => by cases hv)

theorem State.Inv.writeCr (n : CrSlot) (v : Word) : (s.writeCr n v).Inv :=
  ⟨h.params, h.zero, h.memory, h.backed, h.slots, h.pages, h.unique, h.stamps, h.recency, h.runningClear,
    h.trappedSet, h.reservation⟩

theorem State.Inv.writeGr (r : Reg) (v : Word) : (s.writeGr r v).Inv := by
  refine ⟨h.params, ?_, h.memory, h.backed, h.slots, h.pages, h.unique, h.stamps, h.recency, h.runningClear,
    h.trappedSet, h.reservation⟩
  rw [State.writeGr_gr]
  by_cases hr : r = 0
  · simp [hr, h.zero]
  · have : (r : Nat) ≠ 0 := fun e => hr (Fin.ext e)
    simp [hr, this, h.zero]

theorem State.Inv.raise {c : TrapCode} (hc : c ≠ .noTrap) (i1 i2 i3 : BitVec 32) : (s.raise c i1 i2 i3).Inv :=
  ⟨h.params, h.zero, h.memory, h.backed, h.slots, h.pages, h.unique, h.stamps, h.recency, fun hr => (by cases hr),
    fun _ => hc, h.reservation⟩

theorem State.Inv.halt : ({ s with run := .halted } : State).Inv :=
  ⟨h.params, h.zero, h.memory, h.backed, h.slots, h.pages, h.unique, h.stamps, h.recency, fun hr => (by cases hr),
    fun hr => (by cases hr), h.reservation⟩

theorem State.Inv.clearTrap : s.clearTrap.Inv :=
  ⟨h.params, h.zero, h.memory, h.backed, h.slots, h.pages, h.unique, h.stamps, h.recency, fun _ => rfl,
    fun hr => (by cases hr), h.reservation⟩

/-- A region write of backed bytes keeps memory canonical and backed. -/
theorem State.Inv.regionWrite {sp : Space} {pa : Word} {n : Nat} (hb : Backed s.params sp pa.toNat n) (v : Word) :
    (s.regionWrite sp pa n v).Inv := by
  have hr : (s.res.afterWrite sp pa n).Ok s.params := by
    unfold Reservation.afterWrite
    split
    · intro hv
      cases hv
    · exact h.reservation
  by_cases hd : s.usesDevice sp = true
  · refine ⟨h.params, h.zero, ?_, ?_, h.slots, h.pages, h.unique, h.stamps, h.recency, h.runningClear,
      h.trappedSet, hr⟩ <;> simp only [State.regionWrite, hd, if_true]
    · exact h.memory
    · exact h.backed
  · refine ⟨h.params, h.zero, ?_, ?_, h.slots, h.pages, h.unique, h.stamps, h.recency, h.runningClear,
      h.trappedSet, hr⟩ <;> simp only [State.regionWrite, hd]
    · exact Memory.wf_writeBytes h.memory _ _ _
    · intro c hc
      rcases Memory.mem_writeBytes hc with hc | hc
      · rcases hb with ⟨rfl, hb⟩ | ⟨rfl, hb1, hb⟩
        · exact .inl (.inl ⟨rfl, by omega⟩)
        · exact .inr (.inr ⟨rfl, by omega, by omega⟩)
      · exact h.backed c hc

end Keeps

end Sys2Proof.Machine
end

