-- ==== Sys2Proof/Laws/Host.lean ====
section
/-!
SUPPORT. What the host's direct access to memory can do (70_reset_and_hazards.md R160): the bytes it reaches, the
reservation rule, what it keeps, and that plain storage gives back what was written.
-/

namespace Sys2Proof.Machine

/-! ### The getters -/

@[simp] theorem hostGetReservation_eq (s : State) : hostGetReservation s = s.res := rfl
@[simp] theorem TlbEntry.reply_valid (e : TlbEntry) : e.reply.valid = e.valid := rfl
@[simp] theorem TlbEntry.reply_accessId (e : TlbEntry) : e.reply.accessId = e.accessId := rfl
@[simp] theorem TlbEntry.reply_protectId (e : TlbEntry) : e.reply.protectId = e.protectId := rfl
@[simp] theorem TlbEntry.reply_virtualAddress (e : TlbEntry) : e.reply.virtualAddress = e.virtualAddress := rfl
@[simp] theorem TlbEntry.reply_physicalAddress (e : TlbEntry) : e.reply.physicalAddress = e.physicalAddress := rfl

/-! ### Values and writes in two parts -/

/-- The value of k + l bytes from those of its two parts (20_memory.md R47). -/
theorem Memory.readBytes_add (m : Memory) (a k l : Nat) :
    m.readBytes a (k + l) = m.readBytes a k + 2 ^ (8 * k) * m.readBytes (a + k) l := by
  induction k generalizing a with
  | zero => simp [Memory.readBytes]
  | succ k ih =>
    rw [show k + 1 + l = k + l + 1 by omega, Memory.readBytes, ih, Memory.readBytes,
      show a + 1 + k = a + (k + 1) by omega, show 8 * (k + 1) = 8 + 8 * k by ring, pow_add]
    ring

/-- A write of k + l bytes is the writes of its two parts (20_memory.md R48). -/
theorem Memory.writeBytes_add (m : Memory) (a k l : Nat) (v : Word) :
    (m.writeBytes a k v).writeBytes (a + k) l (v >>> (8 * k)) = m.writeBytes a (k + l) v := by
  induction k generalizing m a v with
  | zero => simp [Memory.writeBytes]
  | succ k ih =>
    rw [show k + 1 + l = k + l + 1 by omega, Memory.writeBytes, Memory.writeBytes, ← ih,
      show a + (k + 1) = a + 1 + k by omega, show 8 * (k + 1) = 8 + 8 * k by ring, BitVec.shiftRight_add]

/-- The low part of a Word and what lies above it. -/
theorem ofNat_or_shiftLeft {x : Nat} (y k : Nat) (h : x < 2 ^ k) :
    BitVec.ofNat 64 x ||| BitVec.ofNat 64 y <<< k = BitVec.ofNat 64 (x + 2 ^ k * y) := by
  rw [add_comm, Nat.two_pow_add_eq_or_of_lt h, Nat.or_comm]
  apply BitVec.eq_of_getLsbD_eq
  intro i hi
  by_cases hk : i < k
  · simp only [BitVec.getLsbD_or, BitVec.getLsbD_shiftLeft, BitVec.getLsbD_ofNat, Nat.testBit_or,
      Nat.testBit_two_pow_mul]
    simp [hi, hk, show ¬ k ≤ i by omega]
  · simp only [BitVec.getLsbD_or, BitVec.getLsbD_shiftLeft, BitVec.getLsbD_ofNat, Nat.testBit_or,
      Nat.testBit_two_pow_mul]
    simp [hi, hk, show k ≤ i by omega, show i - k < 64 by omega]

/-! ### The bytes an access reaches -/

theorem bytesBelowWindow_le (pa : Word) (n : Nat) : bytesBelowWindow pa n ≤ n :=
  Nat.min_le_left _ _

/-- The bytes below the window lie below 0xF0000000. -/
theorem bytesBelowWindow_lt {pa : Word} {n a : Nat} (h : a < pa.toNat + bytesBelowWindow pa n) (hp : pa.toNat ≤ a) :
    a < 0xF0000000 := by
  have : Config.ioMemStart = 0xF0000000 := rfl
  unfold bytesBelowWindow at h
  omega

/-- Where some bytes do not lie below the window, the others end at its start, and the address of the rest is there. -/
theorem windowPart_toNat {pa : Word} {n : Nat} (h : bytesBelowWindow pa n ≠ n) :
    (pa + BitVec.ofNat 64 (bytesBelowWindow pa n)).toNat = pa.toNat + bytesBelowWindow pa n ∧
      0xF0000000 ≤ pa.toNat + bytesBelowWindow pa n := by
  have hc : Config.ioMemStart = 0xF0000000 := rfl
  have := pa.isLt
  unfold bytesBelowWindow at h ⊢
  rw [BitVec.toNat_add, BitVec.toNat_ofNat]
  omega

/-- The part below the window lies in physical memory. -/
theorem hostBacked_phys {s : State} {pa : Word} {n : Nat} (h : hostBacked s pa n = true)
    (hk : bytesBelowWindow pa n ≠ 0) : Backed s.params .phys pa.toNat (bytesBelowWindow pa n) := by
  simp only [hostBacked, Bool.and_eq_true, Bool.or_eq_true, beq_iff_eq, decide_eq_true_iff] at h
  exact .inl ⟨rfl, h.1.resolve_left hk⟩

/-- The part in the window lies in its backed part. -/
theorem hostBacked_io {s : State} {pa : Word} {n : Nat} (h : hostBacked s pa n = true)
    (hk : bytesBelowWindow pa n ≠ n) : Backed s.params .io
      (pa + BitVec.ofNat 64 (bytesBelowWindow pa n)).toNat (n - bytesBelowWindow pa n) := by
  have hc : Config.ioMemStart = 0xF0000000 := rfl
  have hw := windowPart_toNat hk
  have hle := bytesBelowWindow_le pa n
  simp only [hostBacked, Bool.and_eq_true, Bool.or_eq_true, beq_iff_eq, decide_eq_true_iff] at h
  refine .inr ⟨rfl, ?_, ?_⟩
  · omega
  · have := h.2.resolve_left hk
    omega

/-! ### The read -/

/-- A host read changes the accesses the device has seen and nothing else (70_reset_and_hazards.md R161). -/
theorem hostRead_state (s : State) (pa : Word) (n : Nat) :
    (hostRead s pa n).2 = { s with ioHistory := (hostRead s pa n).2.ioHistory } := by
  unfold hostRead
  by_cases hk : bytesBelowWindow pa n = n
  · simp only [hk, if_true, regionRead_eq]
  · simp only [if_neg hk, regionRead_eq]

@[simp] theorem hostRead_res (s : State) (pa : Word) (n : Nat) : (hostRead s pa n).2.res = s.res := by
  rw [hostRead_state]

@[simp] theorem hostRead_mem (s : State) (pa : Word) (n : Nat) : (hostRead s pa n).2.mem = s.mem := by
  rw [hostRead_state]

/-- What `readMem` answers with: the value and state of `hostRead`, of a legal length and backed bytes. -/
theorem hostReadMem_cases {s t : State} {pa v : Word} {n : Nat} (h : hostReadMem s pa n = .next (v, t)) :
    (n = 1 ∨ n = 2 ∨ n = 4 ∨ n = 8) ∧ hostBacked s pa n = true ∧ hostRead s pa n = (v, t) := by
  unfold hostReadMem at h
  split at h
  · rename_i hn
    split at h
    · rename_i hb
      refine ⟨?_, hb, Host.Outcome.next.inj h⟩
      simpa [hostLengthOk, or_assoc] using hn
    · cases h
  · cases h

/-- What `writeMem` answers with. -/
theorem hostWriteMem_cases {s t : State} {pa v : Word} {n : Nat} (h : hostWriteMem s pa v n = .next t) :
    (n = 1 ∨ n = 2 ∨ n = 4 ∨ n = 8) ∧ hostBacked s pa n = true ∧ t = s.hostWrite pa n v := by
  unfold hostWriteMem at h
  split at h
  · rename_i hn
    split at h
    · rename_i hb
      refine ⟨?_, hb, (Host.Outcome.next.inj h).symm⟩
      simpa [hostLengthOk, or_assoc] using hn
    · cases h
  · cases h

/-! ### The reservation -/

/-- The reservation after a host write: invalid where a byte written is a reserved one, else as it was (20_memory.md R60
(a)). -/
theorem hostWrite_res (s : State) (pa : Word) (n : Nat) (v : Word) :
    (s.res.HostTouched pa n → (s.hostWrite pa n v).res = { s.res with valid := false }) ∧
      (¬ s.res.HostTouched pa n → (s.hostWrite pa n v).res = s.res) := by
  have low : ∀ q : Reservation, q.Touched .phys pa (bytesBelowWindow pa n) ↔
      ∃ a, pa.toNat ≤ a ∧ a < pa.toNat + bytesBelowWindow pa n ∧ q.pa.toNat ≤ a ∧ a < q.pa.toNat + q.len ∧
        q.space = spaceOf a := by
    intro q
    constructor
    · rintro ⟨hs, a, h1, h2, h3, h4⟩
      exact ⟨a, h1, h2, h3, h4, by rw [hs, spaceOf, if_pos (bytesBelowWindow_lt h2 h1)]⟩
    · rintro ⟨a, h1, h2, h3, h4, hs⟩
      exact ⟨by rw [hs, spaceOf, if_pos (bytesBelowWindow_lt h2 h1)], a, h1, h2, h3, h4⟩
  unfold State.hostWrite
  by_cases hk : bytesBelowWindow pa n = n
  · simp only [hk, if_true]
    rw [hk] at low
    have spec := Reservation.afterWrite_spec s.res .phys pa n
    exact ⟨fun h => spec.1 ((low _).2 h), fun h => spec.2 fun g => h ((low _).1 g)⟩
  · simp only [if_neg hk]
    obtain ⟨hto, hst⟩ := windowPart_toNat hk
    have hle := bytesBelowWindow_le pa n
    have high : ∀ q : Reservation,
        q.Touched .io (pa + BitVec.ofNat 64 (bytesBelowWindow pa n)) (n - bytesBelowWindow pa n) ↔
        ∃ a, pa.toNat + bytesBelowWindow pa n ≤ a ∧ a < pa.toNat + n ∧ q.pa.toNat ≤ a ∧ a < q.pa.toNat + q.len ∧
          q.space = spaceOf a := by
      intro q
      unfold Reservation.Touched
      rw [hto]
      constructor
      · rintro ⟨hs, a, h1, h2, h3, h4⟩
        exact ⟨a, h1, by omega, h3, h4, by rw [hs, spaceOf, if_neg (by omega)]⟩
      · rintro ⟨a, h1, h2, h3, h4, hs⟩
        exact ⟨by rw [hs, spaceOf, if_neg (by omega)], a, h1, by omega, h3, h4⟩
    have both : s.res.HostTouched pa n ↔ s.res.Touched .phys pa (bytesBelowWindow pa n) ∨
        s.res.Touched .io (pa + BitVec.ofNat 64 (bytesBelowWindow pa n)) (n - bytesBelowWindow pa n) := by
      rw [low, high]
      constructor
      · rintro ⟨a, h1, h2, h⟩
        by_cases ha : a < pa.toNat + bytesBelowWindow pa n
        · exact .inl ⟨a, h1, ha, h⟩
        · exact .inr ⟨a, by omega, h2, h⟩
      · rintro (⟨a, h1, h2, h⟩ | ⟨a, h1, h2, h⟩)
        · exact ⟨a, h1, by omega, h⟩
        · exact ⟨a, by omega, h2, h⟩
    have first := Reservation.afterWrite_spec s.res .phys pa (bytesBelowWindow pa n)
    have second := Reservation.afterWrite_spec (s.res.afterWrite .phys pa (bytesBelowWindow pa n)) .io
      (pa + BitVec.ofNat 64 (bytesBelowWindow pa n)) (n - bytesBelowWindow pa n)
    change (_ → (Reservation.afterWrite _ _ _ _ : Reservation) = _) ∧ (_ → Reservation.afterWrite _ _ _ _ = _)
    rw [both]
    by_cases ht : s.res.Touched .phys pa (bytesBelowWindow pa n)
    · refine ⟨fun _ => ?_, fun h => absurd (.inl ht) h⟩
      change Reservation.afterWrite (s.res.afterWrite .phys pa (bytesBelowWindow pa n)) _ _ _ = _
      rw [first.1 ht] at second ⊢
      rcases second.eq with h | h <;> exact h
    · change (_ → Reservation.afterWrite (s.res.afterWrite .phys pa (bytesBelowWindow pa n)) _ _ _ = _) ∧
        (_ → Reservation.afterWrite (s.res.afterWrite .phys pa (bytesBelowWindow pa n)) _ _ _ = _)
      rw [first.2 ht] at second ⊢
      exact ⟨fun h => second.1 (h.resolve_left ht), fun h => second.2 fun g => h (.inr g)⟩

/-! ### The invariant -/

/-- A write of no byte of physical memory changes nothing. -/
theorem regionWrite_phys_zero (s : State) (pa : Word) (v : Word) : s.regionWrite .phys pa 0 v = s := by
  have hr : s.res.afterWrite .phys pa 0 = s.res :=
    (Reservation.afterWrite_spec s.res .phys pa 0).2 fun ⟨_, a, h1, h2, _⟩ => by omega
  simp [State.regionWrite, State.usesDevice, Memory.writeBytes, hr]

/-- A host write of backed bytes keeps the invariant. -/
theorem State.Inv.hostWrite {s : State} (h : s.Inv) {pa : Word} {n : Nat} (hn : 0 < n)
    (hb : hostBacked s pa n = true) (v : Word) : (s.hostWrite pa n v).Inv := by
  unfold State.hostWrite
  by_cases hk : bytesBelowWindow pa n = n
  · have := hostBacked_phys hb (by omega)
    rw [hk] at this
    simpa only [hk, if_true] using h.regionWrite this v
  · simp only [if_neg hk]
    have low : (s.regionWrite .phys pa (bytesBelowWindow pa n) v).Inv := by
      by_cases h0 : bytesBelowWindow pa n = 0
      · rw [h0, regionWrite_phys_zero]
        exact h
      · exact h.regionWrite (hostBacked_phys hb h0) v
    exact low.regionWrite (show Backed s.params _ _ _ from hostBacked_io hb hk) _

/-- A host read keeps the invariant. -/
theorem State.Inv.hostRead {s : State} (h : s.Inv) (pa : Word) (n : Nat) : (Machine.hostRead s pa n).2.Inv := by
  rw [hostRead_state]
  exact h.withHistory _

/-! ### Plain storage gives back what was written -/

theorem usesDevice_of_storage {s : State} (h : s.params.ioDevice ≠ .attached) (sp : Space) :
    s.usesDevice sp = false := by
  simp [State.usesDevice, h]

/-- With the default device a host read of n bytes is their little-endian value (70_reset_and_hazards.md R160). -/
theorem hostRead_storage {s : State} (h : s.params.ioDevice ≠ .attached) (pa : Word) (n : Nat) :
    hostRead s pa n = (BitVec.ofNat 64 (s.mem.readBytes pa.toNat n), s) := by
  unfold hostRead
  by_cases hk : bytesBelowWindow pa n = n
  · simp [hk, regionRead, usesDevice_of_storage h]
  · have hlt := Memory.readBytes_lt s.mem pa.toNat (bytesBelowWindow pa n)
    rw [show (256 : Nat) = 2 ^ 8 by rfl, ← pow_mul] at hlt
    have hle := bytesBelowWindow_le pa n
    simp only [if_neg hk, regionRead, usesDevice_of_storage h, Bool.false_eq_true, if_false]
    rw [(windowPart_toNat hk).1, ofNat_or_shiftLeft _ _ hlt, ← Memory.readBytes_add, Nat.add_sub_cancel' hle]

/-- With the default device a host write stores the n bytes (70_reset_and_hazards.md R160). -/
theorem hostWrite_mem {s : State} (h : s.params.ioDevice ≠ .attached) (pa : Word) (n : Nat) (v : Word) :
    (s.hostWrite pa n v).mem = s.mem.writeBytes pa.toNat n v := by
  unfold State.hostWrite
  by_cases hk : bytesBelowWindow pa n = n
  · simp [hk, State.regionWrite, usesDevice_of_storage h]
  · have hle := bytesBelowWindow_le pa n
    have hu : (s.regionWrite .phys pa (bytesBelowWindow pa n) v).usesDevice .io = false :=
      usesDevice_of_storage (s := s.regionWrite .phys pa (bytesBelowWindow pa n) v) h .io
    simp only [if_neg hk]
    rw [State.regionWrite, hu]
    simp only [Bool.false_eq_true, if_false, State.regionWrite, usesDevice_of_storage h]
    rw [(windowPart_toNat hk).1, Memory.writeBytes_add, Nat.add_sub_cancel' hle]

@[simp] theorem hostWrite_params (s : State) (pa : Word) (n : Nat) (v : Word) :
    (s.hostWrite pa n v).params = s.params := by
  unfold State.hostWrite
  by_cases hk : bytesBelowWindow pa n = n
  · simp only [hk, if_true]
    rfl
  · simp only [if_neg hk]
    rfl

/-- With the default device a host read after a host write of the same bytes gives v mod 2^(8n) (20_memory.md R50;
70_reset_and_hazards.md R160), wherever the bytes lie. -/
theorem hostRead_hostWrite {s : State} (h : s.params.ioDevice ≠ .attached) (pa : Word) {n : Nat} (v : Word) :
    (hostRead (s.hostWrite pa n v) pa n).1 = BitVec.ofNat 64 (v.toNat % 2 ^ (8 * n)) := by
  rw [hostRead_storage (by rw [hostWrite_params]; exact h), hostWrite_mem h]
  have := Memory.readBytes_writeBytes s.mem pa.toNat n v (k := 0) (l := n) (by omega)
  simpa using congrArg (BitVec.ofNat 64) this

end Sys2Proof.Machine
end

