-- ==== Sys2Proof/Laws/Meanings.lean ====
section
/-!
SUPPORT. One lemma per shared meaning (writeResult, linkAndBranch, branchIf, loadValue, storeValue, loadReserve,
storeConditional, control registers): the next state it answers, in the words of Sys2Proof/Safety.lean.
-/

namespace Sys2Proof.Machine

/-! ### Registers (10_state.md R13-R15, R23-R25) -/

theorem State.readGr_writeGr_destination (s : State) (r j : Reg) (v : Word) :
    (s.writeGr r v).readGr j = if j = r ∧ r ≠ 0 then v else s.readGr j := by
  rw [State.readGr_writeGr]
  by_cases hj : j = 0
  · subst hj
    by_cases hr : r = 0
    · simp [hr, State.readGr]
    · simp [Ne.symm hr, State.readGr]
  · by_cases hjr : j = r
    · subst hjr
      simp [hj]
    · simp [hj, hjr, Ne.symm hjr]

/-- A register result and a new instruction address, and nothing else. -/
theorem registerResult_retireTo (s : State) (r : Reg) (v : Word) (ia : InstrAddr) :
    RegisterResult s ((s.writeGr r v).retireTo ia) r v ia where
  gr j := by rw [State.retireTo_readGr, State.readGr_writeGr_destination]
  address := rfl
  user := rfl
  translate := rfl
  overflow := rfl
  cr := rfl
  ir := rfl
  reservation := rfl
  tlb := rfl
  tick := rfl
  trap := rfl
  run := rfl
  memory _ := rfl
  device := rfl
  params := rfl

/-- A new instruction address, and nothing else. -/
theorem registerResult_noRegister (s : State) (ia : InstrAddr) : RegisterResult s (s.retireTo ia) 0 0 ia :=
  registerResult_retireTo s 0 0 ia

theorem completes_writeResult (s : State) (r : Reg) {v v' : Word} (h : v = v') :
    Completes (writeResult r v s) s r v' :=
  ⟨_, rfl, h ▸ registerResult_retireTo s r v _⟩

theorem completesAt_linkAndBranch (s : State) (r : Reg) {ia ia' : InstrAddr} (h : ia = ia') :
    CompletesAt (linkAndBranch r ia s) s r (linkOf s) ia' := by
  subst h
  rw [← linkValue_eq]
  exact ⟨_, rfl, registerResult_retireTo s r _ _⟩

/-- A conditional branch goes to its target or to IA + 4, and changes nothing else (42_branch.md R115). -/
theorem completesAt_branchIf (s : State) (taken : Bool) (ia : InstrAddr) :
    CompletesAt (branchIf taken ia s) s 0 0 (if taken then ia else s.psw.ia + 4) := by
  cases taken <;> exact ⟨_, rfl, registerResult_noRegister s _⟩

theorem reservedCr_iff (n : CrSlot) : ReservedCr n.val ↔ n.recognized = false := by
  revert n
  unfold ReservedCr
  decide

theorem readCr_of_mem {s : State} {p : CrSlot × Word} (h : p ∈ controlRegisters s) : s.readCr p.1 = some p.2 := by
  simp only [controlRegisters, List.mem_cons, List.not_mem_nil, or_false] at h
  rcases h with rfl | rfl | rfl | rfl | rfl | rfl | rfl <;> rfl

/-! ### Memory accesses (41_mem.md R109-R113) -/

section Access
variable {s u : State} {len : AccessLen} {r : Reg} {ea : Word} {sp : Space} {pa : Word}

theorem loadValue_ok (sx : Bool) (h : translate s ea len.bytes .read = (.ok sp pa, u)) :
    loadValue len sx r ea s =
      .next ((({ u with ioHistory := historyAfterRead u sp pa len.bytes } : State).writeGr r
        (extended (regionValue u sp pa len.bytes) len.bytes sx)).retire) := by
  rw [loadValue, h]
  simp only [regionRead_eq, extendLoaded_eq len.bytes_cases (regionValue_lt _ _ _ _)]

theorem loadReserve_ok (sx : Bool) (h : translate s ea len.bytes .read = (.ok sp pa, u)) :
    loadReserve len sx r ea s =
      .next (((({ u with ioHistory := historyAfterRead u sp pa len.bytes } : State).reserve sp pa len.bytes
        (extended (regionValue u sp pa len.bytes) len.bytes sx)).writeGr r
        (extended (regionValue u sp pa len.bytes) len.bytes sx)).retire) := by
  rw [loadReserve, h]
  simp only [regionRead_eq, extendLoaded_eq len.bytes_cases (regionValue_lt _ _ _ _)]

theorem storeValue_ok (h : translate s ea len.bytes .write = (.ok sp pa, u)) :
    storeValue len r ea s = .next (u.regionWrite sp pa len.bytes (s.readGr r)).retire := by
  rw [storeValue, h]

theorem Reservation.admits_iff (q : Reservation) (sp : Space) (pa : Word) (n : Nat) :
    q.admits sp pa n = true ↔ q.valid = true ∧ q.space = sp ∧ q.pa = pa ∧ q.len = n := by
  simp [Reservation.admits, and_assoc]

theorem storeConditional_stored (h : translate s ea len.bytes .write = (.ok sp pa, u))
    (ha : s.res.admits sp pa len.bytes = true) : storeConditional len r ea s =
      .next ((u.dropReservation.regionWrite sp pa len.bytes (s.readGr r)).writeGr r 1).retire := by
  rw [storeConditional, h]
  simp only [ha, if_true]

theorem storeConditional_failed (h : translate s ea len.bytes .write = (.ok sp pa, u))
    (ha : s.res.admits sp pa len.bytes = false) : storeConditional len r ea s =
      .next (u.dropReservation.writeGr r 0).retire := by
  rw [storeConditional, h]
  simp only [ha]
  rfl

/-- A reservation that is not valid is as it was after any region write. -/
theorem Reservation.afterWrite_invalid {q : Reservation} (h : q.valid = false) (sp : Space) (pa : Word) (n : Nat) :
    q.afterWrite sp pa n = q := by
  unfold Reservation.afterWrite
  split
  · cases q
    simp_all
  · rfl

end Access

/-! What `exec` of a form is: the shared meaning at the form's length and effective address. -/

theorem exec_of_load {s : State} {i : Instr} {n : Nat} {sx : Bool}
    {r : Reg} {ea : Word} (h : MemAccess loadForms s i n sx r ea) :
    ∃ len : AccessLen, len.bytes = n ∧ exec i s = loadValue len sx r ea s := by
  obtain ⟨p, hp, rfl, rfl, hf⟩ := h
  simp only [loadForms, List.mem_cons, List.not_mem_nil, or_false] at hp
  rcases hp with rfl | rfl | rfl | rfl | rfl | rfl | rfl | rfl <;> obtain ⟨b, ofs⟩ | ⟨b, a⟩ := hf <;>
    simp only [← eaOffset_eq, ← eaIndex_eq] <;>
    first
      | exact ⟨.byte, rfl, rfl⟩
      | exact ⟨.half, rfl, rfl⟩
      | exact ⟨.word, rfl, rfl⟩
      | exact ⟨.double, rfl, rfl⟩

theorem exec_of_store {s : State} {i : Instr} {n : Nat} {sx : Bool}
    {r : Reg} {ea : Word} (h : MemAccess storeForms s i n sx r ea) :
    ∃ len : AccessLen, len.bytes = n ∧ exec i s = storeValue len r ea s := by
  obtain ⟨p, hp, rfl, rfl, hf⟩ := h
  simp only [storeForms, List.mem_cons, List.not_mem_nil, or_false] at hp
  rcases hp with rfl | rfl | rfl | rfl <;> obtain ⟨b, ofs⟩ | ⟨b, a⟩ := hf <;>
    simp only [← eaOffset_eq, ← eaIndex_eq] <;>
    first
      | exact ⟨.byte, rfl, rfl⟩
      | exact ⟨.half, rfl, rfl⟩
      | exact ⟨.word, rfl, rfl⟩
      | exact ⟨.double, rfl, rfl⟩

theorem exec_of_loadReserve {s : State} {i : Instr} {n : Nat} {sx : Bool}
    {r : Reg} {ea : Word} (h : MemAccess loadReserveForms s i n sx r ea) :
    ∃ len : AccessLen, len.bytes = n ∧ exec i s = loadReserve len sx r ea s := by
  obtain ⟨p, hp, rfl, rfl, hf⟩ := h
  simp only [loadReserveForms, List.mem_cons, List.not_mem_nil, or_false] at hp
  rcases hp with rfl | rfl | rfl | rfl | rfl | rfl | rfl | rfl <;> obtain ⟨b, ofs⟩ | ⟨b, a⟩ := hf <;>
    simp only [← eaOffset_eq, ← eaIndex_eq] <;>
    first
      | exact ⟨.byte, rfl, rfl⟩
      | exact ⟨.half, rfl, rfl⟩
      | exact ⟨.word, rfl, rfl⟩
      | exact ⟨.double, rfl, rfl⟩

theorem exec_of_storeConditional {s : State} {i : Instr} {n : Nat} {sx : Bool}
    {r : Reg} {ea : Word} (h : MemAccess storeConditionalForms s i n sx r ea) :
    ∃ len : AccessLen, len.bytes = n ∧ exec i s = storeConditional len r ea s := by
  obtain ⟨p, hp, rfl, rfl, hf⟩ := h
  simp only [storeConditionalForms, List.mem_cons, List.not_mem_nil, or_false] at hp
  rcases hp with rfl | rfl | rfl | rfl <;> obtain ⟨b, ofs⟩ | ⟨b, a⟩ := hf <;>
    simp only [← eaOffset_eq, ← eaIndex_eq] <;>
    first
      | exact ⟨.byte, rfl, rfl⟩
      | exact ⟨.half, rfl, rfl⟩
      | exact ⟨.word, rfl, rfl⟩
      | exact ⟨.double, rfl, rfl⟩

end Sys2Proof.Machine
end

