-- ==== Sys2Proof/Laws/PerInstr.lean ====
section
/-!
SUPPORT. The family MatchesTable, one lemma per constructor: an instruction's word has the fixed bits of its row of
spec/opcode_table.json, whatever its operands (30_encoding.md R71 to R74).
-/

open Sys2Proof

/-- The word of the instruction, under the mask of its row of the opcode table, is the row's value. -/
def Sys2Proof.Laws.MatchesTable.Statement (i : Instr) : Prop :=
  encode i &&& (opcodeRow i).1 = (opcodeRow i).2

namespace Sys2Proof.Laws

/-! ### One lemma per format and mask -/

theorem and_ones_1 : ∀ x : BitVec 1, x &&& 1#1 = x := by decide

theorem and_ones_2 : ∀ x : BitVec 2, x &&& 3 = x := by decide

theorem and_ones_3 : ∀ x : BitVec 3, x &&& 7 = x := by decide

theorem and_ones_4 : ∀ x : BitVec 4, x &&& 15 = x := by decide

theorem and_none {n : Nat} (x : BitVec n) : x &&& 0 = 0 := BitVec.and_zero

theorem and_position : ∀ (p : BitVec 2) (x : BitVec 1), (p ++ x) &&& (6 : BitVec 3) = p ++ 0#1 := by decide

theorem encodeRegs_and_fc384 (g : BitVec 2) (f : BitVec 4) (q : BitVec 3) (x : BitVec 1) (r b a : Reg) :
    encodeRegs g f q x r b a &&& 0xFC384000#32 = packWord g f 0 q (0#4 ++ x ++ 0#1 ++ 0#4 ++ 0#9) := by
  have h : packWord (g &&& 3) (f &&& 15) (regField r &&& 0) (q &&& 7)
      ((regField b &&& 0#4) ++ (x &&& 1#1) ++ (0#1 &&& 0#1) ++ (regField a &&& 0#4) ++ (0#9 &&& 0#9)) =
      encodeRegs g f q x r b a &&& packWord 3 15 0 7 (0#4 ++ 1#1 ++ 0#1 ++ 0#4 ++ 0#9) := by
    simp only [encodeRegs, packWord, ← BitVec.and_append]
  exact h.symm.trans (by simp only [and_ones_1, and_ones_2, and_ones_3, and_ones_4, and_none, BitVec.and_zero])

theorem encodeRegs_and_fc386 (g : BitVec 2) (f : BitVec 4) (q : BitVec 3) (x : BitVec 1) (r b a : Reg) :
    encodeRegs g f q x r b a &&& 0xFC386000#32 = packWord g f 0 q (0#4 ++ x ++ 0#1 ++ 0#4 ++ 0#9) := by
  have h : packWord (g &&& 3) (f &&& 15) (regField r &&& 0) (q &&& 7)
      ((regField b &&& 0#4) ++ (x &&& 1#1) ++ (0#1 &&& 1#1) ++ (regField a &&& 0#4) ++ (0#9 &&& 0#9)) =
      encodeRegs g f q x r b a &&& packWord 3 15 0 7 (0#4 ++ 1#1 ++ 1#1 ++ 0#4 ++ 0#9) := by
    simp only [encodeRegs, packWord, ← BitVec.and_append]
  exact h.symm.trans (by simp only [and_ones_1, and_ones_2, and_ones_3, and_ones_4, and_none, BitVec.and_zero])

theorem encodeRegs_and_fc380 (g : BitVec 2) (f : BitVec 4) (q : BitVec 3) (x : BitVec 1) (r b a : Reg) :
    encodeRegs g f q x r b a &&& 0xFC380000#32 = packWord g f 0 q (0#4 ++ 0#1 ++ 0#1 ++ 0#4 ++ 0#9) := by
  have h : packWord (g &&& 3) (f &&& 15) (regField r &&& 0) (q &&& 7)
      ((regField b &&& 0#4) ++ (x &&& 0#1) ++ (0#1 &&& 0#1) ++ (regField a &&& 0#4) ++ (0#9 &&& 0#9)) =
      encodeRegs g f q x r b a &&& packWord 3 15 0 7 (0#4 ++ 0#1 ++ 0#1 ++ 0#4 ++ 0#9) := by
    simp only [encodeRegs, packWord, ← BitVec.and_append]
  exact h.symm.trans (by simp only [and_ones_2, and_ones_3, and_ones_4, and_none, BitVec.and_zero])

theorem encodeImm13_and (g : BitVec 2) (f : BitVec 4) (q : BitVec 3) (x : BitVec 1) (r b : Reg) (imm : BitVec 13) :
    encodeImm13 g f q x r b imm &&& 0xFC384000#32 = packWord g f 0 q (0#4 ++ x ++ 0#1 ++ 0#13) := by
  have h : packWord (g &&& 3) (f &&& 15) (regField r &&& 0) (q &&& 7)
      ((regField b &&& 0#4) ++ (x &&& 1#1) ++ (0#1 &&& 0#1) ++ (imm &&& 0#13)) =
      encodeImm13 g f q x r b imm &&& packWord 3 15 0 7 (0#4 ++ 1#1 ++ 0#1 ++ 0#13) := by
    simp only [encodeImm13, packWord, ← BitVec.and_append]
  exact h.symm.trans (by simp only [and_ones_1, and_ones_2, and_ones_3, and_ones_4, and_none, BitVec.and_zero])

theorem encodeBitField_and (q : BitVec 3) (s : BitVec 1) (r b : Reg) (pos len : BitVec 6) :
    encodeBitField q s r b pos len &&& 0xFC382000#32 = packWord 0 7 0 q (0#4 ++ 0#1 ++ s ++ 0#6 ++ 0#1 ++ 0#6) := by
  have h : packWord (0 &&& 3) (7 &&& 15) (regField r &&& 0) (q &&& 7)
      ((regField b &&& 0#4) ++ (0#1 &&& 0#1) ++ (s &&& 1#1) ++ (pos &&& 0#6) ++ (0#1 &&& 0#1) ++ (len &&& 0#6)) =
      encodeBitField q s r b pos len &&& packWord 3 15 0 7 (0#4 ++ 0#1 ++ 1#1 ++ 0#6 ++ 0#1 ++ 0#6) := by
    simp only [encodeBitField, packWord, ← BitVec.and_append]
  exact h.symm.trans (by simp only [and_ones_1, and_ones_2, and_ones_3, and_ones_4, and_none, BitVec.and_zero])

theorem encodeShift_and_fc382 (q : BitVec 3) (x s : BitVec 1) (r b : Reg) (sa : BitVec 6) :
    encodeShift q x s r b sa &&& 0xFC382000#32 = packWord 0 8 0 q (0#4 ++ 0#1 ++ s ++ 0#7 ++ 0#6) := by
  have h : packWord (0 &&& 3) (8 &&& 15) (regField r &&& 0) (q &&& 7)
      ((regField b &&& 0#4) ++ (x &&& 0#1) ++ (s &&& 1#1) ++ (0#7 &&& 0#7) ++ (sa &&& 0#6)) =
      encodeShift q x s r b sa &&& packWord 3 15 0 7 (0#4 ++ 0#1 ++ 1#1 ++ 0#7 ++ 0#6) := by
    simp only [encodeShift, packWord, ← BitVec.and_append]
  exact h.symm.trans (by simp only [and_ones_1, and_ones_2, and_ones_3, and_ones_4, and_none, BitVec.and_zero])

theorem encodeShift_and_fc386 (q : BitVec 3) (x s : BitVec 1) (r b : Reg) (sa : BitVec 6) :
    encodeShift q x s r b sa &&& 0xFC386000#32 = packWord 0 8 0 q (0#4 ++ x ++ s ++ 0#7 ++ 0#6) := by
  have h : packWord (0 &&& 3) (8 &&& 15) (regField r &&& 0) (q &&& 7)
      ((regField b &&& 0#4) ++ (x &&& 1#1) ++ (s &&& 1#1) ++ (0#7 &&& 0#7) ++ (sa &&& 0#6)) =
      encodeShift q x s r b sa &&& packWord 3 15 0 7 (0#4 ++ 1#1 ++ 1#1 ++ 0#7 ++ 0#6) := by
    simp only [encodeShift, packWord, ← BitVec.and_append]
  exact h.symm.trans (by simp only [and_ones_1, and_ones_2, and_ones_3, and_ones_4, and_none, BitVec.and_zero])

theorem encodeImm20_and (p : BitVec 2) (r : Reg) (imm : BitVec 20) :
    encodeImm20 p r imm &&& 0xFC300000#32 = packWord 0 9 0 (p ++ 0#1) 0 := by
  have h : packWord (0 &&& 3) (9 &&& 15) (regField r &&& 0) ((p ++ imm.extractLsb' 19 1) &&& 6)
      (imm.extractLsb' 0 19 &&& 0) =
      encodeImm20 p r imm &&& packWord 3 15 0 6 0 := by
    simp only [encodeImm20, packWord, ← BitVec.and_append]
  exact h.symm.trans (by
    simp only [and_ones_2, and_ones_4, and_none]
    exact congrArg (packWord 0 9 0 · 0) (and_position ..))

theorem encodeImm15_and (g : BitVec 2) (f : BitVec 4) (q : BitVec 3) (r b : Reg) (imm : BitVec 15) :
    encodeImm15 g f q r b imm &&& 0xFC380000#32 = packWord g f 0 q (0#4 ++ 0#15) := by
  have h : packWord (g &&& 3) (f &&& 15) (regField r &&& 0) (q &&& 7)
      ((regField b &&& 0#4) ++ (imm &&& 0#15)) =
      encodeImm15 g f q r b imm &&& packWord 3 15 0 7 (0#4 ++ 0#15) := by
    simp only [encodeImm15, packWord, ← BitVec.and_append]
  exact h.symm.trans (by simp only [and_ones_2, and_ones_3, and_ones_4, and_none, BitVec.and_zero])

theorem encodeImm19_and (g : BitVec 2) (f : BitVec 4) (q : BitVec 3) (r : Reg) (imm : BitVec 19) :
    encodeImm19 g f q r imm &&& 0xFC380000#32 = packWord g f 0 q 0 := by
  have h : packWord (g &&& 3) (f &&& 15) (regField r &&& 0) (q &&& 7)
      (imm &&& 0) =
      encodeImm19 g f q r imm &&& packWord 3 15 0 7 0 := by
    simp only [encodeImm19, packWord, ← BitVec.and_append]
  exact h.symm.trans (by simp only [and_ones_2, and_ones_3, and_ones_4, and_none])

theorem encodeBranchBit_and (q : BitVec 3) (r : Reg) (pos : BitVec 6) (imm : BitVec 13) :
    encodeBranchBit q r pos imm &&& 0xFC380000#32 = packWord 2 4 0 q (0#6 ++ 0#13) := by
  have h : packWord (2 &&& 3) (4 &&& 15) (regField r &&& 0) (q &&& 7)
      ((pos &&& 0#6) ++ (imm &&& 0#13)) =
      encodeBranchBit q r pos imm &&& packWord 3 15 0 7 (0#6 ++ 0#13) := by
    simp only [encodeBranchBit, packWord, ← BitVec.and_append]
  exact h.symm.trans (by simp only [and_ones_2, and_ones_3, and_ones_4, and_none, BitVec.and_zero])

theorem encodeMask_and (q : BitVec 3) (r : Reg) (imm : BitVec 13) :
    encodeMask q r imm &&& 0xFC380000#32 = packWord 3 6 0 q (0#6 ++ 0#13) := by
  have h : packWord (3 &&& 3) (6 &&& 15) (regField r &&& 0) (q &&& 7)
      ((0#6 &&& 0#6) ++ (imm &&& 0#13)) =
      encodeMask q r imm &&& packWord 3 15 0 7 (0#6 ++ 0#13) := by
    simp only [encodeMask, packWord, ← BitVec.and_append]
  exact h.symm.trans (by simp only [and_ones_2, and_ones_3, and_ones_4, and_none, BitVec.and_zero])

theorem encodeRB_and_fc380 (g : BitVec 2) (f : BitVec 4) (q : BitVec 3) (r b : Reg) :
    encodeRB g f q r b &&& 0xFC380000#32 = packWord g f 0 q (0#4 ++ 0#15) := by
  have h : packWord (g &&& 3) (f &&& 15) (regField r &&& 0) (q &&& 7)
      ((regField b &&& 0#4) ++ (0#15 &&& 0#15)) =
      encodeRB g f q r b &&& packWord 3 15 0 7 (0#4 ++ 0#15) := by
    simp only [encodeRB, packWord, ← BitVec.and_append]
  exact h.symm.trans (by simp only [and_ones_2, and_ones_3, and_ones_4, and_none, BitVec.and_zero])

theorem encodeRB_and_fc000 (g : BitVec 2) (f : BitVec 4) (q : BitVec 3) (r b : Reg) :
    encodeRB g f q r b &&& 0xFC000000#32 = packWord g f 0 0 (0#4 ++ 0#15) := by
  have h : packWord (g &&& 3) (f &&& 15) (regField r &&& 0) (q &&& 0)
      ((regField b &&& 0#4) ++ (0#15 &&& 0#15)) =
      encodeRB g f q r b &&& packWord 3 15 0 0 (0#4 ++ 0#15) := by
    simp only [encodeRB, packWord, ← BitVec.and_append]
  exact h.symm.trans (by simp only [and_ones_2, and_ones_4, and_none, BitVec.and_zero])

/-! ### The constructors -/

namespace MatchesTable

theorem nop : Statement .nop := encodeRB_and_fc000 ..
theorem addR (r b a : Reg) : Statement (.addR r b a) := encodeRegs_and_fc384 ..
theorem addI (r b : Reg) (imm : BitVec 13) : Statement (.addI r b imm) := encodeImm13_and ..
theorem subR (r b a : Reg) : Statement (.subR r b a) := encodeRegs_and_fc384 ..
theorem subI (r b : Reg) (imm : BitVec 13) : Statement (.subI r b imm) := encodeImm13_and ..
theorem andR (r b a : Reg) : Statement (.andR r b a) := encodeRegs_and_fc384 ..
theorem andI (r b : Reg) (imm : BitVec 13) : Statement (.andI r b imm) := encodeImm13_and ..
theorem orR (r b a : Reg) : Statement (.orR r b a) := encodeRegs_and_fc384 ..
theorem orI (r b : Reg) (imm : BitVec 13) : Statement (.orI r b imm) := encodeImm13_and ..
theorem xorR (r b a : Reg) : Statement (.xorR r b a) := encodeRegs_and_fc384 ..
theorem xorI (r b : Reg) (imm : BitVec 13) : Statement (.xorI r b imm) := encodeImm13_and ..
theorem cmpEqR (r b a : Reg) : Statement (.cmpEqR r b a) := encodeRegs_and_fc384 ..
theorem cmpEqI (r b : Reg) (imm : BitVec 13) : Statement (.cmpEqI r b imm) := encodeImm13_and ..
theorem cmpNeR (r b a : Reg) : Statement (.cmpNeR r b a) := encodeRegs_and_fc384 ..
theorem cmpNeI (r b : Reg) (imm : BitVec 13) : Statement (.cmpNeI r b imm) := encodeImm13_and ..
theorem cmpLtR (r b a : Reg) : Statement (.cmpLtR r b a) := encodeRegs_and_fc384 ..
theorem cmpLtI (r b : Reg) (imm : BitVec 13) : Statement (.cmpLtI r b imm) := encodeImm13_and ..
theorem cmpLeR (r b a : Reg) : Statement (.cmpLeR r b a) := encodeRegs_and_fc384 ..
theorem cmpLeI (r b : Reg) (imm : BitVec 13) : Statement (.cmpLeI r b imm) := encodeImm13_and ..
theorem cmpGtR (r b a : Reg) : Statement (.cmpGtR r b a) := encodeRegs_and_fc384 ..
theorem cmpGtI (r b : Reg) (imm : BitVec 13) : Statement (.cmpGtI r b imm) := encodeImm13_and ..
theorem cmpGeR (r b a : Reg) : Statement (.cmpGeR r b a) := encodeRegs_and_fc384 ..
theorem cmpGeI (r b : Reg) (imm : BitVec 13) : Statement (.cmpGeI r b imm) := encodeImm13_and ..
theorem cmpLtuR (r b a : Reg) : Statement (.cmpLtuR r b a) := encodeRegs_and_fc384 ..
theorem cmpLtuI (r b : Reg) (imm : BitVec 13) : Statement (.cmpLtuI r b imm) := encodeImm13_and ..
theorem cmpGeuR (r b a : Reg) : Statement (.cmpGeuR r b a) := encodeRegs_and_fc384 ..
theorem cmpGeuI (r b : Reg) (imm : BitVec 13) : Statement (.cmpGeuI r b imm) := encodeImm13_and ..
theorem extru (r b : Reg) (pos len : BitVec 6) : Statement (.extru r b pos len) := encodeBitField_and ..
theorem extruShamt (r b : Reg) (len : BitVec 6) : Statement (.extruShamt r b len) := encodeBitField_and ..
theorem extrs (r b : Reg) (pos len : BitVec 6) : Statement (.extrs r b pos len) := encodeBitField_and ..
theorem extrsShamt (r b : Reg) (len : BitVec 6) : Statement (.extrsShamt r b len) := encodeBitField_and ..
theorem dep (r b : Reg) (pos len : BitVec 6) : Statement (.dep r b pos len) := encodeBitField_and ..
theorem depShamt (r b : Reg) (len : BitVec 6) : Statement (.depShamt r b len) := encodeBitField_and ..
theorem shlR (r b a : Reg) : Statement (.shlR r b a) := encodeRegs_and_fc386 ..
theorem shlI (r b : Reg) (sa : BitVec 6) : Statement (.shlI r b sa) := encodeShift_and_fc386 ..
theorem shlShamt (r b : Reg) : Statement (.shlShamt r b) := encodeShift_and_fc382 ..
theorem shrR (r b a : Reg) : Statement (.shrR r b a) := encodeRegs_and_fc386 ..
theorem shrI (r b : Reg) (sa : BitVec 6) : Statement (.shrI r b sa) := encodeShift_and_fc386 ..
theorem shrShamt (r b : Reg) : Statement (.shrShamt r b) := encodeShift_and_fc382 ..
theorem shraR (r b a : Reg) : Statement (.shraR r b a) := encodeRegs_and_fc386 ..
theorem shraI (r b : Reg) (sa : BitVec 6) : Statement (.shraI r b sa) := encodeShift_and_fc386 ..
theorem shraShamt (r b : Reg) : Statement (.shraShamt r b) := encodeShift_and_fc382 ..
theorem ldiL (r : Reg) (imm : BitVec 20) : Statement (.ldiL r imm) := encodeImm20_and ..
theorem ldiM (r : Reg) (imm : BitVec 20) : Statement (.ldiM r imm) := encodeImm20_and ..
theorem ldiU (r : Reg) (imm : BitVec 20) : Statement (.ldiU r imm) := encodeImm20_and ..
theorem ldiT (r : Reg) (imm : BitVec 20) : Statement (.ldiT r imm) := encodeImm20_and ..
theorem ldo (r b : Reg) (imm : BitVec 15) : Statement (.ldo r b imm) := encodeImm15_and ..
theorem ldBO (r b : Reg) (ofs : BitVec 13) : Statement (.ldBO r b ofs) := encodeImm13_and ..
theorem ldBX (r b a : Reg) : Statement (.ldBX r b a) := encodeRegs_and_fc384 ..
theorem ldBSO (r b : Reg) (ofs : BitVec 13) : Statement (.ldBSO r b ofs) := encodeImm13_and ..
theorem ldBSX (r b a : Reg) : Statement (.ldBSX r b a) := encodeRegs_and_fc384 ..
theorem ldHO (r b : Reg) (ofs : BitVec 13) : Statement (.ldHO r b ofs) := encodeImm13_and ..
theorem ldHX (r b a : Reg) : Statement (.ldHX r b a) := encodeRegs_and_fc384 ..
theorem ldHSO (r b : Reg) (ofs : BitVec 13) : Statement (.ldHSO r b ofs) := encodeImm13_and ..
theorem ldHSX (r b a : Reg) : Statement (.ldHSX r b a) := encodeRegs_and_fc384 ..
theorem ldWO (r b : Reg) (ofs : BitVec 13) : Statement (.ldWO r b ofs) := encodeImm13_and ..
theorem ldWX (r b a : Reg) : Statement (.ldWX r b a) := encodeRegs_and_fc384 ..
theorem ldWSO (r b : Reg) (ofs : BitVec 13) : Statement (.ldWSO r b ofs) := encodeImm13_and ..
theorem ldWSX (r b a : Reg) : Statement (.ldWSX r b a) := encodeRegs_and_fc384 ..
theorem ldDO (r b : Reg) (ofs : BitVec 13) : Statement (.ldDO r b ofs) := encodeImm13_and ..
theorem ldDX (r b a : Reg) : Statement (.ldDX r b a) := encodeRegs_and_fc384 ..
theorem ldDSO (r b : Reg) (ofs : BitVec 13) : Statement (.ldDSO r b ofs) := encodeImm13_and ..
theorem ldDSX (r b a : Reg) : Statement (.ldDSX r b a) := encodeRegs_and_fc384 ..
theorem stBO (r b : Reg) (ofs : BitVec 13) : Statement (.stBO r b ofs) := encodeImm13_and ..
theorem stBX (r b a : Reg) : Statement (.stBX r b a) := encodeRegs_and_fc384 ..
theorem stHO (r b : Reg) (ofs : BitVec 13) : Statement (.stHO r b ofs) := encodeImm13_and ..
theorem stHX (r b a : Reg) : Statement (.stHX r b a) := encodeRegs_and_fc384 ..
theorem stWO (r b : Reg) (ofs : BitVec 13) : Statement (.stWO r b ofs) := encodeImm13_and ..
theorem stWX (r b a : Reg) : Statement (.stWX r b a) := encodeRegs_and_fc384 ..
theorem stDO (r b : Reg) (ofs : BitVec 13) : Statement (.stDO r b ofs) := encodeImm13_and ..
theorem stDX (r b a : Reg) : Statement (.stDX r b a) := encodeRegs_and_fc384 ..
theorem ldrBO (r b : Reg) (ofs : BitVec 13) : Statement (.ldrBO r b ofs) := encodeImm13_and ..
theorem ldrBX (r b a : Reg) : Statement (.ldrBX r b a) := encodeRegs_and_fc384 ..
theorem ldrBSO (r b : Reg) (ofs : BitVec 13) : Statement (.ldrBSO r b ofs) := encodeImm13_and ..
theorem ldrBSX (r b a : Reg) : Statement (.ldrBSX r b a) := encodeRegs_and_fc384 ..
theorem ldrHO (r b : Reg) (ofs : BitVec 13) : Statement (.ldrHO r b ofs) := encodeImm13_and ..
theorem ldrHX (r b a : Reg) : Statement (.ldrHX r b a) := encodeRegs_and_fc384 ..
theorem ldrHSO (r b : Reg) (ofs : BitVec 13) : Statement (.ldrHSO r b ofs) := encodeImm13_and ..
theorem ldrHSX (r b a : Reg) : Statement (.ldrHSX r b a) := encodeRegs_and_fc384 ..
theorem ldrWO (r b : Reg) (ofs : BitVec 13) : Statement (.ldrWO r b ofs) := encodeImm13_and ..
theorem ldrWX (r b a : Reg) : Statement (.ldrWX r b a) := encodeRegs_and_fc384 ..
theorem ldrWSO (r b : Reg) (ofs : BitVec 13) : Statement (.ldrWSO r b ofs) := encodeImm13_and ..
theorem ldrWSX (r b a : Reg) : Statement (.ldrWSX r b a) := encodeRegs_and_fc384 ..
theorem ldrDO (r b : Reg) (ofs : BitVec 13) : Statement (.ldrDO r b ofs) := encodeImm13_and ..
theorem ldrDX (r b a : Reg) : Statement (.ldrDX r b a) := encodeRegs_and_fc384 ..
theorem ldrDSO (r b : Reg) (ofs : BitVec 13) : Statement (.ldrDSO r b ofs) := encodeImm13_and ..
theorem ldrDSX (r b a : Reg) : Statement (.ldrDSX r b a) := encodeRegs_and_fc384 ..
theorem stcBO (r b : Reg) (ofs : BitVec 13) : Statement (.stcBO r b ofs) := encodeImm13_and ..
theorem stcBX (r b a : Reg) : Statement (.stcBX r b a) := encodeRegs_and_fc384 ..
theorem stcHO (r b : Reg) (ofs : BitVec 13) : Statement (.stcHO r b ofs) := encodeImm13_and ..
theorem stcHX (r b a : Reg) : Statement (.stcHX r b a) := encodeRegs_and_fc384 ..
theorem stcWO (r b : Reg) (ofs : BitVec 13) : Statement (.stcWO r b ofs) := encodeImm13_and ..
theorem stcWX (r b a : Reg) : Statement (.stcWX r b a) := encodeRegs_and_fc384 ..
theorem stcDO (r b : Reg) (ofs : BitVec 13) : Statement (.stcDO r b ofs) := encodeImm13_and ..
theorem stcDX (r b a : Reg) : Statement (.stcDX r b a) := encodeRegs_and_fc384 ..
theorem b (r : Reg) (disp : BitVec 19) : Statement (.b r disp) := encodeImm19_and ..
theorem br (r b : Reg) : Statement (.br r b) := encodeRB_and_fc380 ..
theorem bv (r b a : Reg) : Statement (.bv r b a) := encodeRegs_and_fc380 ..
theorem bbF (r : Reg) (pos : BitVec 6) (disp : BitVec 13) : Statement (.bbF r pos disp) := encodeBranchBit_and ..
theorem bbT (r : Reg) (pos : BitVec 6) (disp : BitVec 13) : Statement (.bbT r pos disp) := encodeBranchBit_and ..
theorem bbFShamt (r : Reg) (disp : BitVec 13) : Statement (.bbFShamt r disp) := encodeBranchBit_and ..
theorem bbTShamt (r : Reg) (disp : BitVec 13) : Statement (.bbTShamt r disp) := encodeBranchBit_and ..
theorem cbrEq (r b : Reg) (disp : BitVec 15) : Statement (.cbrEq r b disp) := encodeImm15_and ..
theorem cbrNe (r b : Reg) (disp : BitVec 15) : Statement (.cbrNe r b disp) := encodeImm15_and ..
theorem cbrLt (r b : Reg) (disp : BitVec 15) : Statement (.cbrLt r b disp) := encodeImm15_and ..
theorem cbrLe (r b : Reg) (disp : BitVec 15) : Statement (.cbrLe r b disp) := encodeImm15_and ..
theorem cbrGt (r b : Reg) (disp : BitVec 15) : Statement (.cbrGt r b disp) := encodeImm15_and ..
theorem cbrGe (r b : Reg) (disp : BitVec 15) : Statement (.cbrGe r b disp) := encodeImm15_and ..
theorem cbrLtu (r b : Reg) (disp : BitVec 15) : Statement (.cbrLtu r b disp) := encodeImm15_and ..
theorem cbrGeu (r b : Reg) (disp : BitVec 15) : Statement (.cbrGeu r b disp) := encodeImm15_and ..
theorem mbr (b : Reg) : Statement (.mbr b) := encodeRB_and_fc380 ..
theorem mfcr (r : Reg) (n : CrSlot) : Statement (.mfcr r n) := encodeRB_and_fc380 ..
theorem mtcr (n : CrSlot) (r : Reg) : Statement (.mtcr n r) := encodeRB_and_fc380 ..
theorem lpa (r b : Reg) : Statement (.lpa r b) := encodeRB_and_fc380 ..
theorem prbR (r b : Reg) : Statement (.prbR r b) := encodeRB_and_fc380 ..
theorem prbW (r b : Reg) : Statement (.prbW r b) := encodeRB_and_fc380 ..
theorem prbX (r b : Reg) : Statement (.prbX r b) := encodeRB_and_fc380 ..
theorem tlbIns (r b a : Reg) : Statement (.tlbIns r b a) := encodeRegs_and_fc380 ..
theorem tlbPrg (b : Reg) : Statement (.tlbPrg b) := encodeRB_and_fc380 ..
theorem ca : Statement .ca := encodeRB_and_fc000 ..
theorem rsm (r : Reg) (mask : BitVec 13) : Statement (.rsm r mask) := encodeMask_and ..
theorem ssm (r : Reg) (mask : BitVec 13) : Statement (.ssm r mask) := encodeMask_and ..
theorem rfi (n : CrSlot) : Statement (.rfi n) := encodeRB_and_fc380 ..
theorem trap (code : BitVec 19) : Statement (.trap code) := encodeImm19_and ..
theorem halt : Statement .halt := encodeRB_and_fc380 ..

end MatchesTable

end Sys2Proof.Laws
end

