-- ==== Sys2Proof/Laws/Step.lean ====
section
/-!
SUPPORT. What a fetch and a step can do, said once, and what the word of a decoded instruction says about it.
-/

namespace Sys2Proof.Machine

/-! ### The fetch (30_encoding.md R81) -/

/-- A fetch answers the word at the address `Translate` reaches, with IR written, or the trap, with IR as it was. -/
theorem fetch_cases (s : State) :
    (∃ sp pa u, translate s (s.psw.ia.setWidth 64) 4 .execute = (.ok sp pa, u) ∧
      fetch s = (.ok (BitVec.ofNat 32 (regionValue u sp pa 4)),
        { u with ir := BitVec.ofNat 32 (regionValue u sp pa 4), ioHistory := historyAfterRead u sp pa 4 })) ∨
    (∃ c u, translate s (s.psw.ia.setWidth 64) 4 .execute = (.trap c, u) ∧ fetch s = (.error c, u)) := by
  unfold fetch
  rcases ht : translate s (s.psw.ia.setWidth 64) 4 .execute with ⟨x, u⟩
  cases x with
  | ok sp pa =>
    refine .inl ⟨sp, pa, u, rfl, ?_⟩
    have hw : (BitVec.ofNat 64 (regionValue u sp pa 4)).setWidth 32 = BitVec.ofNat 32 (regionValue u sp pa 4) := by
      apply BitVec.eq_of_toNat_eq
      have h := regionValue_lt u sp pa 4
      rw [BitVec.toNat_setWidth, BitVec.toNat_ofNat, BitVec.toNat_ofNat]
      omega
    simp only [regionRead_eq, hw]
  | trap c => exact .inr ⟨c, u, rfl, rfl⟩

/-- What a fetch that answers a word leaves: IR holds it, and nothing else changes but recency and, where an attached
device answered, its history. -/
theorem fetch_ok {s s1 : State} {w : InstrWord} (h : fetch s = (.ok w, s1)) :
    ∃ u, RecencyOnly s u ∧ s1 = { u with ir := w, ioHistory := s1.ioHistory } := by
  rcases fetch_cases s with ⟨sp, pa, u, ht, hf⟩ | ⟨c, u, ht, hf⟩
  · rw [hf] at h
    cases h
    exact ⟨u, recencyOnly_of_translate ht, rfl⟩
  · rw [hf] at h
    cases h

/-- What a fetch that traps leaves. -/
theorem fetch_error {s s1 : State} {c : TrapCode} (h : fetch s = (.error c, s1)) :
    RecencyOnly s s1 ∧ (c = .alignment ∨ c = .tlbAccess ∨ c = .protection ∨ c = .ioMemoryAddress ∨
      c = .physicalMemoryAddress) := by
  rcases fetch_cases s with ⟨sp, pa, u, ht, hf⟩ | ⟨c', u, ht, hf⟩
  · rw [hf] at h
    cases h
  · rw [hf] at h
    cases h
    exact ⟨recencyOnly_of_translate ht, translate_trap ht⟩

section FetchOk
variable {s s1 : State} {w : InstrWord} (h : fetch s = (.ok w, s1))
include h

theorem fetch_ir : s1.ir = w := by obtain ⟨u, -, he⟩ := fetch_ok h; rw [he]
theorem fetch_params : s1.params = s.params := by obtain ⟨u, hu, he⟩ := fetch_ok h; rw [he]; exact hu.params
theorem fetch_gr : s1.gr = s.gr := by obtain ⟨u, hu, he⟩ := fetch_ok h; rw [he]; exact hu.gr
theorem fetch_psw : s1.psw = s.psw := by obtain ⟨u, hu, he⟩ := fetch_ok h; rw [he]; exact hu.psw
theorem fetch_cr : s1.cr = s.cr := by obtain ⟨u, hu, he⟩ := fetch_ok h; rw [he]; exact hu.cr
theorem fetch_res : s1.res = s.res := by obtain ⟨u, hu, he⟩ := fetch_ok h; rw [he]; exact hu.res
theorem fetch_lastTrap : s1.lastTrap = s.lastTrap := by obtain ⟨u, hu, he⟩ := fetch_ok h; rw [he]; exact hu.lastTrap
theorem fetch_run : s1.run = s.run := by obtain ⟨u, hu, he⟩ := fetch_ok h; rw [he]; exact hu.run
theorem fetch_mem : s1.mem = s.mem := by obtain ⟨u, hu, he⟩ := fetch_ok h; rw [he]; exact hu.mem
theorem fetch_readGr (j : Reg) : s1.readGr j = s.readGr j := by simp only [State.readGr, fetch_gr h]
theorem fetch_recency : SameTlbButRecency s s1 := by
  obtain ⟨u, hu, he⟩ := fetch_ok h
  rw [he]
  exact hu.tlb.trans (.of_eq rfl rfl)
theorem fetch_touched : ∃ u, RecencyOnly s u ∧ s1.tlb = u.tlb ∧ s1.tlbTick = u.tlbTick := by
  obtain ⟨u, hu, he⟩ := fetch_ok h
  exact ⟨u, hu, by rw [he], by rw [he]⟩

end FetchOk

/-! ### The step -/

theorem step_running {s : State} (h : s.run = .running) : step s = cycle s := by
  rw [step, h]

theorem step_stopped {s : State} (h : s.run ≠ .running) : step s = .next s := by
  unfold step
  cases hr : s.run <;> simp_all

/-- The step after a fetch that answered a word. -/
theorem step_of_fetch {s s1 : State} {w : InstrWord} (hr : s.run = .running) (hf : fetch s = (.ok w, s1)) :
    step s = match decode w with
      | .ok i => exec i s1
      | .error _ => .next s1.raiseIllegal := by
  rw [step_running hr, cycle, hf]
  try rfl

/-- The step after a fetch that trapped. -/
theorem step_of_fetchTrap {s s1 : State} {c : TrapCode} (hr : s.run = .running) (hf : fetch s = (.error c, s1)) :
    step s = .next (s1.raiseFetch c) := by
  rw [step_running hr, cycle, hf]

/-- Everything a step can do. -/
theorem step_cases {s t : State} (h : step s = .next t) :
    (s.run ≠ .running ∧ t = s) ∨
    (s.run = .running ∧ ∃ c s1, fetch s = (.error c, s1) ∧ t = s1.raiseFetch c) ∨
    (s.run = .running ∧ ∃ w s1 e, fetch s = (.ok w, s1) ∧ decode w = .error e ∧ t = s1.raiseIllegal) ∨
    (s.run = .running ∧ ∃ w s1 i, fetch s = (.ok w, s1) ∧ decode w = .ok i ∧ exec i s1 = .next t ∧
      ExecCase i s1 t) := by
  by_cases hr : s.run = .running
  · rcases hf : fetch s with ⟨x, s1⟩
    cases x with
    | error c =>
      rw [step_of_fetchTrap hr hf] at h
      cases h
      exact .inr (.inl ⟨hr, c, s1, rfl, rfl⟩)
    | ok w =>
      rw [step_of_fetch hr hf] at h
      cases hd : decode w with
      | error e =>
        rw [hd] at h
        cases h
        exact .inr (.inr (.inl ⟨hr, w, s1, e, rfl, hd, rfl⟩))
      | ok i =>
        rw [hd] at h
        exact .inr (.inr (.inr ⟨hr, w, s1, i, rfl, hd, h, exec_cases h⟩))
  · rw [step_stopped hr] at h
    cases h
    exact .inl ⟨hr, rfl⟩

/-- A word that does not decode raises IllegalInstruction (30_encoding.md R75). -/
theorem raisesIllegal_of_decode {w : InstrWord} {e : Reject} (h : decode w = .error e) : RaisesIllegal w := by
  intro s s1 hr hf
  rw [step_of_fetch hr hf, h]
  simp only [State.raiseIllegal, State.raise, State.trappedWith, fetch_ir hf, fetch_psw hf]

/-! ### The word of a decoded instruction -/

/-- The decoder on a word whose group, family and qualifier are known. -/
theorem decode_of_fields {w : InstrWord} {g f q : Nat} (h : InFamily w g f) (hq : qualifier w = q) :
    decode w = dispatchFields { fieldsOf w with g := BitVec.ofNat 2 g, f := BitVec.ofNat 4 f, q := BitVec.ofNat 3 q } := by
  rw [decode, ← (fields_of_inFamily h).1, ← (fields_of_inFamily h).2, ← field_of_qualifier hq]

/-- The group and the family of an instruction (30_encoding.md R71 to R74). -/
def familyOf : Instr → Nat × Nat
  | .nop => (0, 0)
  | .addR _ _ _ | .addI _ _ _ => (0, 1)
  | .subR _ _ _ | .subI _ _ _ => (0, 2)
  | .andR _ _ _ | .andI _ _ _ => (0, 3)
  | .orR _ _ _ | .orI _ _ _ => (0, 4)
  | .xorR _ _ _ | .xorI _ _ _ => (0, 5)
  | .cmpEqR _ _ _ | .cmpEqI _ _ _ | .cmpNeR _ _ _ | .cmpNeI _ _ _ | .cmpLtR _ _ _ | .cmpLtI _ _ _
  | .cmpLeR _ _ _ | .cmpLeI _ _ _ | .cmpGtR _ _ _ | .cmpGtI _ _ _ | .cmpGeR _ _ _ | .cmpGeI _ _ _
  | .cmpLtuR _ _ _ | .cmpLtuI _ _ _ | .cmpGeuR _ _ _ | .cmpGeuI _ _ _ => (0, 6)
  | .extru _ _ _ _ | .extruShamt _ _ _ | .extrs _ _ _ _ | .extrsShamt _ _ _ | .dep _ _ _ _ | .depShamt _ _ _ => (0, 7)
  | .shlR _ _ _ | .shlI _ _ _ | .shlShamt _ _ | .shrR _ _ _ | .shrI _ _ _ | .shrShamt _ _ | .shraR _ _ _
  | .shraI _ _ _ | .shraShamt _ _ => (0, 8)
  | .ldiL _ _ | .ldiM _ _ | .ldiU _ _ | .ldiT _ _ => (0, 9)
  | .ldo _ _ _ => (0, 10)
  | .ldBO _ _ _ | .ldBX _ _ _ | .ldBSO _ _ _ | .ldBSX _ _ _ | .ldHO _ _ _ | .ldHX _ _ _ | .ldHSO _ _ _
  | .ldHSX _ _ _ | .ldWO _ _ _ | .ldWX _ _ _ | .ldWSO _ _ _ | .ldWSX _ _ _ | .ldDO _ _ _ | .ldDX _ _ _
  | .ldDSO _ _ _ | .ldDSX _ _ _ => (1, 8)
  | .stBO _ _ _ | .stBX _ _ _ | .stHO _ _ _ | .stHX _ _ _ | .stWO _ _ _ | .stWX _ _ _ | .stDO _ _ _
  | .stDX _ _ _ => (1, 9)
  | .ldrBO _ _ _ | .ldrBX _ _ _ | .ldrBSO _ _ _ | .ldrBSX _ _ _ | .ldrHO _ _ _ | .ldrHX _ _ _ | .ldrHSO _ _ _
  | .ldrHSX _ _ _ | .ldrWO _ _ _ | .ldrWX _ _ _ | .ldrWSO _ _ _ | .ldrWSX _ _ _ | .ldrDO _ _ _ | .ldrDX _ _ _
  | .ldrDSO _ _ _ | .ldrDSX _ _ _ => (1, 10)
  | .stcBO _ _ _ | .stcBX _ _ _ | .stcHO _ _ _ | .stcHX _ _ _ | .stcWO _ _ _ | .stcWX _ _ _ | .stcDO _ _ _
  | .stcDX _ _ _ => (1, 11)
  | .b _ _ => (2, 1)
  | .br _ _ => (2, 2)
  | .bv _ _ _ => (2, 3)
  | .bbF _ _ _ | .bbT _ _ _ | .bbFShamt _ _ | .bbTShamt _ _ => (2, 4)
  | .cbrEq _ _ _ | .cbrNe _ _ _ | .cbrLt _ _ _ | .cbrLe _ _ _ | .cbrGt _ _ _ | .cbrGe _ _ _ | .cbrLtu _ _ _
  | .cbrGeu _ _ _ => (2, 5)
  | .mbr _ => (2, 6)
  | .mfcr _ _ | .mtcr _ _ => (3, 1)
  | .lpa _ _ => (3, 2)
  | .prbR _ _ | .prbW _ _ | .prbX _ _ => (3, 3)
  | .tlbIns _ _ _ | .tlbPrg _ => (3, 4)
  | .ca => (3, 5)
  | .rsm _ _ | .ssm _ _ => (3, 6)
  | .rfi _ => (3, 7)
  | .trap _ => (3, 8)
  | .halt => (3, 9)

/-- What the word of a decoded instruction says: its group and family, its destination in bits 25:22 and its
control-register id in bits 18:15 (30_encoding.md R66, R70). -/
theorem decode_family {w : InstrWord} {i : Instr} (h : decode w = .ok i) :
    (wordBits w 30 2, wordBits w 26 4) = familyOf i ∧ (∀ r, destinationOf i = some r → r = regAt w 22) ∧
      ∀ n, i.crSlot? = some n → n = regAt w 15 := by
  have key : ∀ (g : BitVec 2) (f : BitVec 4), (fieldsOf w).g = g → (fieldsOf w).f = f →
      (wordBits w 30 2, wordBits w 26 4) = (g.toNat, f.toNat) := by
    rintro _ _ rfl rfl
    rw [wordBits_eq, wordBits_eq]; rfl
  have hreg : (fieldsOf w).r.toFin = regAt w 22 := by rw [regAt_eq]; rfl
  have hcr : (fieldsOf w).b.toFin = regAt w 15 := by rw [regAt_eq]; rfl
  unfold decode dispatchFields at h
  split at h <;> rename_i hg
  · unfold dispatchAluGroup at h
    split at h <;> rename_i hf <;> first | contradiction | rw [key _ _ hg hf]
    all_goals first
      | unfold dispatchNop at h | unfold dispatchAdd at h | unfold dispatchSub at h | unfold dispatchAnd at h
      | unfold dispatchOr at h | unfold dispatchXor at h | unfold dispatchCmp at h | unfold dispatchBitop at h
      | unfold dispatchShaop at h | unfold dispatchImmop at h | unfold dispatchLdo at h
    all_goals (try split at h)
    all_goals first | contradiction | skip
    all_goals (try split at h)
    all_goals (try split at h)
    all_goals
      (cases h
       refine ⟨rfl, ?_, ?_⟩ <;> rintro r ⟨⟩ <;> exact hreg)
  · unfold dispatchMemGroup at h
    split at h <;> rename_i hf <;> first | contradiction | rw [key _ _ hg hf]
    all_goals first
      | unfold dispatchLd at h | unfold dispatchSt at h | unfold dispatchLdr at h | unfold dispatchStc at h
    all_goals (try split at h)
    all_goals first | contradiction | skip
    all_goals split at h
    all_goals
      (cases h
       refine ⟨rfl, ?_, ?_⟩ <;> rintro r ⟨⟩ <;> exact hreg)
  · unfold dispatchBrGroup at h
    split at h <;> rename_i hf <;> first | contradiction | rw [key _ _ hg hf]
    all_goals first
      | unfold dispatchB at h | unfold dispatchBr at h | unfold dispatchBv at h | unfold dispatchBb at h
      | unfold dispatchCbr at h | unfold dispatchMbr at h
    all_goals (try split at h)
    all_goals first | contradiction | skip
    all_goals
      (cases h
       refine ⟨rfl, ?_, ?_⟩ <;> rintro r ⟨⟩ <;> exact hreg)
  · unfold dispatchSysGroup at h
    split at h <;> rename_i hf <;> first | contradiction | rw [key _ _ hg hf]
    all_goals first
      | unfold dispatchMr at h | unfold dispatchLpa at h | unfold dispatchPrb at h | unfold dispatchTlb at h
      | unfold dispatchCa at h | unfold dispatchMst at h | unfold dispatchRfi at h | unfold dispatchTrap at h
      | unfold dispatchDiag at h
    all_goals (try split at h)
    all_goals first | contradiction | skip
    all_goals
      (cases h
       refine ⟨rfl, ?_, ?_⟩ <;> rintro r ⟨⟩ <;> first | exact hreg | exact hcr)

/-- The qualifier of a word of an assigned family that decodes is one the family assigns. -/
theorem decode_assigned {w : InstrWord} {i : Instr} (h : decode w = .ok i) :
    Assigned (wordBits w 30 2) (wordBits w 26 4) (qualifier w) := by
  have hg' : wordBits w 30 2 = (fieldsOf w).g.toNat := wordBits_eq w 30 2
  have hf' : wordBits w 26 4 = (fieldsOf w).f.toNat := wordBits_eq w 26 4
  have hq' : qualifier w = (fieldsOf w).q.toNat := wordBits_eq w 19 3
  rw [hg', hf', hq']
  unfold decode dispatchFields at h
  split at h <;> rename_i hg
  · unfold dispatchAluGroup at h
    split at h <;> rename_i hf <;> first | contradiction | rw [hg, hf]
    · exact .inl ⟨rfl, .inl rfl⟩
    all_goals first
      | unfold dispatchAdd at h | unfold dispatchSub at h | unfold dispatchAnd at h
      | unfold dispatchOr at h | unfold dispatchXor at h | unfold dispatchCmp at h | unfold dispatchBitop at h
      | unfold dispatchShaop at h | exact .inl ⟨rfl, .inr (.inr rfl)⟩ | unfold dispatchLdo at h
    all_goals split at h <;> rename_i hq <;> first | contradiction | (rw [hq]; unfold Assigned; decide)
  · unfold dispatchMemGroup at h
    split at h <;> rename_i hf <;> first | contradiction | rw [hg, hf]
    all_goals first
      | unfold dispatchLd at h | unfold dispatchSt at h | unfold dispatchLdr at h | unfold dispatchStc at h
    all_goals split at h <;> rename_i hq <;> first | contradiction | (rw [hq]; unfold Assigned; decide)
  · unfold dispatchBrGroup at h
    split at h <;> rename_i hf <;> first | contradiction | rw [hg, hf]
    all_goals first
      | unfold dispatchB at h | unfold dispatchBr at h | unfold dispatchBv at h | unfold dispatchBb at h
      | unfold dispatchCbr at h | unfold dispatchMbr at h
    all_goals split at h <;> rename_i hq <;> first | contradiction | (rw [hq]; unfold Assigned; decide)
  · unfold dispatchSysGroup at h
    split at h <;> rename_i hf <;> first | contradiction | rw [hg, hf]
    all_goals first
      | unfold dispatchMr at h | unfold dispatchLpa at h | unfold dispatchPrb at h | unfold dispatchTlb at h
      | unfold dispatchMst at h | unfold dispatchRfi at h | unfold dispatchTrap at h
      | unfold dispatchDiag at h | skip
    all_goals first
      | (split at h <;> rename_i hq <;> first | contradiction | (rw [hq]; unfold Assigned; decide))
      | (unfold Assigned; simp)

theorem qualifier_lt (w : InstrWord) : qualifier w < 8 :=
  Nat.mod_lt _ (by norm_num)

/-- One check per qualifier: a family's unassigned qualifiers raise IllegalInstruction (30_encoding.md R76). -/
theorem otherQualifiersIllegal_of {g f : Nat}
    (h : ∀ q < 8, ¬ Assigned g f q → ∀ d : Fields,
      dispatchFields { d with g := BitVec.ofNat 2 g, f := BitVec.ofNat 4 f, q := BitVec.ofNat 3 q } =
        .error .unassignedQualifier) : OtherQualifiersIllegal g f := fun w hw hq =>
  raisesIllegal_of_decode ((decode_of_fields hw rfl).trans (h _ (qualifier_lt w) hq _))

/-! The kinds that are whole families. -/

theorem kindOf_store_iff (i : Instr) : kindOf i = .store ↔ familyOf i = (1, 9) := by
  constructor <;> intro h <;> cases i <;> first | rfl | cases h

theorem kindOf_loadReserve_iff (i : Instr) : kindOf i = .loadReserve ↔ familyOf i = (1, 10) := by
  constructor <;> intro h <;> cases i <;> first | rfl | cases h

theorem kindOf_storeConditional_iff (i : Instr) : kindOf i = .storeConditional ↔ familyOf i = (1, 11) := by
  constructor <;> intro h <;> cases i <;> first | rfl | cases h

/-- Every instruction of kind store is an ST form with its effective address (41_mem.md R108, R111). -/
theorem memAccess_of_store (s : State) {i : Instr} (h : kindOf i = .store) :
    ∃ n sx r ea, MemAccess storeForms s i n sx r ea := by
  cases i with
  | stBO r b ofs => exact ⟨_, _, r, _, (0, .stBO, .stBX), by simp [storeForms], rfl, rfl, .offset b ofs⟩
  | stBX r b a => exact ⟨_, _, r, _, (0, .stBO, .stBX), by simp [storeForms], rfl, rfl, .index b a⟩
  | stHO r b ofs => exact ⟨_, _, r, _, (2, .stHO, .stHX), by simp [storeForms], rfl, rfl, .offset b ofs⟩
  | stHX r b a => exact ⟨_, _, r, _, (2, .stHO, .stHX), by simp [storeForms], rfl, rfl, .index b a⟩
  | stWO r b ofs => exact ⟨_, _, r, _, (4, .stWO, .stWX), by simp [storeForms], rfl, rfl, .offset b ofs⟩
  | stWX r b a => exact ⟨_, _, r, _, (4, .stWO, .stWX), by simp [storeForms], rfl, rfl, .index b a⟩
  | stDO r b ofs => exact ⟨_, _, r, _, (6, .stDO, .stDX), by simp [storeForms], rfl, rfl, .offset b ofs⟩
  | stDX r b a => exact ⟨_, _, r, _, (6, .stDO, .stDX), by simp [storeForms], rfl, rfl, .index b a⟩
  | _ => cases h

/-- Every instruction of kind loadReserve is an LDR form with its effective address (41_mem.md R108, R112). -/
theorem memAccess_of_loadReserve (s : State) {i : Instr} (h : kindOf i = .loadReserve) :
    ∃ n sx r ea, MemAccess loadReserveForms s i n sx r ea := by
  cases i with
  | ldrBO r b ofs => exact ⟨_, _, r, _, (0, .ldrBO, .ldrBX), by simp [loadReserveForms], rfl, rfl, .offset b ofs⟩
  | ldrBX r b a => exact ⟨_, _, r, _, (0, .ldrBO, .ldrBX), by simp [loadReserveForms], rfl, rfl, .index b a⟩
  | ldrBSO r b ofs => exact ⟨_, _, r, _, (1, .ldrBSO, .ldrBSX), by simp [loadReserveForms], rfl, rfl, .offset b ofs⟩
  | ldrBSX r b a => exact ⟨_, _, r, _, (1, .ldrBSO, .ldrBSX), by simp [loadReserveForms], rfl, rfl, .index b a⟩
  | ldrHO r b ofs => exact ⟨_, _, r, _, (2, .ldrHO, .ldrHX), by simp [loadReserveForms], rfl, rfl, .offset b ofs⟩
  | ldrHX r b a => exact ⟨_, _, r, _, (2, .ldrHO, .ldrHX), by simp [loadReserveForms], rfl, rfl, .index b a⟩
  | ldrHSO r b ofs => exact ⟨_, _, r, _, (3, .ldrHSO, .ldrHSX), by simp [loadReserveForms], rfl, rfl, .offset b ofs⟩
  | ldrHSX r b a => exact ⟨_, _, r, _, (3, .ldrHSO, .ldrHSX), by simp [loadReserveForms], rfl, rfl, .index b a⟩
  | ldrWO r b ofs => exact ⟨_, _, r, _, (4, .ldrWO, .ldrWX), by simp [loadReserveForms], rfl, rfl, .offset b ofs⟩
  | ldrWX r b a => exact ⟨_, _, r, _, (4, .ldrWO, .ldrWX), by simp [loadReserveForms], rfl, rfl, .index b a⟩
  | ldrWSO r b ofs => exact ⟨_, _, r, _, (5, .ldrWSO, .ldrWSX), by simp [loadReserveForms], rfl, rfl, .offset b ofs⟩
  | ldrWSX r b a => exact ⟨_, _, r, _, (5, .ldrWSO, .ldrWSX), by simp [loadReserveForms], rfl, rfl, .index b a⟩
  | ldrDO r b ofs => exact ⟨_, _, r, _, (6, .ldrDO, .ldrDX), by simp [loadReserveForms], rfl, rfl, .offset b ofs⟩
  | ldrDX r b a => exact ⟨_, _, r, _, (6, .ldrDO, .ldrDX), by simp [loadReserveForms], rfl, rfl, .index b a⟩
  | ldrDSO r b ofs => exact ⟨_, _, r, _, (7, .ldrDSO, .ldrDSX), by simp [loadReserveForms], rfl, rfl, .offset b ofs⟩
  | ldrDSX r b a => exact ⟨_, _, r, _, (7, .ldrDSO, .ldrDSX), by simp [loadReserveForms], rfl, rfl, .index b a⟩
  | _ => cases h

/-- Every instruction of kind storeConditional is an STC form with its effective address (41_mem.md R108, R113). -/
theorem memAccess_of_storeConditional (s : State) {i : Instr} (h : kindOf i = .storeConditional) :
    ∃ n sx r ea, MemAccess storeConditionalForms s i n sx r ea := by
  cases i with
  | stcBO r b ofs => exact ⟨_, _, r, _, (0, .stcBO, .stcBX), by simp [storeConditionalForms], rfl, rfl, .offset b ofs⟩
  | stcBX r b a => exact ⟨_, _, r, _, (0, .stcBO, .stcBX), by simp [storeConditionalForms], rfl, rfl, .index b a⟩
  | stcHO r b ofs => exact ⟨_, _, r, _, (2, .stcHO, .stcHX), by simp [storeConditionalForms], rfl, rfl, .offset b ofs⟩
  | stcHX r b a => exact ⟨_, _, r, _, (2, .stcHO, .stcHX), by simp [storeConditionalForms], rfl, rfl, .index b a⟩
  | stcWO r b ofs => exact ⟨_, _, r, _, (4, .stcWO, .stcWX), by simp [storeConditionalForms], rfl, rfl, .offset b ofs⟩
  | stcWX r b a => exact ⟨_, _, r, _, (4, .stcWO, .stcWX), by simp [storeConditionalForms], rfl, rfl, .index b a⟩
  | stcDO r b ofs => exact ⟨_, _, r, _, (6, .stcDO, .stcDX), by simp [storeConditionalForms], rfl, rfl, .offset b ofs⟩
  | stcDX r b a => exact ⟨_, _, r, _, (6, .stcDO, .stcDX), by simp [storeConditionalForms], rfl, rfl, .index b a⟩
  | _ => cases h

theorem kindOf_status (i : Instr) (h : kindOf i = .status) : familyOf i = (3, 6) ∨ familyOf i = (3, 7) := by
  cases i <;> first | exact .inl rfl | exact .inr rfl | cases h

theorem crSlot_family (i : Instr) (n : CrSlot) (h : i.crSlot? = some n) :
    familyOf i = (3, 1) ∨ familyOf i = (3, 7) := by
  cases i <;> first | exact .inl rfl | exact .inr rfl | cases h

theorem crSlot_of_family (i : Instr) (h : familyOf i = (3, 1) ∨ familyOf i = (3, 7)) : ∃ n, i.crSlot? = some n := by
  cases i <;> rcases h with h | h <;> first | exact ⟨_, rfl⟩ | cases h

end Sys2Proof.Machine
end

