-- ==== Sys2Proof/Tests/Slice0.lean ====
section
/-!
SUPPORT. Tests: the smoke test of WellFormed, a word written out from the spec's encoding for every constructor, one
step of the vectors of 95_test_vectors.md, and, for every statement with hypotheses, a witness that meets them.
-/

open Sys2Proof Sys2Proof.Machine

namespace Sys2Proof.Tests

/-! ### Helpers -/

/-- The state an outcome answers, if it answers one. -/
def nextOf : Result → Option State
  | .next t => some t
  | _ => none

/-- The reset state with some registers, IA, and U, T and V. -/
def start (regs : List (Reg × Word)) (ia : InstrAddr := 0) (u t v : Bool := false) : State :=
  regs.foldl (fun s p => s.writeGr p.1 p.2)
    { State.reset with psw := { ia := ia, user := u, translate := t, overflow := v } }

/-- A TLB insert of the host; the state as it was if there is no slot. -/
def State.mapped (s : State) (va pa : Word) (accessId : BitVec 8) (protectId : BitVec 32 := 0) : State :=
  (nextOf (hostTlbInsert s va pa accessId protectId)).getD s

/-- Eight bytes of memory. -/
def State.holding (s : State) (pa : Nat) (v : Word) : State :=
  { s with mem := s.mem.writeBytes pa 8 v }

/-- One step with an instruction word where it fetches. -/
def ran (s : State) (w : Nat) : Option State :=
  nextOf (step (s.withFetchWord 32 w))

/-! ### WellFormed: MFCR, MTCR and RFI of a reserved control register are refused (43_sys.md R124) -/

theorem test_wellFormed_mfcr :
    (Instr.mfcr 3 2).wellFormed = false ∧ (Instr.mfcr 3 15).wellFormed = false ∧ (Instr.mfcr 3 8).wellFormed = true := by
  decide

theorem test_wellFormed_mtcr :
    (Instr.mtcr 3 1).wellFormed = false ∧ (Instr.mtcr 9 1).wellFormed = false ∧ (Instr.mtcr 0 1).wellFormed = true := by
  decide

theorem test_wellFormed_rfi : (Instr.rfi 3).wellFormed = false ∧ (Instr.rfi 4).wellFormed = true := by decide

/-! ### Decoding: for every constructor a word of the fields of 30_encoding.md R66, R70 (R = 13, B = 6, A = 9) -/

theorem test_decode_nop :
    decode 0x00000000#32 = .ok .nop := by
  decide

theorem test_decode_add :
    decode 0x07431200#32 = .ok (.addR 13 6 9) ∧
    decode 0x07435A5C#32 = .ok (.addI 13 6 0x1A5C) := by
  decide

theorem test_decode_sub :
    decode 0x0B431200#32 = .ok (.subR 13 6 9) ∧
    decode 0x0B435A5C#32 = .ok (.subI 13 6 0x1A5C) := by
  decide

theorem test_decode_and :
    decode 0x0F431200#32 = .ok (.andR 13 6 9) ∧
    decode 0x0F435A5C#32 = .ok (.andI 13 6 0x1A5C) := by
  decide

theorem test_decode_or :
    decode 0x13431200#32 = .ok (.orR 13 6 9) ∧
    decode 0x13435A5C#32 = .ok (.orI 13 6 0x1A5C) := by
  decide

theorem test_decode_xor :
    decode 0x17431200#32 = .ok (.xorR 13 6 9) ∧
    decode 0x17435A5C#32 = .ok (.xorI 13 6 0x1A5C) := by
  decide

theorem test_decode_cmp :
    decode 0x1B431200#32 = .ok (.cmpEqR 13 6 9) ∧
    decode 0x1B435A5C#32 = .ok (.cmpEqI 13 6 0x1A5C) ∧
    decode 0x1B4B1200#32 = .ok (.cmpNeR 13 6 9) ∧
    decode 0x1B4B5A5C#32 = .ok (.cmpNeI 13 6 0x1A5C) ∧
    decode 0x1B531200#32 = .ok (.cmpLtR 13 6 9) ∧
    decode 0x1B535A5C#32 = .ok (.cmpLtI 13 6 0x1A5C) ∧
    decode 0x1B5B1200#32 = .ok (.cmpLeR 13 6 9) ∧
    decode 0x1B5B5A5C#32 = .ok (.cmpLeI 13 6 0x1A5C) ∧
    decode 0x1B631200#32 = .ok (.cmpGtR 13 6 9) ∧
    decode 0x1B635A5C#32 = .ok (.cmpGtI 13 6 0x1A5C) ∧
    decode 0x1B6B1200#32 = .ok (.cmpGeR 13 6 9) ∧
    decode 0x1B6B5A5C#32 = .ok (.cmpGeI 13 6 0x1A5C) ∧
    decode 0x1B731200#32 = .ok (.cmpLtuR 13 6 9) ∧
    decode 0x1B735A5C#32 = .ok (.cmpLtuI 13 6 0x1A5C) ∧
    decode 0x1B7B1200#32 = .ok (.cmpGeuR 13 6 9) ∧
    decode 0x1B7B5A5C#32 = .ok (.cmpGeuI 13 6 0x1A5C) := by
  decide

theorem test_decode_extru :
    decode 0x1F430DAD#32 = .ok (.extru 13 6 0x1B 0x2D) ∧
    decode 0x1F43202D#32 = .ok (.extruShamt 13 6 0x2D) := by
  decide

theorem test_decode_extrs :
    decode 0x1F4B0DAD#32 = .ok (.extrs 13 6 0x1B 0x2D) ∧
    decode 0x1F4B202D#32 = .ok (.extrsShamt 13 6 0x2D) := by
  decide

theorem test_decode_dep :
    decode 0x1F530DAD#32 = .ok (.dep 13 6 0x1B 0x2D) ∧
    decode 0x1F53202D#32 = .ok (.depShamt 13 6 0x2D) := by
  decide

theorem test_decode_shl :
    decode 0x23431200#32 = .ok (.shlR 13 6 9) ∧
    decode 0x2343402D#32 = .ok (.shlI 13 6 0x2D) ∧
    decode 0x23432000#32 = .ok (.shlShamt 13 6) := by
  decide

theorem test_decode_shr :
    decode 0x234B1200#32 = .ok (.shrR 13 6 9) ∧
    decode 0x234B402D#32 = .ok (.shrI 13 6 0x2D) ∧
    decode 0x234B2000#32 = .ok (.shrShamt 13 6) := by
  decide

theorem test_decode_shra :
    decode 0x23531200#32 = .ok (.shraR 13 6 9) ∧
    decode 0x2353402D#32 = .ok (.shraI 13 6 0x2D) ∧
    decode 0x23532000#32 = .ok (.shraShamt 13 6) := by
  decide

theorem test_decode_ldi :
    decode 0x274A35C9#32 = .ok (.ldiL 13 0xA35C9) ∧
    decode 0x275A35C9#32 = .ok (.ldiM 13 0xA35C9) ∧
    decode 0x276A35C9#32 = .ok (.ldiU 13 0xA35C9) ∧
    decode 0x277A35C9#32 = .ok (.ldiT 13 0xA35C9) := by
  decide

theorem test_decode_ldo :
    decode 0x2B435A3C#32 = .ok (.ldo 13 6 0x5A3C) := by
  decide

theorem test_decode_ld :
    decode 0x63431A5C#32 = .ok (.ldBO 13 6 0x1A5C) ∧
    decode 0x63435200#32 = .ok (.ldBX 13 6 9) ∧
    decode 0x634B1A5C#32 = .ok (.ldBSO 13 6 0x1A5C) ∧
    decode 0x634B5200#32 = .ok (.ldBSX 13 6 9) ∧
    decode 0x63531A5C#32 = .ok (.ldHO 13 6 0x1A5C) ∧
    decode 0x63535200#32 = .ok (.ldHX 13 6 9) ∧
    decode 0x635B1A5C#32 = .ok (.ldHSO 13 6 0x1A5C) ∧
    decode 0x635B5200#32 = .ok (.ldHSX 13 6 9) ∧
    decode 0x63631A5C#32 = .ok (.ldWO 13 6 0x1A5C) ∧
    decode 0x63635200#32 = .ok (.ldWX 13 6 9) ∧
    decode 0x636B1A5C#32 = .ok (.ldWSO 13 6 0x1A5C) ∧
    decode 0x636B5200#32 = .ok (.ldWSX 13 6 9) ∧
    decode 0x63731A5C#32 = .ok (.ldDO 13 6 0x1A5C) ∧
    decode 0x63735200#32 = .ok (.ldDX 13 6 9) ∧
    decode 0x637B1A5C#32 = .ok (.ldDSO 13 6 0x1A5C) ∧
    decode 0x637B5200#32 = .ok (.ldDSX 13 6 9) := by
  decide

theorem test_decode_st :
    decode 0x67431A5C#32 = .ok (.stBO 13 6 0x1A5C) ∧
    decode 0x67435200#32 = .ok (.stBX 13 6 9) ∧
    decode 0x67531A5C#32 = .ok (.stHO 13 6 0x1A5C) ∧
    decode 0x67535200#32 = .ok (.stHX 13 6 9) ∧
    decode 0x67631A5C#32 = .ok (.stWO 13 6 0x1A5C) ∧
    decode 0x67635200#32 = .ok (.stWX 13 6 9) ∧
    decode 0x67731A5C#32 = .ok (.stDO 13 6 0x1A5C) ∧
    decode 0x67735200#32 = .ok (.stDX 13 6 9) := by
  decide

theorem test_decode_ldr :
    decode 0x6B431A5C#32 = .ok (.ldrBO 13 6 0x1A5C) ∧
    decode 0x6B435200#32 = .ok (.ldrBX 13 6 9) ∧
    decode 0x6B4B1A5C#32 = .ok (.ldrBSO 13 6 0x1A5C) ∧
    decode 0x6B4B5200#32 = .ok (.ldrBSX 13 6 9) ∧
    decode 0x6B531A5C#32 = .ok (.ldrHO 13 6 0x1A5C) ∧
    decode 0x6B535200#32 = .ok (.ldrHX 13 6 9) ∧
    decode 0x6B5B1A5C#32 = .ok (.ldrHSO 13 6 0x1A5C) ∧
    decode 0x6B5B5200#32 = .ok (.ldrHSX 13 6 9) ∧
    decode 0x6B631A5C#32 = .ok (.ldrWO 13 6 0x1A5C) ∧
    decode 0x6B635200#32 = .ok (.ldrWX 13 6 9) ∧
    decode 0x6B6B1A5C#32 = .ok (.ldrWSO 13 6 0x1A5C) ∧
    decode 0x6B6B5200#32 = .ok (.ldrWSX 13 6 9) ∧
    decode 0x6B731A5C#32 = .ok (.ldrDO 13 6 0x1A5C) ∧
    decode 0x6B735200#32 = .ok (.ldrDX 13 6 9) ∧
    decode 0x6B7B1A5C#32 = .ok (.ldrDSO 13 6 0x1A5C) ∧
    decode 0x6B7B5200#32 = .ok (.ldrDSX 13 6 9) := by
  decide

theorem test_decode_stc :
    decode 0x6F431A5C#32 = .ok (.stcBO 13 6 0x1A5C) ∧
    decode 0x6F435200#32 = .ok (.stcBX 13 6 9) ∧
    decode 0x6F531A5C#32 = .ok (.stcHO 13 6 0x1A5C) ∧
    decode 0x6F535200#32 = .ok (.stcHX 13 6 9) ∧
    decode 0x6F631A5C#32 = .ok (.stcWO 13 6 0x1A5C) ∧
    decode 0x6F635200#32 = .ok (.stcWX 13 6 9) ∧
    decode 0x6F731A5C#32 = .ok (.stcDO 13 6 0x1A5C) ∧
    decode 0x6F735200#32 = .ok (.stcDX 13 6 9) := by
  decide

theorem test_decode_b :
    decode 0x8744A5C3#32 = .ok (.b 13 0x4A5C3) := by
  decide

theorem test_decode_br :
    decode 0x8B430000#32 = .ok (.br 13 6) := by
  decide

theorem test_decode_bv :
    decode 0x8F431200#32 = .ok (.bv 13 6 9) := by
  decide

theorem test_decode_bb :
    decode 0x93437A5C#32 = .ok (.bbF 13 0x1B 0x1A5C) ∧
    decode 0x934B7A5C#32 = .ok (.bbT 13 0x1B 0x1A5C) ∧
    decode 0x93501A5C#32 = .ok (.bbFShamt 13 0x1A5C) ∧
    decode 0x93581A5C#32 = .ok (.bbTShamt 13 0x1A5C) := by
  decide

theorem test_decode_cbr :
    decode 0x97435A3C#32 = .ok (.cbrEq 13 6 0x5A3C) ∧
    decode 0x974B5A3C#32 = .ok (.cbrNe 13 6 0x5A3C) ∧
    decode 0x97535A3C#32 = .ok (.cbrLt 13 6 0x5A3C) ∧
    decode 0x975B5A3C#32 = .ok (.cbrLe 13 6 0x5A3C) ∧
    decode 0x97635A3C#32 = .ok (.cbrGt 13 6 0x5A3C) ∧
    decode 0x976B5A3C#32 = .ok (.cbrGe 13 6 0x5A3C) ∧
    decode 0x97735A3C#32 = .ok (.cbrLtu 13 6 0x5A3C) ∧
    decode 0x977B5A3C#32 = .ok (.cbrGeu 13 6 0x5A3C) := by
  decide

theorem test_decode_mbr :
    decode 0x98030000#32 = .ok (.mbr 6) := by
  decide

theorem test_decode_mr :
    decode 0xC7428000#32 = .ok (.mfcr 13 5) ∧
    decode 0xC74A8000#32 = .ok (.mtcr 5 13) := by
  decide

theorem test_decode_lpa :
    decode 0xCB430000#32 = .ok (.lpa 13 6) := by
  decide

theorem test_decode_prb :
    decode 0xCF430000#32 = .ok (.prbR 13 6) ∧
    decode 0xCF4B0000#32 = .ok (.prbW 13 6) ∧
    decode 0xCF530000#32 = .ok (.prbX 13 6) := by
  decide

theorem test_decode_tlb :
    decode 0xD3431200#32 = .ok (.tlbIns 13 6 9) ∧
    decode 0xD00B0000#32 = .ok (.tlbPrg 6) := by
  decide

theorem test_decode_ca :
    decode 0xD4000000#32 = .ok .ca := by
  decide

theorem test_decode_mst :
    decode 0xDB401A5C#32 = .ok (.rsm 13 0x1A5C) ∧
    decode 0xDB481A5C#32 = .ok (.ssm 13 0x1A5C) := by
  decide

theorem test_decode_rfi :
    decode 0xDC028000#32 = .ok (.rfi 5) := by
  decide

theorem test_decode_trap :
    decode 0xE004A5C3#32 = .ok (.trap 0x4A5C3) := by
  decide

theorem test_decode_halt :
    decode 0xE4000000#32 = .ok .halt := by
  decide

/-! ### One step of vectors of 95_test_vectors.md (each named by its number there) -/

/-- ADD R3, R1, R2. -/
theorem test_A1 :
    (ran (start [(1, 0x5), (2, 0x7)]) 0x04C08400).map (fun t => (t.readGr 3, t.psw.ia)) =
      some (0xC, 0x4) := by
  decide

/-- ADD R3, R1, R2. -/
theorem test_A5 :
    (ran (start [(1, 0x8000000000000000), (2, 0x8000000000000000)] (v := true)) 0x04C08400).map (fun t => (t.run, t.lastTrap, t.readGr 3, t.psw.ia)) =
      some (.trapped, { code := .overflow, info1 := 0x4C08400, info2 := 0x0, info3 := 0x0 }, 0x0, 0x0) := by
  decide

/-- ADD (Q = 1). -/
theorem test_A10 :
    (ran (start [(1, 0x5), (2, 0x7)]) 0x04C88400).map (fun t => (t.run, t.lastTrap, t.readGr 3, t.psw.ia)) =
      some (.trapped, { code := .illegalInstruction, info1 := 0x4C88400, info2 := 0x0, info3 := 0x0 }, 0x0, 0x0) := by
  decide

/-- SUB R3, R1, R2. -/
theorem test_A11 :
    (ran (start [(1, 0x5), (2, 0x7)]) 0x08C08400).map (fun t => (t.readGr 3, t.psw.ia)) =
      some (0xFFFFFFFFFFFFFFFE, 0x4) := by
  decide

/-- SUB R3, R1, R2. -/
theorem test_A14 :
    (ran (start [(1, 0x0), (2, 0x8000000000000000)] (v := true)) 0x08C08400).map (fun t => (t.run, t.lastTrap, t.readGr 3, t.psw.ia)) =
      some (.trapped, { code := .overflow, info1 := 0x8C08400, info2 := 0x0, info3 := 0x0 }, 0x0, 0x0) := by
  decide

/-- AND R3, R1, #-256. -/
theorem test_A17 :
    (ran (start [(1, 0x1234)]) 0x0CC0DF00).map (fun t => (t.readGr 3, t.psw.ia)) =
      some (0x1200, 0x4) := by
  decide

/-- AND R3, R1, R2. -/
theorem test_A18 :
    (ran (start [(1, 0xF0F0), (2, 0xFF00)]) 0x0CC08400).map (fun t => (t.readGr 3, t.psw.ia)) =
      some (0xF000, 0x4) := by
  decide

/-- OR R3, R1, R2. -/
theorem test_A19 :
    (ran (start [(1, 0xF0F0), (2, 0xFF00)]) 0x10C08400).map (fun t => (t.readGr 3, t.psw.ia)) =
      some (0xFFF0, 0x4) := by
  decide

/-- OR R3, R0, #-1. -/
theorem test_A20 :
    (ran (start []) 0x10C05FFF).map (fun t => (t.readGr 3, t.psw.ia)) =
      some (0xFFFFFFFFFFFFFFFF, 0x4) := by
  decide

/-- XOR R3, R1, R2. -/
theorem test_A21 :
    (ran (start [(1, 0xF0F0), (2, 0xFF00)]) 0x14C08400).map (fun t => (t.readGr 3, t.psw.ia)) =
      some (0xFF0, 0x4) := by
  decide

/-- XOR R3, R1, #-1. -/
theorem test_A22 :
    (ran (start [(1, 0x1234)]) 0x14C0DFFF).map (fun t => (t.readGr 3, t.psw.ia)) =
      some (0xFFFFFFFFFFFFEDCB, 0x4) := by
  decide

/-- CMP.LT R3, R1, R2. -/
theorem test_A26 :
    (ran (start [(1, 0xFFFFFFFFFFFFFFFF), (2, 0x1)]) 0x18D08400).map (fun t => (t.readGr 3, t.psw.ia)) =
      some (0x1, 0x4) := by
  decide

/-- CMP.LTU R3, R1, R2. -/
theorem test_A30 :
    (ran (start [(1, 0xFFFFFFFFFFFFFFFF), (2, 0x1)]) 0x18F08400).map (fun t => (t.readGr 3, t.psw.ia)) =
      some (0x0, 0x4) := by
  decide

/-- CMP.LTU R3, R1, #-1. -/
theorem test_A34 :
    (ran (start [(1, 0x5)]) 0x18F0DFFF).map (fun t => (t.readGr 3, t.psw.ia)) =
      some (0x1, 0x4) := by
  decide

/-- EXTRU R3, R1, #60, #8. -/
theorem test_A40 :
    (ran (start [(1, 0xA000000000000000)]) 0x1CC09E07).map (fun t => (t.readGr 3, t.psw.ia)) =
      some (0xA, 0x4) := by
  decide

/-- EXTRU R3, R1, SHAMT, #4. -/
theorem test_A42 :
    (ran ({ start [(1, 0xABCD)] with cr := { ControlRegs.reset with shamt := 0x48 } }) 0x1CC0A003).map (fun t => (t.readGr 3, t.psw.ia)) =
      some (0xB, 0x4) := by
  decide

/-- EXTRS R3, R1, #60, #8. -/
theorem test_A45 :
    (ran (start [(1, 0xA000000000000000)]) 0x1CC89E07).map (fun t => (t.readGr 3, t.psw.ia)) =
      some (0xFFFFFFFFFFFFFFFA, 0x4) := by
  decide

/-- DEP R3, R1, #60, #8. -/
theorem test_A47 :
    (ran (start [(1, 0xFF), (3, 0x0)]) 0x1CD09E07).map (fun t => (t.readGr 3, t.psw.ia)) =
      some (0xF000000000000000, 0x4) := by
  decide

/-- DEP R3, R1, SHAMT, #16. -/
theorem test_A48 :
    (ran ({ start [(1, 0x12345678), (3, 0xFFFFFFFFFFFFFFFF)] with cr := { ControlRegs.reset with shamt := 0x10 } }) 0x1CD0A00F).map (fun t => (t.readGr 3, t.psw.ia)) =
      some (0xFFFFFFFF5678FFFF, 0x4) := by
  decide

/-- SHL R3, R1, R2. -/
theorem test_A53 :
    (ran (start [(1, 0x1), (2, 0x40)]) 0x20C08400).map (fun t => (t.readGr 3, t.psw.ia)) =
      some (0x1, 0x4) := by
  decide

/-- SHR R3, R1, R2. -/
theorem test_A54 :
    (ran (start [(1, 0x8000000000000000), (2, 0x43)]) 0x20C88400).map (fun t => (t.readGr 3, t.psw.ia)) =
      some (0x1000000000000000, 0x4) := by
  decide

/-- SHRA R3, R1, #63. -/
theorem test_A56 :
    (ran (start [(1, 0x8000000000000000)]) 0x20D0C03F).map (fun t => (t.readGr 3, t.psw.ia)) =
      some (0xFFFFFFFFFFFFFFFF, 0x4) := by
  decide

/-- SHRA R3, R1, SHAMT. -/
theorem test_A58 :
    (ran ({ start [(1, 0xFFFFFFFFFFFFFF00)] with cr := { ControlRegs.reset with shamt := 0x4 } }) 0x20D0A000).map (fun t => (t.readGr 3, t.psw.ia)) =
      some (0xFFFFFFFFFFFFFFF0, 0x4) := by
  decide

/-- LDI.L R3, #0xFFFFF. -/
theorem test_A61 :
    (ran (start [(3, 0xFFFFFFFFFFFFFFFF)]) 0x24CFFFFF).map (fun t => (t.readGr 3, t.psw.ia)) =
      some (0xFFFFF, 0x4) := by
  decide

/-- LDI.M R3, #0xABCDE. -/
theorem test_A62 :
    (ran (start [(3, 0x12345)]) 0x24DABCDE).map (fun t => (t.readGr 3, t.psw.ia)) =
      some (0xABCDE12345, 0x4) := by
  decide

/-- LDI.U R3, #0x13579. -/
theorem test_A63 :
    (ran (start [(3, 0x12345)]) 0x24E13579).map (fun t => (t.readGr 3, t.psw.ia)) =
      some (0x135790000012345, 0x4) := by
  decide

/-- LDI.T R3, #0xFFFF9. -/
theorem test_A64 :
    (ran (start [(3, 0x12345)]) 0x24FFFFF9).map (fun t => (t.readGr 3, t.psw.ia)) =
      some (0x9000000000012345, 0x4) := by
  decide

/-- LDO R3, R1, #1. -/
theorem test_A69 :
    (ran (start [(1, 0x7FFFFFFFFFFFFFFF)] (v := true)) 0x28C08001).map (fun t => (t.readGr 3, t.psw.ia)) =
      some (0x8000000000000000, 0x4) := by
  decide

/-- NOP (all other bits set). -/
theorem test_A72 :
    (ran (start [(1, 0x1)]) 0x03FFFFFF).map (fun t => (t.readGr 3, t.psw.ia)) =
      some (0x0, 0x4) := by
  decide

/-- ALU family 11. -/
theorem test_A73 :
    (ran (start []) 0x2C000000).map (fun t => (t.run, t.lastTrap, t.readGr 3, t.psw.ia)) =
      some (.trapped, { code := .illegalInstruction, info1 := 0x2C000000, info2 := 0x0, info3 := 0x0 }, 0x0, 0x0) := by
  decide

/-- LD.B.S R3, [R1+0]. -/
theorem test_M2 :
    (ran (State.holding (start [(1, 0x100)]) 0x100 0x8877665544332280) 0x60C88000).map (fun t => (t.readGr 3, t.psw.ia)) =
      some (0xFFFFFFFFFFFFFF80, 0x4) := by
  decide

/-- LD.H.S R3, [R1+6]. -/
theorem test_M4 :
    (ran (State.holding (start [(1, 0x100)]) 0x100 0x8877665544332280) 0x60D88006).map (fun t => (t.readGr 3, t.psw.ia)) =
      some (0xFFFFFFFFFFFF8877, 0x4) := by
  decide

/-- LD.W.S R3, [R1+4]. -/
theorem test_M6 :
    (ran (State.holding (start [(1, 0x100)]) 0x100 0x8877665544332280) 0x60E88004).map (fun t => (t.readGr 3, t.psw.ia)) =
      some (0xFFFFFFFF88776655, 0x4) := by
  decide

/-- LD.D R3, [R1+R2]. -/
theorem test_M9 :
    (ran (State.holding (start [(1, 0xF8), (2, 0x8)]) 0x100 0x1122334455667788) 0x60F0C400).map (fun t => (t.readGr 3, t.psw.ia)) =
      some (0x1122334455667788, 0x4) := by
  decide

/-- LD.H R3, [R1+1]. -/
theorem test_M13 :
    (ran (start [(1, 0x100), (3, 0x77)]) 0x60D08001).map (fun t => (t.run, t.lastTrap, t.readGr 3, t.psw.ia)) =
      some (.trapped, { code := .alignment, info1 := 0x101, info2 := 0x2, info3 := 0x60D08001 }, 0x77, 0x0) := by
  decide

/-- LD.D R3, [R1+0]. -/
theorem test_M18 :
    (ran (start [(1, 0x100000000)]) 0x60F08000).map (fun t => (t.run, t.lastTrap, t.readGr 3, t.psw.ia)) =
      some (.trapped, { code := .physicalMemoryAddress, info1 := 0x0, info2 := 0x8, info3 := 0x60F08000 }, 0x0, 0x0) := by
  decide

/-- ST.D R2, [R1+R3]. -/
theorem test_M26 :
    (ran (start [(1, 0x100), (2, 0x1122334455667788), (3, 0x8)]) 0x64B0C600).map (fun t => ((t.mem.lookup 0x108, t.mem.lookup (0x108 + 7)), t.psw.ia)) =
      some ((some 0x88, some 0x11), 0x4) := by
  decide

/-- LDR.W.S R3, [R1+4]. -/
theorem test_M34 :
    (ran (State.holding (start [(1, 0x200)]) 0x200 0x8000000000000000) 0x68E88004).map (fun t => (t.res, t.readGr 3, t.psw.ia)) =
      some ({ valid := true, space := .phys, pa := 0x204, len := 4, value := 0xFFFFFFFF80000000 }, 0xFFFFFFFF80000000, 0x4) := by
  decide

/-- STC.D R2, [R1+0]. -/
theorem test_M36 :
    (ran ((start [(1, 0x200), (2, 0x2A)]).reserve .phys 0x200 8 0) 0x6CB08000).map (fun t => ((t.mem.lookup 0x200, t.mem.lookup (0x200 + 0)), t.res.valid, t.readGr 2, t.psw.ia)) =
      some ((some 0x2A, some 0x2A), false, 0x1, 0x4) := by
  decide

/-- STC.W R2, [R1+0]. -/
theorem test_M38 :
    (ran ((start [(1, 0x200), (2, 0x2A)]).reserve .phys 0x200 8 0) 0x6CA08000).map (fun t => (t.res.valid, t.readGr 2, t.psw.ia)) =
      some (false, 0x0, 0x4) := by
  decide

/-- STC.D R0, [R1+0]. -/
theorem test_M41 :
    (ran ((State.holding (start [(1, 0x200)]) 0x200 0x9).reserve .phys 0x200 8 0) 0x6C308000).map (fun t => ((t.mem.lookup 0x200, t.mem.lookup (0x200 + 0)), t.res.valid, t.readGr 0, t.psw.ia)) =
      some ((some 0x00, some 0x00), false, 0x0, 0x4) := by
  decide

/-- ST.B R4, [R1+8]. -/
theorem test_M44 :
    (ran ((start [(1, 0x200), (4, 0x1)]).reserve .phys 0x200 8 0) 0x65008008).map (fun t => ((t.mem.lookup 0x208, t.mem.lookup (0x208 + 0)), t.res.valid, t.psw.ia)) =
      some ((some 0x01, some 0x01), true, 0x4) := by
  decide

/-- LD.D R3, [R1+0]. -/
theorem test_M50 :
    (ran (State.mapped (State.mapped (start [(1, 0x4010)] (u := true) (t := true)) 0x0 0x0 0xD 0x0) 0x4000 0x8000 0x3 0x0) 0x60F08000).map (fun t => (t.run, t.lastTrap, t.readGr 3, t.psw.ia)) =
      some (.trapped, { code := .protection, info1 := 0x4010, info2 := 0x8, info3 := 0x60F08000 }, 0x0, 0x0) := by
  decide

/-- LD.D R3, [R1+0]. -/
theorem test_M53 :
    (ran (State.holding (State.mapped (State.mapped ({ start [(1, 0x4010)] (t := true) with cr := { ControlRegs.reset with pid2 := 0xFFFFFFFF00001234 } } : State) 0x0 0x0 0x5 0x0) 0x4000 0x8000 0x1 0x1234) 0x8010 0x6) 0x60F08000).map (fun t => (t.readGr 3, t.psw.ia)) =
      some (0x6, 0x4) := by
  decide

/-- LD.D R3, [R1+0]. -/
theorem test_M54 :
    (ran (State.mapped (State.mapped (start [(1, 0x4010)] (t := true)) 0x0 0x0 0x5 0x0) 0x4000 0x200000 0x1 0x0) 0x60F08000).map (fun t => (t.run, t.lastTrap, t.readGr 3, t.psw.ia)) =
      some (.trapped, { code := .physicalMemoryAddress, info1 := 0x4010, info2 := 0x8, info3 := 0x60F08000 }, 0x0, 0x0) := by
  decide

/-- B R0, -0x100. -/
theorem test_B3 :
    (ran (start [] (ia := 0x100)) 0x8407FFC0).map (fun t => t.psw.ia) =
      some 0x0 := by
  decide

/-- BR R2, R2. -/
theorem test_B8 :
    (ran (start [(2, 0x2000)] (ia := 0x100)) 0x88810000).map (fun t => (t.readGr 2, t.psw.ia)) =
      some (0x104, 0x2000) := by
  decide

/-- BV R0, R2, R3. -/
theorem test_B12 :
    (ran (start [(2, 0x1000), (3, 0xFFFFFFFFFFFFFFFF)] (ia := 0x100)) 0x8C010600).map (fun t => t.psw.ia) =
      some 0xFFC := by
  decide

/-- BB.F R1, #63, -4. -/
theorem test_B15 :
    (ran (start [(1, 0x1)] (ia := 0x100)) 0x9047FFFF).map (fun t => t.psw.ia) =
      some 0xFC := by
  decide

/-- BB.T R1, SHAMT, +8. -/
theorem test_B16 :
    (ran ({ start [(1, 0x10000000000)] (ia := 0x100) with cr := { ControlRegs.reset with shamt := 0x28 } }) 0x90580002).map (fun t => t.psw.ia) =
      some 0x108 := by
  decide

/-- CBR.LTU R1, R2, +0x40. -/
theorem test_B22 :
    (ran (start [(1, 0xFFFFFFFFFFFFFFFB), (2, 0x3)] (ia := 0x100)) 0x94710010).map (fun t => t.psw.ia) =
      some 0x104 := by
  decide

/-- CBR.LE R1, R2, -0x40. -/
theorem test_B23 :
    (ran (start [(1, 0x3), (2, 0x3)] (ia := 0x100)) 0x94597FF0).map (fun t => t.psw.ia) =
      some 0xC0 := by
  decide

/-- MBR R2. -/
theorem test_B30 :
    (ran (start [(2, 0xFFFFFFFFFFFFFFFF)] (ia := 0x100)) 0x98010000).map (fun t => t.psw.ia) =
      some 0x100 := by
  decide

/-- MTCR SHAMT, R3 (user). -/
theorem test_S5 :
    (ran (start [(3, 0x3F)] (ia := 0x40) (u := true)) 0xC4C88000).map (fun t => (t.cr.shamt, t.psw.ia)) =
      some (0x3F, 0x44) := by
  decide

/-- MTCR PID0, R3 (user). -/
theorem test_S6 :
    (ran (start [(3, 0x3F)] (ia := 0x40) (u := true)) 0xC4CA0000).map (fun t => (t.run, t.lastTrap, t.psw.ia)) =
      some (.trapped, { code := .privilegeViolation, info1 := 0xC4CA0000, info2 := 0x40, info3 := 0x0 }, 0x40) := by
  decide

/-- MTCR IVA, R3. -/
theorem test_S8 :
    (ran (start [(3, 0xFFFFFFFFFFFFFFFF)] (ia := 0x40)) 0xC4CC0000).map (fun t => (t.cr.iva, t.psw.ia)) =
      some (0xFFFFFFFFFFFFFFFF, 0x44) := by
  decide

/-- LPA R3, R1. -/
theorem test_S11 :
    (ran (State.mapped (start [(1, 0x4123)] (ia := 0x40)) 0x4000 0x8000 0x1 0x0) 0xC8C08000).map (fun t => (t.readGr 3, t.psw.ia)) =
      some (0x8123, 0x44) := by
  decide

/-- LPA R3, R1. -/
theorem test_S12 :
    (ran (start [(1, 0x4123)] (ia := 0x40)) 0xC8C08000).map (fun t => (t.run, t.lastTrap, t.readGr 3, t.psw.ia)) =
      some (.trapped, { code := .tlbAccess, info1 := 0x4123, info2 := 0x1, info3 := 0xC8C08000 }, 0x0, 0x40) := by
  decide

/-- PRB.W R3, R1 (T = 1). -/
theorem test_S18 :
    (ran (State.mapped (State.mapped (start [(1, 0x4000)] (ia := 0x40) (t := true)) 0x0 0x0 0x5 0x0) 0x4000 0x8000 0x1 0x0) 0xCCC88000).map (fun t => (t.readGr 3, t.psw.ia)) =
      some (0x0, 0x44) := by
  decide

/-- PRB.R R3, R1 (T = 1). -/
theorem test_S19 :
    (ran (State.mapped (State.mapped (start [(1, 0x4000)] (ia := 0x40) (t := true)) 0x0 0x0 0x5 0x0) 0x4000 0x8000 0x1 0x0) 0xCCC08000).map (fun t => (t.readGr 3, t.psw.ia)) =
      some (0x1, 0x44) := by
  decide

/-- TLB.INS R3, R1, R2. -/
theorem test_S22 :
    (ran (start [(1, 0x4123), (2, 0x82FF), (3, 0x100001234)] (ia := 0x40)) 0xD0C08400).map (fun t => (t.tlb[0]?, t.psw.ia)) =
      some (some ⟨true, 0xFF, 0x1234, 0x4000, 0x8000, 1⟩, 0x44) := by
  decide

/-- TLB.PRG R1. -/
theorem test_S25 :
    (ran (State.mapped (State.mapped (start [(1, 0x7FFF)] (ia := 0x40)) 0x4000 0x8000 0x1 0x0) 0x8000 0x8000 0x1 0x0) 0xD0088000).map (fun t => (t.tlb.map (·.valid), t.psw.ia)) =
      some ([false, true, false, false], 0x44) := by
  decide

/-- RSM R3, #2. -/
theorem test_S29 :
    (ran (State.mapped (start [] (ia := 0x40) (t := true) (v := true)) 0x0 0x0 0x5 0x0) 0xD8C00002).map (fun t => (t.readGr 3, hostGetPsw t, t.psw.ia)) =
      some (0x6, 0x400000044, 0x44) := by
  decide

/-- SSM R3, #0x1FFF. -/
theorem test_S32 :
    (ran (start [] (ia := 0x40)) 0xD8C81FFF).map (fun t => (t.readGr 3, hostGetPsw t, t.psw.ia)) =
      some (0x0, 0x700000044, 0x44) := by
  decide

/-- RFI IVA. -/
theorem test_S35 :
    (ran ({ start [] (ia := 0x40) with cr := { ControlRegs.reset with iva := 0xFFFFFFFF00001000 } }) 0xDC040000).map (fun t => (hostGetPsw t, t.psw.ia)) =
      some (0x700001000, 0x1000) := by
  decide

/-- RFI IVA. -/
theorem test_S36 :
    (ran ({ start [] (ia := 0x40) with cr := { ControlRegs.reset with iva := 0x100002000 } }) 0xDC040000).map (fun t => (hostGetPsw t, t.psw.ia)) =
      some (0x100002000, 0x2000) := by
  decide

/-- RFI CR3. -/
theorem test_S37 :
    (ran (start [] (ia := 0x40)) 0xDC018000).map (fun t => (t.run, t.lastTrap, t.psw.ia)) =
      some (.trapped, { code := .illegalInstruction, info1 := 0xDC018000, info2 := 0x40, info3 := 0x0 }, 0x40) := by
  decide

/-- TRAP #-1 (user). -/
theorem test_S41 :
    (ran (start [] (ia := 0x40) (u := true)) 0xE007FFFF).map (fun t => (t.run, t.lastTrap, t.psw.ia)) =
      some (.trapped, { code := .softwareTrap, info1 := 0x7FFFF, info2 := 0x40, info3 := 0xE007FFFF }, 0x40) := by
  decide

/-- HALT. -/
theorem test_S43 :
    (ran (start [] (ia := 0x40)) 0xE4000000).map (fun t => (t.psw.ia, t.run)) =
      some (0x44, .halted) := by
  decide

/-- fetch, T = 1, page without X. -/
theorem test_E2 :
    (ran (State.mapped (start [] (ia := 0x4000) (t := true)) 0x4000 0x4000 0x3 0x0) 0x00000000).map (fun t => (t.run, t.lastTrap, t.psw.ia)) =
      some (.trapped, { code := .protection, info1 := 0x4000, info2 := 0x4, info3 := 0x0 }, 0x4000) := by
  decide

/-- fetch, T = 1, protectId not in PID0-3. -/
theorem test_E5 :
    (ran (State.mapped (start [] (ia := 0x4000) (t := true)) 0x4000 0x4000 0x4 0x77) 0x00000000).map (fun t => (t.run, t.lastTrap, t.psw.ia)) =
      some (.trapped, { code := .protection, info1 := 0x4000, info2 := 0x4, info3 := 0x0 }, 0x4000) := by
  decide

/-- LD.H misaligned and unmapped. -/
theorem test_E15 :
    (ran (State.mapped (start [(1, 0x4000)] (t := true)) 0x0 0x0 0x5 0x0) 0x60D08001).map (fun t => (t.run, t.lastTrap, t.psw.ia)) =
      some (.trapped, { code := .alignment, info1 := 0x4001, info2 := 0x2, info3 := 0x60D08001 }, 0x0) := by
  decide

/-- ADD R3, R1, R2 (U = 1, V = 1). -/
theorem test_E16 :
    (ran (start [(1, 0x4000000000000000), (2, 0x4000000000000000)] (u := true) (v := true)) 0x04C08400).map (fun t => (t.run, t.lastTrap, t.readGr 3, t.psw.ia)) =
      some (.trapped, { code := .overflow, info1 := 0x4C08400, info2 := 0x0, info3 := 0x0 }, 0x0, 0x0) := by
  decide

/-! ### Witnesses: for every statement with hypotheses, states and operands that meet them -/

/-- A RUNNING core in privileged mode with translation off, an instruction word at IA = 0. -/
def at0 (w : Nat) : State :=
  (start []).withFetchWord 32 w

/-- A core in user mode with translation on: page 0 executable, page 0x4000 a user data page of frame 0x8000. -/
def userState (w : Nat) (regs : List (Reg × Word) := []) : State :=
  (State.mapped (State.mapped (start regs (u := true) (t := true)) 0 0 0xC) 0x4000 0x8000 0xB).withFetchWord 32 w

/-- A TRAPPED core: a misaligned fetch. -/
def trappedState : State :=
  (nextOf (step (start [] (ia := 2)))).getD State.reset

/-- A TLB with four valid entries. -/
def fullState : State :=
  State.mapped (State.mapped (State.mapped (State.mapped (start []) 0 0 0xC) 0x4000 0x8000 0xB) 0x8000 0 1)
    0xC000 0x4000 1

/-! ### The host (70_reset_and_hazards.md R160; 10_state.md R27) -/

/-- Physical memory up to the I/O window, the first two bytes of the window reserved. -/
def spanState : State :=
  ({ State.reset with params := { State.reset.params with physMemSize := 0xF0000000 } } : State).reserve
    .io 0xF0000000 2 0

/-- Two bytes on each side of 0xF0000000, little-endian; the write reaches the reserved bytes, one byte less does not. -/
theorem test_hostSpan :
    (nextOf (hostWriteMem spanState 0xEFFFFFFE 0x44332211 4)).map (fun t =>
        (t.mem.lookup 0xEFFFFFFE, t.mem.lookup 0xF0000001, (hostGetReservation t).valid, (hostRead t 0xEFFFFFFE 4).1)) =
      some (some 0x11, some 0x44, false, 0x44332211) ∧
    (nextOf (hostWriteMem spanState 0xEFFFFFFE 0x44332211 2)).map (fun t => (hostGetReservation t).valid) = some true := by
  decide

/-- The 8 bytes from 0xEFFFFFFC are backed, those from 0xFFFFFFFC are not. -/
theorem test_hostBacked :
    hostBacked spanState 0xEFFFFFFC 8 = true ∧ hostBacked State.reset 0xEFFFFFFC 8 = false ∧
      hostBacked State.reset 0xFFFFFFFC 8 = false ∧ hostBacked State.reset 0xFFFF8 8 = true := by
  decide

/-- An entry is read without its stamp. -/
theorem test_hostGetTlbEntry :
    hostGetTlbEntry fullState 1 = .next ⟨true, 0xB, 0, 0x4000, 0x8000⟩ ∧
      hostGetTlbEntry fullState 4 = .refused .hostTlbIndex :=
  ⟨rfl, rfl⟩

theorem witness_EncodeOfDecodeClearsTheIgnoredBits : decode 0x03FFFFFF#32 = .ok .nop := by decide

theorem witness_IgnoredBitsDoNotMatter :
    decode 0x04C08400#32 = .ok (.addR 3 1 2) ∧
      (0x04C08400#32 ^^^ 0x04C0A5FF#32) &&& ~~~ignoredBits (.addR 3 1 2) = 0 := by
  decide

/-- The three grounds: an unassigned family, an unassigned qualifier, a reserved control register. -/
theorem witness_IllegalInstructionExactlyOnIllegalWords_illegal :
    ¬ LegalWord 0x2C000000#32 ∧ ¬ LegalWord 0x04C88400#32 ∧ ¬ LegalWord 0xC4C10000#32 ∧
      (at0 0xC4C10000).run = .running ∧
      fetch (at0 0xC4C10000) = (.ok 0xC4C10000#32, (fetch (at0 0xC4C10000)).2) := by
  refine ⟨?_, ?_, ?_, rfl, rfl⟩ <;>
    simp [LegalWord, Assigned, NamesReservedCr, ReservedCr, wordBits]

theorem witness_IllegalInstructionExactlyOnIllegalWords_legal :
    LegalWord 0xC4C40000#32 ∧ (at0 0xC4C40000).run = .running ∧
      fetch (at0 0xC4C40000) = (.ok 0xC4C40000#32, (fetch (at0 0xC4C40000)).2) ∧
      ∃ t, step (at0 0xC4C40000) = .next t := by
  refine ⟨?_, rfl, rfl, _, rfl⟩
  simp [LegalWord, Assigned, NamesReservedCr, ReservedCr, wordBits]

theorem witness_WordsDecodeByTheFixedBitsOfTheirTableRow :
    decode 0x04C08400#32 = .ok (.addR 3 1 2) ∧
      0x04C08400#32 &&& (opcodeRow (.addR 0 0 0)).1 = (opcodeRow (.addR 0 0 0)).2 := by
  decide

/-- Translation off. -/
theorem witness_StepRunsTheInstructionFetchedAtIa :
    (at0 0x04C08400).run = .running ∧ OneEntryPerPage (at0 0x04C08400).tlb ∧
      TranslateSays (at0 0x04C08400) 0 4 .execute (.ok .phys 0) ∧
      decode (BitVec.ofNat 32 (regionValue (at0 0x04C08400) .phys 0 4)) = .ok (.addR 3 1 2) :=
  ⟨rfl, by decide, .phys 0 ⟨by decide, .inl ⟨by decide, rfl⟩⟩ (by decide) (by decide), by rfl⟩

/-- Translation on, in user mode. -/
theorem witness_StepRunsTheInstructionFetchedAtIa_translated :
    (userState 0x04C08400).run = .running ∧ OneEntryPerPage (userState 0x04C08400).tlb ∧
      TranslateSays (userState 0x04C08400) 0 4 .execute (.ok .phys 0) ∧
      decode (BitVec.ofNat 32 (regionValue (userState 0x04C08400) .phys 0 4)) = .ok (.addR 3 1 2) :=
  ⟨rfl, by decide,
    .phys 0 ⟨by decide, .inr ⟨by decide, { TlbEntry.empty with valid := true, accessId := 0xC, stamp := 1 }, by decide,
      by decide, ⟨by decide, by unfold HasRight; decide, .inl rfl⟩, rfl⟩⟩ (by decide) (by decide), by rfl⟩

theorem witness_FetchTrapEndsTheCycleBeforeExecute :
    (start [] (ia := 2)).run = .running ∧ OneEntryPerPage (start [] (ia := 2)).tlb ∧
      TranslateSays (start [] (ia := 2)) 2 4 .execute (.trap .alignment) :=
  ⟨rfl, by decide, .alignment (by decide)⟩

theorem witness_StoppedCoreExecutesNothing :
    trappedState.run ≠ .running ∧ { State.reset with run := .halted }.run ≠ .running := by
  decide

theorem witness_HostStepCountsRetiredInstructions_stopped : trappedState.run ≠ .running := by decide

/-- A NOP and then a word that traps: one instruction retired. -/
theorem witness_HostStepCountsRetiredInstructions_running :
    (at0 0).run = .running ∧ (∃ t, step (at0 0) = .next t ∧ t.run = .running) ∧
      ∃ t u, step (at0 0) = .next t ∧ hostStep t 0 = .next { retired := 0, trap := TrapRecord.none, state := u } :=
  ⟨rfl, ⟨_, rfl, rfl⟩, _, _, rfl, rfl⟩

/-- A user-mode ST.D R2, [R1+0] to 0x4010, frame 0x8000, which holds zeros that are reserved. -/
def storing : State :=
  (State.holding (userState 0x64B08000 [(1, 0x4010), (2, 7)]) 0x8010 0).reserve .phys 0x8010 8 0

theorem storing_inv : storing.Inv where
  params := by decide
  zero := by decide
  memory := by decide
  backed := by decide
  slots := by decide
  pages := by decide
  unique := by decide
  stamps := by decide
  recency := by decide
  runningClear := by decide
  trappedSet := by decide
  reservation := by decide

theorem trappedState_inv : trappedState.Inv where
  params := by decide
  zero := by decide
  memory := by decide
  backed := by decide
  slots := by decide
  pages := by decide
  unique := by decide
  stamps := by decide
  recency := by decide
  runningClear := by decide
  trappedSet := by decide
  reservation := by decide

theorem fullState_inv : fullState.Inv where
  params := by decide
  zero := by decide
  memory := by decide
  backed := by decide
  slots := by decide
  pages := by decide
  unique := by decide
  stamps := by decide
  recency := by decide
  runningClear := by decide
  trappedSet := by decide
  reservation := by decide

theorem witness_EveryStepKeepsTheStateInvariant :
    ∃ s t : State, s.Inv ∧ step s = .next t :=
  ⟨_, _, storing_inv, rfl⟩

theorem witness_HostOperationsKeepTheStateInvariant_trapped :
    trappedState.Inv ∧ (∃ t, hostResume trappedState = .next t) ∧ ∃ t, hostHalt trappedState = .next t :=
  ⟨trappedState_inv, ⟨_, rfl⟩, _, rfl⟩

theorem witness_HostOperationsKeepTheStateInvariant :
    fullState.Inv ∧ (∃ t, hostSetGeneralReg fullState 15 1 = .next t) ∧
      (∃ t, hostSetControlReg fullState 8 1 = .next t) ∧ (∃ t, hostTlbInsert fullState 0x10000 0 1 0 = .next t) ∧
      (∃ v t, hostReadMem fullState 0xFFFF8 8 = .next (v, t)) ∧ (∃ t, hostWriteMem fullState 0xFFFFF 1 1 = .next t) ∧
      (∃ t, hostLoadImage fullState 0xFFFFF [1] = .next t) ∧ ∃ r, hostStep fullState 0 = .next r :=
  ⟨fullState_inv, ⟨_, rfl⟩, ⟨_, rfl⟩, ⟨_, rfl⟩, ⟨_, _, rfl⟩, ⟨_, rfl⟩, ⟨_, rfl⟩, _, rfl⟩

theorem witness_EveryStepAnswersANextState : trappedState.Inv ∧ fullState.Inv :=
  ⟨trappedState_inv, fullState_inv⟩

/-- A trap after the fetch. -/
theorem witness_TrapsArePrecise :
    ∃ t w, (at0 0xE0012345).run = .running ∧ step (at0 0xE0012345) = .next t ∧ t.run = .trapped ∧
      (fetch (at0 0xE0012345)).1 = .ok w :=
  ⟨_, _, rfl, rfl, rfl, rfl⟩

/-- A fetch trap. -/
theorem witness_TrapsArePrecise_fetch :
    ∃ t c, (start [] (ia := 2)).run = .running ∧ step (start [] (ia := 2)) = .next t ∧ t.run = .trapped ∧
      (fetch (start [] (ia := 2))).1 = .error c :=
  ⟨_, _, rfl, rfl, rfl, rfl⟩

theorem witness_UserModeCannotChangePrivilegedState :
    ∃ t, (userState 0x04C08400).psw.user = true ∧ step (userState 0x04C08400) = .next t ∧
      (userState 0x04C08400).run = .running :=
  ⟨_, rfl, rfl, rfl⟩

theorem witness_UserStoresStayInUserWritablePages :
    ∃ t, storing.Inv ∧ storing.psw.user = true ∧ storing.psw.translate = true ∧ step storing = .next t ∧
      t.mem.read 0x8010 ≠ storing.mem.read 0x8010 :=
  ⟨_, storing_inv, rfl, rfl, rfl, by decide⟩

theorem witness_OnlyStatusInstructionsChangeTheModeBits :
    ∃ t, (at0 0x04C08400).run = .running ∧ fetch (at0 0x04C08400) = (.ok 0x04C08400#32, (fetch (at0 0x04C08400)).2) ∧
      step (at0 0x04C08400) = .next t ∧ ¬ InFamily 0x04C08400#32 3 6 ∧ ¬ InFamily 0x04C08400#32 3 7 :=
  ⟨_, rfl, rfl, rfl, by decide, by decide⟩

theorem witness_OnlyTheDestinationRegisterChanges :
    ∃ t, (at0 0x04C08400).run = .running ∧ fetch (at0 0x04C08400) = (.ok 0x04C08400#32, (fetch (at0 0x04C08400)).2) ∧
      step (at0 0x04C08400) = .next t ∧ (1 : Reg) ≠ regAt 0x04C08400#32 22 :=
  ⟨_, rfl, rfl, rfl, by decide⟩

theorem witness_OnlyStoresChangeMemory :
    ∃ t, (at0 0x04C08400).run = .running ∧ fetch (at0 0x04C08400) = (.ok 0x04C08400#32, (fetch (at0 0x04C08400)).2) ∧
      step (at0 0x04C08400) = .next t ∧ ¬ InFamily 0x04C08400#32 1 9 ∧ ¬ InFamily 0x04C08400#32 1 11 :=
  ⟨_, rfl, rfl, rfl, by decide, by decide⟩

/-- The reservation: the last byte of the reserved eight is touched, the byte after it is not. -/
theorem witness_ReservationChangesOnlyAsStated_writes :
    storing.res.HostTouched 0x8017 1 ∧ ¬ storing.res.HostTouched 0x8018 1 ∧
      (∃ t, hostWriteMem storing 0x8017 1 1 = .next t) ∧ (∃ t, hostWriteMem storing 0x8018 1 1 = .next t) ∧
      storing.params.Ok ∧ ∃ t, hostLoadImage storing 0x8010 [1, 2] = .next t :=
  ⟨⟨0x8017, by decide⟩, fun ⟨a, h1, _, _, h4, _⟩ => by
    have : a < 0x8018 := h4
    have : 0x8018 ≤ a := h1
    omega, ⟨_, rfl⟩, ⟨_, rfl⟩, by decide, _, rfl⟩

theorem witness_ReservationChangesOnlyAsStated_store :
    ∃ t, storing.run = .running ∧ fetch storing = (.ok 0x64B08000#32, (fetch storing).2) ∧
      step storing = .next t ∧ InFamily 0x64B08000#32 1 9 :=
  ⟨_, rfl, rfl, rfl, by decide⟩

theorem witness_ReservationChangesOnlyAsStated_storeConditional :
    ∃ t, (at0 0x6CB08000).run = .running ∧ fetch (at0 0x6CB08000) = (.ok 0x6CB08000#32, (fetch (at0 0x6CB08000)).2) ∧
      step (at0 0x6CB08000) = .next t ∧ InFamily 0x6CB08000#32 1 11 :=
  ⟨_, rfl, rfl, rfl, by decide⟩

theorem witness_ReservationChangesOnlyAsStated_loadReserve :
    ∃ t, (at0 0x68F08000).run = .running ∧ fetch (at0 0x68F08000) = (.ok 0x68F08000#32, (fetch (at0 0x68F08000)).2) ∧
      step (at0 0x68F08000) = .next t ∧ InFamily 0x68F08000#32 1 10 :=
  ⟨_, rfl, rfl, rfl, by decide⟩

theorem witness_ReservationChangesOnlyAsStated_other :
    ∃ t, (at0 0).run = .running ∧ fetch (at0 0) = (.ok 0#32, (fetch (at0 0)).2) ∧ step (at0 0) = .next t ∧
      ¬ InFamily 0#32 1 9 ∧ ¬ InFamily 0#32 1 10 ∧ ¬ InFamily 0#32 1 11 :=
  ⟨_, rfl, rfl, rfl, by decide, by decide, by decide⟩

theorem witness_ReservationChangesOnlyAsStated_fetchTrap :
    ∃ t, (start [] (ia := 2)).run = .running ∧
      fetch (start [] (ia := 2)) = (.error .alignment, (fetch (start [] (ia := 2))).2) ∧
      step (start [] (ia := 2)) = .next t :=
  ⟨_, rfl, rfl, rfl⟩

theorem witness_ReservationChangesOnlyAsStated_host :
    (∃ t, hostResume trappedState = .next t) ∧ (∃ t, hostHalt trappedState = .next t) ∧
      (∃ t, hostSetGeneralReg storing 15 1 = .next t) ∧ (∃ t, hostSetControlReg storing 8 1 = .next t) ∧
      (∃ v t, hostReadMem storing 0x8010 8 = .next (v, t)) ∧ ∃ t, hostTlbInsert storing 0x10000 0 1 0 = .next t :=
  ⟨⟨_, rfl⟩, ⟨_, rfl⟩, ⟨_, rfl⟩, ⟨_, rfl⟩, ⟨_, _, rfl⟩, _, rfl⟩

/-- After LDR.D R3, [R1+0] with R1 = 0x200. -/
def reserved : State :=
  (nextOf (exec (.ldrDO 3 1 0) (start [(1, 0x200)]))).getD State.reset

/-- LDR.D R3, [R1+0], other registers and modes between, and STC.D R2, [R5+R4] to the same eight bytes. -/
theorem witness_StoreConditionalAfterLoadReserveSucceeds :
    ∃ u : State, OneEntryPerPage (start [(1, 0x200)]).tlb ∧ OneEntryPerPage u.tlb ∧
      MemAccess loadReserveForms (start [(1, 0x200)]) (.ldrDO 3 1 0) 8 false 3 0x200 ∧
      TranslateSays (start [(1, 0x200)]) 0x200 8 .read (.ok .phys 0x200) ∧
      exec (.ldrDO 3 1 0) (start [(1, 0x200)]) = .next reserved ∧ u.res = reserved.res ∧
      MemAccess storeConditionalForms u (.stcDX 2 5 4) 8 false 2 0x200 ∧
      TranslateSays u 0x200 8 .write (.ok .phys 0x200) :=
  ⟨{ start [(5, 0x100), (4, 0x100)] (v := true) with res := reserved.res },
    by decide, by decide, ⟨(6, .ldrDO, .ldrDX), by simp [loadReserveForms], rfl, rfl, .offset 1 0⟩,
    .phys _ ⟨by decide, .inl ⟨by decide, rfl⟩⟩ (by decide) (by decide), rfl, rfl,
    ⟨(6, .stcDO, .stcDX), by simp [storeConditionalForms], rfl, rfl, .index 5 4⟩,
    .phys _ ⟨by decide, .inl ⟨by decide, rfl⟩⟩ (by decide) (by decide)⟩

theorem witness_GeneralRegisterZeroIsHardwired : 16 ≤ 16 ∧ (1 : Reg) ≠ 0 ∧ (15 : Reg) ≠ 0 := by decide

theorem witness_PswReservedBitsReadZero :
    ∃ t v, (start []).psw.user = false ∧ (start []).readCr 8 = some v ∧ exec (.rfi 8) (start []) = .next t :=
  ⟨_, _, rfl, rfl, rfl⟩

/-! The words of the encoding clauses: one of the qualifier each names, and one the family does not assign, which a
RUNNING core can fetch. -/

theorem witness_NopAndCaOnlyAdvanceTheAddress :
    InFamily 0x03FFFFFF#32 0 0 ∧ InFamily 0xD7FFFFFF#32 3 5 := by
  decide

theorem witness_encoding_alu :
    (InFamily 0x04C08400#32 0 1 ∧ qualifier 0x04C08400#32 = 0) ∧ (InFamily 0x08C08400#32 0 2 ∧ qualifier 0x08C08400#32 = 0) ∧
      (InFamily 0x0CC08400#32 0 3 ∧ qualifier 0x0CC08400#32 = 0) ∧
      (InFamily 0x10C08400#32 0 4 ∧ qualifier 0x10C08400#32 = 0) ∧
      (InFamily 0x14C08400#32 0 5 ∧ qualifier 0x14C08400#32 = 0) ∧
      (InFamily 0x18C08400#32 0 6 ∧ qualifier 0x18C08400#32 = 0) ∧
      (InFamily 0x18F88400#32 0 6 ∧ qualifier 0x18F88400#32 = 7) ∧
      (InFamily 0x1CC08207#32 0 7 ∧ qualifier 0x1CC08207#32 = 0) ∧
      (InFamily 0x1CC88207#32 0 7 ∧ qualifier 0x1CC88207#32 = 1) ∧
      (InFamily 0x1CD08207#32 0 7 ∧ qualifier 0x1CD08207#32 = 2) ∧
      (InFamily 0x20C08400#32 0 8 ∧ qualifier 0x20C08400#32 = 0) ∧
      (InFamily 0x20C88400#32 0 8 ∧ qualifier 0x20C88400#32 = 1) ∧
      (InFamily 0x20D08400#32 0 8 ∧ qualifier 0x20D08400#32 = 2) ∧
      (InFamily 0x24CFFFFF#32 0 9 ∧ qualifier 0x24CFFFFF#32 / 2 = 0) ∧
      (InFamily 0x24DABCDE#32 0 9 ∧ qualifier 0x24DABCDE#32 / 2 = 1) ∧
      (InFamily 0x24E13579#32 0 9 ∧ qualifier 0x24E13579#32 / 2 = 2) ∧
      (InFamily 0x24FFFFF9#32 0 9 ∧ qualifier 0x24FFFFF9#32 / 2 = 3) ∧
      (InFamily 0x28C08FF8#32 0 10 ∧ qualifier 0x28C08FF8#32 = 0) := by
  decide

theorem witness_encoding_mem :
    (InFamily 0x60C08000#32 1 8 ∧ qualifier 0x60C08000#32 = 0) ∧ (InFamily 0x60F88000#32 1 8 ∧ qualifier 0x60F88000#32 = 7) ∧
      (InFamily 0x64808000#32 1 9 ∧ qualifier 0x64808000#32 = 0) ∧
      (InFamily 0x64B08000#32 1 9 ∧ qualifier 0x64B08000#32 = 6) ∧
      (InFamily 0x68C08000#32 1 10 ∧ qualifier 0x68C08000#32 = 0) ∧
      (InFamily 0x68F88000#32 1 10 ∧ qualifier 0x68F88000#32 = 7) ∧
      (InFamily 0x6C808000#32 1 11 ∧ qualifier 0x6C808000#32 = 0) ∧
      (InFamily 0x6CB08000#32 1 11 ∧ qualifier 0x6CB08000#32 = 6) := by
  decide

theorem witness_encoding_br :
    (qualifier 0x84000010#32 = 0 ∧ InFamily 0x84000010#32 2 1) ∧ (qualifier 0x89810000#32 = 0 ∧ InFamily 0x89810000#32 2 2) ∧
      (qualifier 0x8DC10600#32 = 0 ∧ InFamily 0x8DC10600#32 2 3) ∧
      (qualifier 0x98010000#32 = 0 ∧ InFamily 0x98010000#32 2 6) ∧
      (InFamily 0x90406004#32 2 4 ∧ qualifier 0x90406004#32 = 0) ∧
      (InFamily 0x90486004#32 2 4 ∧ qualifier 0x90486004#32 = 1) ∧
      (InFamily 0x90500002#32 2 4 ∧ qualifier 0x90500002#32 = 2) ∧
      (InFamily 0x90580002#32 2 4 ∧ qualifier 0x90580002#32 = 3) ∧
      (InFamily 0x94410010#32 2 5 ∧ qualifier 0x94410010#32 = 0) ∧
      (InFamily 0x94790010#32 2 5 ∧ qualifier 0x94790010#32 = 7) := by
  decide

theorem witness_encoding_sys :
    (InFamily 0xC4C08000#32 3 1 ∧ qualifier 0xC4C08000#32 = 0) ∧ (InFamily 0xC4C88000#32 3 1 ∧ qualifier 0xC4C88000#32 = 1) ∧
      (InFamily 0xC8C08000#32 3 2 ∧ qualifier 0xC8C08000#32 = 0) ∧
      (InFamily 0xCCC08000#32 3 3 ∧ qualifier 0xCCC08000#32 = 0) ∧
      (InFamily 0xCCD08000#32 3 3 ∧ qualifier 0xCCD08000#32 = 2) ∧
      (InFamily 0xD0C08400#32 3 4 ∧ qualifier 0xD0C08400#32 = 0) ∧
      (InFamily 0xD0088000#32 3 4 ∧ qualifier 0xD0088000#32 = 1) ∧
      (InFamily 0xD8C00002#32 3 6 ∧ qualifier 0xD8C00002#32 = 0) ∧
      (InFamily 0xD8C80004#32 3 6 ∧ qualifier 0xD8C80004#32 = 1) ∧
      (InFamily 0xDC040000#32 3 7 ∧ qualifier 0xDC040000#32 = 0) ∧
      (InFamily 0xE0012345#32 3 8 ∧ qualifier 0xE0012345#32 = 0) ∧
      (InFamily 0xE4000000#32 3 9 ∧ qualifier 0xE4000000#32 = 0) := by
  decide

/-- Words a family does not assign, at the first and at the last unassigned qualifier. -/
theorem witness_OtherQualifiersIllegal :
    (InFamily 0x04C88400#32 0 1 ∧ ¬ Assigned 0 1 (qualifier 0x04C88400#32)) ∧
      (InFamily 0x08F88400#32 0 2 ∧ ¬ Assigned 0 2 (qualifier 0x08F88400#32)) ∧
      (InFamily 0x0CC88400#32 0 3 ∧ ¬ Assigned 0 3 (qualifier 0x0CC88400#32)) ∧
      (InFamily 0x10F88400#32 0 4 ∧ ¬ Assigned 0 4 (qualifier 0x10F88400#32)) ∧
      (InFamily 0x14C88400#32 0 5 ∧ ¬ Assigned 0 5 (qualifier 0x14C88400#32)) ∧
      (InFamily 0x1CD88000#32 0 7 ∧ ¬ Assigned 0 7 (qualifier 0x1CD88000#32)) ∧
      (InFamily 0x20D8C001#32 0 8 ∧ ¬ Assigned 0 8 (qualifier 0x20D8C001#32)) ∧
      (InFamily 0x28C88001#32 0 10 ∧ ¬ Assigned 0 10 (qualifier 0x28C88001#32)) ∧
      (InFamily 0x64888000#32 1 9 ∧ ¬ Assigned 1 9 (qualifier 0x64888000#32)) ∧
      (InFamily 0x6CB88000#32 1 11 ∧ ¬ Assigned 1 11 (qualifier 0x6CB88000#32)) ∧
      (InFamily 0x84080010#32 2 1 ∧ ¬ Assigned 2 1 (qualifier 0x84080010#32)) ∧
      (InFamily 0x88080010#32 2 2 ∧ ¬ Assigned 2 2 (qualifier 0x88080010#32)) ∧
      (InFamily 0x8C080010#32 2 3 ∧ ¬ Assigned 2 3 (qualifier 0x8C080010#32)) ∧
      (InFamily 0x90686004#32 2 4 ∧ ¬ Assigned 2 4 (qualifier 0x90686004#32)) ∧
      (InFamily 0x98090000#32 2 6 ∧ ¬ Assigned 2 6 (qualifier 0x98090000#32)) ∧
      (InFamily 0xC4D08000#32 3 1 ∧ ¬ Assigned 3 1 (qualifier 0xC4D08000#32)) ∧
      (InFamily 0xC8C88000#32 3 2 ∧ ¬ Assigned 3 2 (qualifier 0xC8C88000#32)) ∧
      (InFamily 0xCCD88000#32 3 3 ∧ ¬ Assigned 3 3 (qualifier 0xCCD88000#32)) ∧
      (InFamily 0xD0188000#32 3 4 ∧ ¬ Assigned 3 4 (qualifier 0xD0188000#32)) ∧
      (InFamily 0xD8D00001#32 3 6 ∧ ¬ Assigned 3 6 (qualifier 0xD8D00001#32)) ∧
      (InFamily 0xDC080000#32 3 7 ∧ ¬ Assigned 3 7 (qualifier 0xDC080000#32)) ∧
      (InFamily 0xE0092345#32 3 8 ∧ ¬ Assigned 3 8 (qualifier 0xE0092345#32)) ∧
      (InFamily 0xE4080000#32 3 9 ∧ ¬ Assigned 3 9 (qualifier 0xE4080000#32)) ∧
      (at0 0x04C88400).run = .running ∧
      fetch (at0 0x04C88400) = (.ok 0x04C88400#32, (fetch (at0 0x04C88400)).2) := by
  refine ⟨?_, ?_, ?_, ?_, ?_, ?_, ?_, ?_, ?_, ?_, ?_, ?_, ?_, ?_, ?_, ?_, ?_, ?_, ?_, ?_, ?_, ?_, ?_, rfl, rfl⟩ <;>
    refine ⟨by decide, ?_⟩ <;> simp [Assigned, wordBits]

/-! ALU: the operand forms, and both sides of each condition. -/

/-- V set and a sum at 2^63, the first out of range; a sum at 2^63 - 1, the last in it; V clear. -/
theorem witness_AddAndSubWrapOrTrapOnOverflow :
    AluForm (start [(1, 0x7FFFFFFFFFFFFFFF), (2, 1)] (v := true)) .addR .addI 3 1 1 (.addR 3 1 2) ∧
      AluForm (start [(1, 0x7FFFFFFFFFFFFFFF)] (v := true)) .addR .addI 3 1 1 (.addI 3 1 1) ∧
      ((start [(1, 0x7FFFFFFFFFFFFFFF)] (v := true)).psw.overflow = true ∧
        ((start [(1, 0x7FFFFFFFFFFFFFFF)] (v := true)).readGr 1).toInt + (1 : Word).toInt ≥ 2 ^ 63) ∧
      ¬ ((start [(1, 0x7FFFFFFFFFFFFFFE)] (v := true)).psw.overflow = true ∧
        (((start [(1, 0x7FFFFFFFFFFFFFFE)] (v := true)).readGr 1).toInt + (1 : Word).toInt < -2 ^ 63 ∨
          ((start [(1, 0x7FFFFFFFFFFFFFFE)] (v := true)).readGr 1).toInt + (1 : Word).toInt ≥ 2 ^ 63)) ∧
      AluForm (start [(1, 0x8000000000000000)] (v := true)) .subR .subI 3 1 1 (.subI 3 1 1) ∧
      ((start [(1, 0x8000000000000000)] (v := true)).psw.overflow = true ∧
        ((start [(1, 0x8000000000000000)] (v := true)).readGr 1).toInt - (1 : Word).toInt < -2 ^ 63) ∧
      ¬ ((start [(1, 0x8000000000000000)]).psw.overflow = true) :=
  ⟨.register 2, .immediate 1, by decide, by decide, .immediate 1, by decide, by decide⟩

theorem witness_AndOrXorActBitByBit :
    AluForm (start [(1, 0xF0F0), (2, 0xFF00)]) .andR .andI 3 1 0xFF00 (.andR 3 1 2) ∧
      AluForm (start [(1, 0xF0F0)]) .orR .orI 3 1 (wordOf (-4096)) (.orI 3 1 0x1000) ∧
      AluForm (start [(1, 0xF0F0)]) .xorR .xorI 3 1 (wordOf 4095) (.xorI 3 1 0xFFF) :=
  ⟨.register 2, .immediate 0x1000, .immediate 0xFFF⟩

/-- The first and the last form, each with its condition true and false. -/
theorem witness_CompareWritesOneOrZero :
    (0, .cmpEqR, .cmpEqI) ∈ compareForms ∧ (7, .cmpGeuR, .cmpGeuI) ∈ compareForms ∧
      AluForm (start [(1, 5), (2, 5)]) .cmpEqR .cmpEqI 3 1 5 (.cmpEqR 3 1 2) ∧ CondTrue 0 5 5 ∧ ¬ CondTrue 0 5 6 ∧
      AluForm (start [(1, 5)]) .cmpGeuR .cmpGeuI 3 1 5 (.cmpGeuI 3 1 5) ∧ CondTrue 7 5 5 ∧ ¬ CondTrue 7 5 6 :=
  ⟨by simp [compareForms], by simp [compareForms], .register 2, rfl, fun h => absurd (show (5 : Word) = 6 from h) (by decide), .immediate 5,
    Nat.le_refl 5, fun h => absurd (show (6 : Nat) ≤ 5 from h) (by decide)⟩

/-- Position 63 with len6 = 63, and SHAMT with its upper bits set. -/
theorem witness_ExtractWritesTheClampedField :
    FieldForm (start [(1, 5)]) .extru .extruShamt 3 1 63 63 (.extru 3 1 63 63) ∧
      FieldForm { start [] with cr := { ControlRegs.reset with shamt := 0x48 } } .extrs .extrsShamt 3 1 0 8
        (.extrsShamt 3 1 0) :=
  ⟨.immediate 63, .shamt⟩

theorem witness_DepositReplacesExactlyTheField :
    FieldForm (start [(1, 5)]) .dep .depShamt 3 1 63 63 (.dep 3 1 63 63) ∧
      FieldForm { start [] with cr := { ControlRegs.reset with shamt := 0x48 } } .dep .depShamt 3 1 0 8
        (.depShamt 3 1 0) :=
  ⟨.immediate 63, .shamt⟩

/-- The amounts 0 (a register value of 64), 63 and SHAMT. -/
theorem witness_ShiftsMultiplyAndDivideByPowersOfTwo :
    ShiftForm (start [(1, 5), (2, 64)]) .shlR .shlI .shlShamt 3 1 0 (.shlR 3 1 2) ∧
      ShiftForm (start [(1, 5)]) .shrR .shrI .shrShamt 3 1 63 (.shrI 3 1 63) ∧
      ShiftForm { start [] with cr := { ControlRegs.reset with shamt := 0x48 } } .shraR .shraI .shraShamt 3 1 8
        (.shraShamt 3 1) :=
  ⟨.register 2, .immediate 63, .shamt⟩

/-! Memory: each answer of `Translate`, and each family of accesses at the last bytes of memory. -/

theorem witness_TranslateFollowsTheOrderOfItsChecks :
    OneEntryPerPage (userState 0).tlb ∧ TranslateSays (userState 0) 0x4001 2 .read (.trap .alignment) ∧
      TranslateSays (userState 0) 0x10000 8 .read (.trap .tlbAccess) ∧
      TranslateSays (userState 0) 0x3FFF 1 .write (.trap .protection) ∧
      TranslateSays { start [] with params := { Config.defaultParams with ioMemSize := 0x1000 } } 0xF0001000 8 .read
        (.trap .ioMemoryAddress) ∧
      TranslateSays { start [] with params := { Config.defaultParams with ioMemSize := 0x1000 } } 0xF0000FF8 8 .read
        (.ok .io 0xF0000FF8) ∧
      TranslateSays (start []) 0x100000 1 .read (.trap .physicalMemoryAddress) ∧
      TranslateSays (userState 0) 0x7FF8 8 .read (.ok .phys 0xBFF8) :=
  ⟨by decide, .alignment (by decide), .tlbAccess (by decide) (by decide) (by decide),
    .protection { TlbEntry.empty with valid := true, accessId := 0xC, stamp := 1 } (by decide) (by decide) (by decide)
      (by decide) (fun h => absurd (show (0xC : BitVec 8).getLsbD 1 = true from h.2.1) (by decide)),
    .ioMemoryAddress _ ⟨by decide, .inl ⟨by decide, rfl⟩⟩ (by decide) (by decide),
    .io _ ⟨by decide, .inl ⟨by decide, rfl⟩⟩ (by decide) (by decide),
    .physicalMemoryAddress _ ⟨by decide, .inl ⟨by decide, rfl⟩⟩ (by decide) (by decide),
    .phys _ ⟨by decide, .inr ⟨by decide,
      { TlbEntry.empty with
        valid := true, accessId := 0xB, virtualAddress := 0x4000, physicalAddress := 0x8000, stamp := 2 },
      by decide, by decide, ⟨by decide, by unfold HasRight; decide, .inl rfl⟩, rfl⟩⟩ (by decide) (by decide)⟩

theorem witness_AllowedAccessesAreAlignedAndBacked :
    ∃ t, fullState.Inv ∧ translate fullState 0xFFFF8 8 .write = (.ok .phys 0xFFFF8, t) :=
  ⟨_, fullState_inv, rfl⟩

/-- The four families, each with an access that traps and one that does not. -/
theorem witness_DataAccessTrapsChangeNothingElse :
    OneEntryPerPage (start [(1, 0x100000)]).tlb ∧
      MemAccess loadForms (start [(1, 0x100000)]) (.ldDO 3 1 0) 8 false 3 0x100000 ∧
      MemAccess loadReserveForms (start [(1, 0x100000)]) (.ldrBSX 3 1 0) 1 true 3 0x100000 ∧
      MemAccess storeForms (start [(1, 0x100000)]) (.stBO 3 1 0) 1 false 3 0x100000 ∧
      MemAccess storeConditionalForms (start [(1, 0x100000)]) (.stcDX 3 1 0) 8 false 3 0x100000 ∧
      TranslateSays (start [(1, 0x100000)]) 0x100000 8 .read (.trap .physicalMemoryAddress) ∧
      TranslateSays (start [(1, 0x100000)]) 0x100000 1 .read (.trap .physicalMemoryAddress) ∧
      TranslateSays (start [(1, 0x100000)]) 0x100000 1 .write (.trap .physicalMemoryAddress) ∧
      TranslateSays (start [(1, 0x100000)]) 0x100000 8 .write (.trap .physicalMemoryAddress) :=
  ⟨by decide, ⟨(6, .ldDO, .ldDX), by simp [loadForms], rfl, rfl, .offset 1 0⟩,
    ⟨(1, .ldrBSO, .ldrBSX), by simp [loadReserveForms], rfl, rfl, .index 1 0⟩,
    ⟨(0, .stBO, .stBX), by simp [storeForms], rfl, rfl, .offset 1 0⟩,
    ⟨(6, .stcDO, .stcDX), by simp [storeConditionalForms], rfl, rfl, .index 1 0⟩,
    .physicalMemoryAddress _ ⟨by decide, .inl ⟨by decide, rfl⟩⟩ (by decide) (by decide),
    .physicalMemoryAddress _ ⟨by decide, .inl ⟨by decide, rfl⟩⟩ (by decide) (by decide),
    .physicalMemoryAddress _ ⟨by decide, .inl ⟨by decide, rfl⟩⟩ (by decide) (by decide),
    .physicalMemoryAddress _ ⟨by decide, .inl ⟨by decide, rfl⟩⟩ (by decide) (by decide)⟩

theorem witness_LoadWritesTheExtendedValue :
    OneEntryPerPage (start [(1, 0x100000)]).tlb ∧
      MemAccess loadForms (start [(1, 0x100000)]) (.ldBSO 3 1 0x1FFF) 1 true 3 0xFFFFF ∧
      TranslateSays (start [(1, 0x100000)]) 0xFFFFF 1 .read (.ok .phys 0xFFFFF) :=
  ⟨by decide, ⟨(1, .ldBSO, .ldBSX), by simp [loadForms], rfl, rfl, .offset 1 0x1FFF⟩,
    .phys _ ⟨by decide, .inl ⟨by decide, rfl⟩⟩ (by decide) (by decide)⟩

theorem witness_StoreWritesExactlyItsBytes :
    OneEntryPerPage (start [(1, 0x100000)]).tlb ∧
      MemAccess storeForms (start [(1, 0x100000)]) (.stDO 3 1 0x1FF8) 8 false 3 0xFFFF8 ∧
      TranslateSays (start [(1, 0x100000)]) 0xFFFF8 8 .write (.ok .phys 0xFFFF8) :=
  ⟨by decide, ⟨(6, .stDO, .stDX), by simp [storeForms], rfl, rfl, .offset 1 0x1FF8⟩,
    .phys _ ⟨by decide, .inl ⟨by decide, rfl⟩⟩ (by decide) (by decide)⟩

theorem witness_LoadReserveLoadsAndReserves :
    OneEntryPerPage (start [(1, 0xF0000000)]).tlb ∧
      MemAccess loadReserveForms (start [(1, 0xF0000000)]) (.ldrWSX 3 1 0) 4 true 3 0xF0000000 ∧
      TranslateSays (start [(1, 0xF0000000)]) 0xF0000000 4 .read (.ok .io 0xF0000000) :=
  ⟨by decide, ⟨(5, .ldrWSO, .ldrWSX), by simp [loadReserveForms], rfl, rfl, .index 1 0⟩,
    .io _ ⟨by decide, .inl ⟨by decide, rfl⟩⟩ (by decide) (by decide)⟩

/-- A reservation that admits the STC; without one it fails. -/
theorem witness_StoreConditionalNeedsTheExactReservation :
    OneEntryPerPage ((start [(1, 0x200)]).reserve .phys 0x200 8 0).tlb ∧
      MemAccess storeConditionalForms ((start [(1, 0x200)]).reserve .phys 0x200 8 0) (.stcDO 2 1 0) 8 false 2 0x200 ∧
      TranslateSays ((start [(1, 0x200)]).reserve .phys 0x200 8 0) 0x200 8 .write (.ok .phys 0x200) ∧
      ((start [(1, 0x200)]).reserve .phys 0x200 8 0).res = { valid := true, space := .phys, pa := 0x200, len := 8, value := 0 } ∧
      (start [(1, 0x200)]).res.valid = false :=
  ⟨by decide, ⟨(6, .stcDO, .stcDX), by simp [storeConditionalForms], rfl, rfl, .offset 1 0⟩,
    .phys _ ⟨by decide, .inl ⟨by decide, rfl⟩⟩ (by decide) (by decide), rfl, rfl⟩

theorem witness_NarrowReadsSeeTheLittleEndianPart :
    ¬ (Space.phys = .io ∧ State.reset.params.ioDevice = .attached) ∧ 8 ≤ 8 ∧ 4 + 4 ≤ 8 ∧
      (0xFFFFFFFFFFFFFFF8 : Word).toNat + 8 ≤ 2 ^ 64 := by
  decide

theorem witness_ReadAfterWriteRoundTrips :
    ¬ (Space.io = .io ∧ State.reset.params.ioDevice = .attached) ∧ (8 = 1 ∨ 8 = 2 ∨ 8 = 4 ∨ 8 = 8) := by
  decide

/-! Branches. -/

/-- Bit 63 of a register by bpos6, bit 0 by SHAMT, each equal to the suffix and not. -/
theorem witness_BranchOnBitTestsTheSelectedBit :
    BitBranchForm (start [(1, 0x8000000000000000)]) 1 4 63 true (.bbT 1 63 4) ∧ ((start [(1, 0x8000000000000000)]).readGr 1).getLsbD 63 = true ∧
      BitBranchForm (start [(1, 0x8000000000000000)]) 1 4 0 true (.bbTShamt 1 4) ∧
      ((start [(1, 0x8000000000000000)]).readGr 1).getLsbD 0 ≠ true ∧
      BitBranchForm (start [(1, 0x8000000000000000)]) 1 4 63 false (.bbF 1 63 4) ∧
      ((start [(1, 0x8000000000000000)]).readGr 1).getLsbD 63 ≠ false ∧
      BitBranchForm (start [(1, 0x8000000000000000)]) 1 4 0 false (.bbFShamt 1 4) ∧
      ((start [(1, 0x8000000000000000)]).readGr 1).getLsbD 0 = false :=
  ⟨.trueAt 63, by decide, .trueShamt, by decide, .falseAt 63, by decide, .falseShamt, by decide⟩

theorem witness_CompareAndBranchTestsItsCondition :
    (0, .cbrEq) ∈ compareBranchForms ∧ (7, .cbrGeu) ∈ compareBranchForms ∧ CondTrue 0 5 5 ∧ ¬ CondTrue 0 5 6 ∧
      CondTrue 7 5 5 ∧ ¬ CondTrue 7 5 6 :=
  ⟨by simp [compareBranchForms], by simp [compareBranchForms], rfl, fun h => absurd (show (5 : Word) = 6 from h) (by decide), Nat.le_refl 5,
    fun h => absurd (show (6 : Nat) ≤ 5 from h) (by decide)⟩

/-! SYS. -/

theorem witness_PrivilegedInstructionsTrapInUserMode :
    (userState 0).psw.user = true ∧ ReservedCr 2 ∧ ReservedCr 15 ∧ ¬ ReservedCr 8 ∧ (8 : CrSlot) ≠ 1 ∧
      ¬ ReservedCr 1 := by
  refine ⟨rfl, ?_, ?_, ?_, by decide, ?_⟩ <;> simp [ReservedCr]

theorem witness_MoveFromControlRegisterCopiesIt :
    (8, (5 : Word)) ∈ controlRegisters { start [] with cr := { ControlRegs.reset with iva := 5 } } ∧ ReservedCr 9 := by
  simp [controlRegisters, ReservedCr]

/-- SHAMT in user mode, another register in privileged mode, another register in user mode, a reserved id. -/
theorem witness_MoveToControlRegisterStoresAllBits :
    ReservedCr 3 ∧ (¬ ReservedCr 8 ∧ (8 : CrSlot) ≠ 1 ∧ (userState 0).psw.user = true) ∧ ¬ ReservedCr 1 ∧
      (start []).psw.user = false := by
  refine ⟨?_, ⟨?_, by decide, rfl⟩, ?_, rfl⟩ <;> simp [ReservedCr]

/-- The window's last byte, a hit and a miss. -/
theorem witness_LoadPhysicalAddressConsultsTheTlb :
    (userState 0).psw.user = true ∧ fullState.psw.user = false ∧ InWindow 0xFFFFFFFF ∧ ¬ InWindow 0x4123 ∧
      OneEntryPerPage fullState.tlb ∧ (∃ e ∈ fullState.tlb, EntryFor e 0x4123) ∧
      ∀ e ∈ fullState.tlb, ¬ EntryFor e 0x10000 := by
  refine ⟨rfl, rfl, by decide, by decide, by decide, ?_, by decide⟩
  decide

theorem witness_ProbeAnswersWithoutFaulting :
    (0, AccessKind.read, .prbR) ∈ probeForms ∧ (2, AccessKind.execute, .prbX) ∈ probeForms ∧
      OneEntryPerPage (start [(1, 0xFFFFF)]).tlb ∧
      TranslateSays (start [(1, 0xFFFFF)]) ((start [(1, 0xFFFFF)]).readGr 1) 1 .read (.ok .phys 0xFFFFF) ∧
      TranslateSays (start [(1, 0x100000)]) ((start [(1, 0x100000)]).readGr 1) 1 .execute
        (.trap .physicalMemoryAddress) :=
  ⟨by simp [probeForms], by simp [probeForms], by decide,
    .phys _ ⟨by decide, .inl ⟨by decide, rfl⟩⟩ (by decide) (by decide),
    .physicalMemoryAddress _ ⟨by decide, .inl ⟨by decide, rfl⟩⟩ (by decide) (by decide)⟩

theorem witness_TlbInsertWritesTheVictimSlot :
    (userState 0).psw.user = true ∧ fullState.psw.user = false ∧ 0 < fullState.tlb.length := by
  decide

theorem witness_FullTlbEvictsTheLeastRecentEntry :
    ∃ t, fullState.Inv ∧ (∀ e ∈ fullState.tlb, e.valid = true) ∧ (∀ e ∈ fullState.tlb, ¬ EntryFor e 0x10000) ∧
      tlbInsert fullState 0x10000 0x4000 1 0 = .next t :=
  ⟨_, fullState_inv, by decide, by decide, rfl⟩

theorem witness_TlbPurgeInvalidatesOnePage :
    (userState 0).psw.user = true ∧ fullState.psw.user = false ∧ ∃ e ∈ fullState.tlb, EntryFor e 0x7FFF := by
  refine ⟨rfl, rfl, ?_⟩
  decide

theorem witness_StatusMaskClearsAndSetsTheModeBits :
    (userState 0).psw.user = true ∧ (start [] (t := true)).psw.user = false := by
  decide

theorem witness_ReturnFromInterruptLoadsThePsw :
    ReservedCr 2 ∧ (8, (0x700001000 : Word)) ∈ controlRegisters { start [] with cr := { ControlRegs.reset with iva := 0x700001000 } } ∧
      (userState 0).psw.user = true ∧ (start []).psw.user = false := by
  refine ⟨?_, ?_, rfl, rfl⟩
  · simp [ReservedCr]
  · simp [controlRegisters]

theorem witness_TrapAndHaltStopTheCore : (userState 0).psw.user = true ∧ (start []).psw.user = false := by decide

theorem witness_ResumeAndHaltLeaveTrappedOnly : trappedState.run = .trapped ∧ (start []).run ≠ .trapped := by decide

end Sys2Proof.Tests
end

section
/-!
PROOFS. The statements of 10_state.md: the invariant and its preservation, the mode bits, the destination register,
GR0, the reserved bits of the PSW, and reset. Each whole-machine statement goes by the cases of `step_cases` and
`ExecCase`.
-/

namespace Sys2Proof.Machine

/-! ### Where an answered translation lands (20_memory.md R36, R37, R41 to R43) -/

/-- The bytes an answered translation reaches lie in the backed part of its region. -/
theorem backed_of_translate_ok {s u : State} {va pa : Word} {n : Nat} {kind : AccessKind} {sp : Space}
    (h : translate s va n kind = (.ok sp pa, u)) : Backed s.params sp pa.toNat n := by
  obtain ⟨-, ⟨rfl, ⟨hlow, -⟩, hb⟩ | ⟨rfl, -, hb⟩⟩ := translate_ok h
  · exact .inr ⟨rfl, hlow, hb⟩
  · exact .inl ⟨rfl, hb⟩

/-- A page frame keeps the offset of an address in its page, so it keeps the alignment to a length that divides the
page (20_memory.md R41). -/
theorem frame_add_offset_aligned {frame : Word} (hf : PageAligned frame) {va n : Nat}
    (hn : n = 1 ∨ n = 2 ∨ n = 4 ∨ n = 8) (ha : va % n = 0) :
    (frame + BitVec.ofNat 64 (va % 16384)).toNat % n = 0 := by
  rw [PageAligned] at hf
  rw [BitVec.toNat_add, BitVec.toNat_ofNat]
  rcases hn with rfl | rfl | rfl | rfl <;> omega

/-- With page-aligned frames the physical address of an allowed access is aligned to its length. -/
theorem aligned_of_reachesPhysical {s : State} (h : s.Inv) {va pa : Word} {n : Nat} {kind : AccessKind}
    (hn : n = 1 ∨ n = 2 ∨ n = 4 ∨ n = 8) (hr : ReachesPhysical s va n kind pa) : pa.toNat % n = 0 := by
  obtain ⟨ha, ⟨-, rfl⟩ | ⟨-, e, he, -, -, rfl⟩⟩ := hr
  · exact ha
  · exact frame_add_offset_aligned (h.pages e he).2 hn ha

/-- The reservation an LDR makes is a good one (10_state.md R27). -/
theorem reservationOk_of_translate_ok {s u : State} (h : s.Inv) {va pa : Word} {n : Nat} {kind : AccessKind}
    {sp : Space} (hn : n = 1 ∨ n = 2 ∨ n = 4 ∨ n = 8) (ht : translate s va n kind = (.ok sp pa, u)) (v : Word) :
    ({ valid := true, space := sp, pa := pa, len := n, value := v } : Reservation).Ok s.params :=
  fun _ => ⟨hn, aligned_of_reachesPhysical h hn (translate_ok ht).1, backed_of_translate_ok ht⟩

/-! ### Every step keeps the invariant -/

section Keeps
variable {s : State} (h : s.Inv)
include h

theorem State.Inv.retireTo (ia : InstrAddr) : (s.retireTo ia).Inv :=
  h.withPsw _

theorem State.Inv.retire : s.retire.Inv :=
  h.retireTo _

theorem State.Inv.translated {u : State} {va : Word} {n : Nat} {kind : AccessKind} {x : Translation}
    (ht : translate s va n kind = (x, u)) : u.Inv :=
  h.recencyOnly (recencyOnly_of_translate ht)

/-- An allowed store keeps the invariant. -/
theorem State.Inv.storeAt {u : State} {va pa : Word} {n : Nat} {kind : AccessKind} {sp : Space}
    (ht : translate s va n kind = (.ok sp pa, u)) (v : Word) : (u.regionWrite sp pa n v).Inv := by
  refine (h.translated ht).regionWrite ?_ v
  rw [(recencyOnly_of_translate ht).params]
  exact backed_of_translate_ok ht

/-- The reservation of an allowed load keeps the invariant, whatever the device has seen. -/
theorem State.Inv.reserveAt {u : State} {va pa : Word} {n : Nat} {kind : AccessKind} {sp : Space}
    (hn : n = 1 ∨ n = 2 ∨ n = 4 ∨ n = 8) (ht : translate s va n kind = (.ok sp pa, u)) (v : Word)
    (history : List IoEvent) : (({ u with ioHistory := history } : State).reserve sp pa n v).Inv := by
  refine ((h.translated ht).withHistory history).withReservation ?_
  rw [show ({ u with ioHistory := history } : State).params = u.params from rfl,
    (recencyOnly_of_translate ht).params]
  exact reservationOk_of_translate_ok h hn ht v

/-- Every next state of an instruction satisfies the invariant. -/
theorem ExecCase.keepsInv {i : Instr} {t : State} (hc : ExecCase i s t) : t.Inv := by
  cases hc with
  | trap u c info1 info2 info3 hu hc hi ht => exact ht ▸ (h.recencyOnly hu).raise hc info1 info2 info3
  | result u r v ia history hk hu hr ht =>
    exact ht ▸ (((h.recencyOnly hu).withHistory history).writeGr r v).retireTo ia
  | store u sp pa ea v n hk hn hu ht => exact ht ▸ (h.storeAt hu v).retire
  | loadReserve u sp pa ea v n r history hk hr hn hu ht =>
    exact ht ▸ ((h.reserveAt hn hu v history).writeGr r v).retire
  | conditionalStored u sp pa ea v n r hk hr hn hu ht =>
    have hb : Backed u.dropReservation.params sp pa.toNat n := by
      rw [State.dropReservation_params, (recencyOnly_of_translate hu).params]
      exact backed_of_translate_ok hu
    exact ht ▸ ((((h.translated hu).dropReservation).regionWrite hb v).writeGr r 1).retire
  | conditionalFailed u r hk hr hu ht => exact ht ▸ ((h.recencyOnly hu).dropReservation.writeGr r 0).retire
  | controlWrite n v hk hn ht => exact ht ▸ (h.writeCr n v).retire
  | tlbInserted u va pa aid pid hk hp hu ht => exact ht ▸ (h.tlbInsert hu).retire
  | tlbPurged va hk hp ht => exact ht ▸ (h.purgeTlb va).retire
  | status p r v hk hr hp ht => exact ht ▸ ((h.withPsw p).writeGr r v).retire
  | restored v hk hp ht => exact ht ▸ h.withPsw (Psw.ofWord v)
  | halted hk hp ht => exact ht ▸ h.halt.retire

/-- A fetch that answers a word keeps the invariant. -/
theorem State.Inv.fetched {s1 : State} {w : InstrWord} (hf : fetch s = (.ok w, s1)) : s1.Inv := by
  obtain ⟨u, hu, he⟩ := fetch_ok hf
  rw [he]
  exact ((h.recencyOnly hu).withIr w).withHistory s1.ioHistory

/-- A fetch trap keeps the invariant: its code is one of the five of a translation. -/
theorem State.Inv.fetchTrapped {s1 : State} {c : TrapCode} (hf : fetch s = (.error c, s1)) : (s1.raiseFetch c).Inv := by
  obtain ⟨hu, hc⟩ := fetch_error hf
  refine (h.recencyOnly hu).raise ?_ s1.psw.ia 4 0
  rcases hc with rfl | rfl | rfl | rfl | rfl <;> decide

end Keeps

/-- Settles O12: by the cases of a step; the fetch keeps the invariant, and so does every case of an instruction. -/
theorem everyStepKeepsTheStateInvariant : Obligations.EveryStepKeepsTheStateInvariant := by
  intro s t h hstep
  rcases step_cases hstep with
    ⟨-, rfl⟩ | ⟨-, c, s1, hf, rfl⟩ | ⟨-, w, s1, e, hf, -, rfl⟩ | ⟨-, w, s1, i, hf, -, -, hc⟩
  · exact h
  · exact h.fetchTrapped hf
  · exact (h.fetched hf).raise (by decide) s1.ir s1.psw.ia 0
  · exact hc.keepsInv (h.fetched hf)

/-! ### The step of a fetched word -/

/-- A step after a fetch that answered a word: the word does not decode and IllegalInstruction is taken, or it decodes
and the state is one of its instruction's cases. -/
theorem step_fetched_cases {s s1 t : State} {w : InstrWord} (hr : s.run = .running) (hf : fetch s = (.ok w, s1))
    (h : step s = .next t) : t = s1.raiseIllegal ∨ ∃ i, decode w = .ok i ∧ ExecCase i s1 t := by
  rw [step_of_fetch hr hf] at h
  cases hd : decode w with
  | error e =>
    rw [hd] at h
    cases h
    exact .inl rfl
  | ok i =>
    rw [hd] at h
    exact .inr ⟨i, rfl, exec_cases h⟩

/-! ### The mode bits (10_state.md R16, R18) -/

/-- An instruction that is no status instruction changes nothing of the PSW but IA. -/
theorem ExecCase.psw_eq {i : Instr} {s t : State} (hc : ExecCase i s t) (hs : kindOf i ≠ .status) :
    t.psw = { s.psw with ia := t.psw.ia } := by
  cases hc with
  | trap u c info1 info2 info3 hu hc hi ht => subst ht; simp [hu.psw]
  | result u r v ia history hk hu hr ht => subst ht; simp [hu.psw]
  | store u sp pa ea v n hk hn hu ht => subst ht; simp [(recencyOnly_of_translate hu).psw]
  | loadReserve u sp pa ea v n r history hk hr hn hu ht => subst ht; simp [(recencyOnly_of_translate hu).psw]
  | conditionalStored u sp pa ea v n r hk hr hn hu ht => subst ht; simp [(recencyOnly_of_translate hu).psw]
  | conditionalFailed u r hk hr hu ht => subst ht; simp [hu.psw]
  | controlWrite n v hk hn ht => subst ht; simp
  | tlbInserted u va pa aid pid hk hp hu ht =>
    obtain ⟨tlb', rfl, -⟩ := tlbInsert_cases hu
    subst ht; simp
  | tlbPurged va hk hp ht => subst ht; simp
  | status p r v hk hr hp ht => exact absurd hk hs
  | restored v hk hp ht => exact absurd hk hs
  | halted hk hp ht => subst ht; simp

/-- Settles O19: outside families MST and RFI an instruction is no status instruction. -/
theorem onlyStatusInstructionsChangeTheModeBits : Obligations.OnlyStatusInstructionsChangeTheModeBits := by
  intro s s1 t w hr hf hstep hmst hrfi
  rw [← fetch_psw hf]
  rcases step_fetched_cases hr hf hstep with rfl | ⟨i, hd, hc⟩
  · simp
  · have hs : kindOf i ≠ .status := fun hk => by
      have hw := (decode_family hd).1
      rcases kindOf_status i hk with hi | hi <;> rw [hi] at hw
      · exact hmst (Prod.mk.inj hw)
      · exact hrfi (Prod.mk.inj hw)
    rw [hc.psw_eq hs]
    exact ⟨rfl, rfl, rfl⟩

/-! ### The destination register (10_state.md R15) -/

/-- An instruction changes no general register but its destination. -/
theorem ExecCase.readGr_of_ne {i : Instr} {s t : State} (hc : ExecCase i s t) {j : Reg}
    (hj : ∀ r, destinationOf i = some r → j ≠ r) : t.readGr j = s.readGr j := by
  cases hc with
  | trap u c info1 info2 info3 hu hc hi ht => rw [ht, State.raise_readGr, hu.readGr]
  | result u r v ia history hk hu hr ht =>
    rw [ht, State.retireTo_readGr]
    rcases hr with rfl | hr
    · exact hu.readGr j
    · rw [State.readGr_writeGr_of_ne _ v (hj r hr)]
      exact hu.readGr j
  | store u sp pa ea v n hk hn hu ht =>
    rw [ht, State.retire_readGr, State.regionWrite_readGr, (recencyOnly_of_translate hu).readGr]
  | loadReserve u sp pa ea v n r history hk hr hn hu ht =>
    rw [ht, State.retire_readGr, State.readGr_writeGr_of_ne _ v (hj r hr), State.reserve_readGr]
    exact (recencyOnly_of_translate hu).readGr j
  | conditionalStored u sp pa ea v n r hk hr hn hu ht =>
    rw [ht, State.retire_readGr, State.readGr_writeGr_of_ne _ 1 (hj r hr), State.regionWrite_readGr,
      State.dropReservation_readGr, (recencyOnly_of_translate hu).readGr]
  | conditionalFailed u r hk hr hu ht =>
    rw [ht, State.retire_readGr, State.readGr_writeGr_of_ne _ 0 (hj r hr), State.dropReservation_readGr, hu.readGr]
  | controlWrite n v hk hn ht => rw [ht, State.retire_readGr, State.writeCr_readGr]
  | tlbInserted u va pa aid pid hk hp hu ht =>
    obtain ⟨tlb', rfl, -⟩ := tlbInsert_cases hu
    rw [ht, State.retire_readGr]
    rfl
  | tlbPurged va hk hp ht => rw [ht, State.retire_readGr, State.purgeTlb_readGr]
  | status p r v hk hr hp ht =>
    rw [ht, State.retire_readGr, State.readGr_writeGr_of_ne _ v (hj r hr)]
    rfl
  | restored v hk hp ht => rw [ht, State.restorePsw_readGr]
  | halted hk hp ht =>
    rw [ht, State.retire_readGr]
    rfl

/-- Settles O20: the destination of a decoded instruction stands in bits 25:22 of its word. -/
theorem onlyTheDestinationRegisterChanges : Obligations.OnlyTheDestinationRegisterChanges := by
  intro s s1 t w j hr hf hstep hj
  rw [← fetch_readGr hf]
  rcases step_fetched_cases hr hf hstep with rfl | ⟨i, hd, hc⟩
  · exact State.raiseIllegal_readGr s1 j
  · obtain ⟨-, hdest, -⟩ := decode_family hd
    exact hc.readGr_of_ne fun r hi => hdest r hi ▸ hj

/-! ### Reset (10_state.md R34; 70_reset_and_hazards.md R156) -/

/-- A TLB of reset entries satisfies the TLB part of the invariant, whatever its size. -/
theorem tlbOk_replicate_empty {n : Nat} (hn : 0 < n) : TlbOk (List.replicate n TlbEntry.empty) 0 where
  slots := by rw [List.length_replicate]; exact hn
  pages e he := by rw [List.eq_of_mem_replicate he]; exact ⟨rfl, rfl⟩
  unique := List.pairwise_replicate.2 (.inr fun hv => absurd hv.1 (by decide))
  stamps e he := by rw [List.eq_of_mem_replicate he]; exact le_refl 0
  recency := List.pairwise_replicate.2 (.inr fun hv => absurd hv.1 (by decide))

/-- Settles O13: nothing is written, reserved or recorded, and every TLB entry is invalid. -/
theorem resetStateSatisfiesTheInvariant : Obligations.ResetStateSatisfiesTheInvariant :=
  have tlb : TlbOk State.reset.tlb State.reset.tlbTick := tlbOk_replicate_empty (by decide)
  { params := by decide
    zero := by decide
    memory := List.Pairwise.nil
    backed := fun _ hc => absurd hc List.not_mem_nil
    slots := tlb.slots
    pages := tlb.pages
    unique := tlb.unique
    stamps := tlb.stamps
    recency := tlb.recency
    runningClear := fun _ => rfl
    trappedSet := fun hr => absurd hr (by decide)
    reservation := fun hv => absurd hv (by decide) }

theorem hostReset_readGr (s : State) (i : Reg) : (hostReset s).readGr i = 0 := by
  have hgr : (hostReset s).gr[i] = 0 := Vector.getElem_replicate i.isLt
  rw [State.readGr, hgr, ite_self]

theorem hostReset_tlb (s : State) : (hostReset s).tlb = List.replicate s.tlb.length TlbEntry.empty :=
  List.map_const'

theorem hostGetPsw_hostReset (s : State) : hostGetPsw (hostReset s) = 0 := by
  rw [hostGetPsw, show (hostReset s).psw = State.reset.psw from rfl]
  decide

theorem controlRegisters_hostReset {s : State} {p : CrSlot × Word} (hp : p ∈ controlRegisters (hostReset s)) :
    p.2 = 0 := by
  simp only [controlRegisters, List.mem_cons, List.not_mem_nil, or_false] at hp
  rcases hp with rfl | rfl | rfl | rfl | rfl | rfl | rfl <;> rfl

/-- Settles O59: the registers and the TLB by their lemmas, the other fields as `hostReset` writes them. -/
theorem hostResetGivesTheResetValues : Obligations.HostResetGivesTheResetValues := by
  intro s
  refine ⟨hostReset_readGr s, congrArg BitVec.toNat (hostGetPsw_hostReset s), fun p => controlRegisters_hostReset,
    rfl, rfl, ?_, ?_, rfl, rfl, rfl, fun a => rfl, rfl, rfl⟩
  · rw [hostReset_tlb, List.length_replicate]
  · intro e he
    rw [hostReset_tlb] at he
    rw [List.eq_of_mem_replicate he]
    exact ⟨rfl, rfl, rfl, rfl, rfl, rfl⟩

/-! ### GR0 and the host's register calls (10_state.md R13, R14) -/

theorem hostGetGeneralReg_outOfRange (s : State) {i : Nat} (hi : 16 ≤ i) :
    hostGetGeneralReg s i = .refused .hostRegisterIndex :=
  dif_neg (Nat.not_lt.2 hi)

theorem hostSetGeneralReg_outOfRange (s : State) {i : Nat} (v : Word) (hi : 16 ≤ i) :
    hostSetGeneralReg s i v = .refused .hostRegisterIndex :=
  dif_neg (Nat.not_lt.2 hi)

/-- Settles O24: an index outside [0, 16) by the range check of the two host calls, the rest by the laws of `readGr` and
`writeGr`. -/
theorem generalRegisterZeroIsHardwired : Obligations.GeneralRegisterZeroIsHardwired := by
  refine ⟨fun s i v hi => ⟨hostGetGeneralReg_outOfRange s hi, hostSetGeneralReg_outOfRange s v hi⟩,
    State.readGr_zero, State.writeGr_zero, fun s v => ?_, fun s i j v hi => ?_⟩
  · exact congrArg Host.Outcome.next (State.writeGr_zero s v)
  · simp only [State.readGr_writeGr_destination, ne_eq, hi, not_false_eq_true, and_true]

/-! ### The reserved bits of the PSW (10_state.md R21) -/

/-- The 64-bit value of a stored PSW, bit by bit the low 35 bits of what was written. -/
theorem Psw.toWord_ofWord (v : Word) : (Psw.ofWord v).toWord = (v.setWidth 35).setWidth 64 := by
  apply BitVec.eq_of_getLsbD_eq
  intro i hi
  rw [Psw.getLsbD_toWord, BitVec.getLsbD_setWidth, BitVec.getLsbD_setWidth]
  by_cases h : i < 35
  · by_cases h32 : i < 32
    · simp [Psw.ofWord, h32, h, hi]
    · obtain rfl | rfl | rfl : i = 32 ∨ i = 33 ∨ i = 34 := by omega
      all_goals simp [Psw.ofWord]
  · simp [h, show ¬ i < 32 by omega, show i ≠ 32 by omega, show i ≠ 33 by omega, show i ≠ 34 by omega]

theorem Psw.toWord_ofWord_toNat (v : Word) : (Psw.ofWord v).toWord.toNat = v.toNat % 2 ^ 35 := by
  rw [Psw.toWord_ofWord, BitVec.toNat_setWidth_of_le (by norm_num), BitVec.toNat_setWidth]

/-- Bits 63:35 of the PSW read 0: a PSW is what its own 64-bit value restores. -/
theorem Psw.toWord_toNat_lt (p : Psw) : p.toWord.toNat < 2 ^ 35 := by
  have hp : p.toWord.toNat = p.toWord.toNat % 2 ^ 35 := by rw [← Psw.toWord_ofWord_toNat, Psw.ofWord_toWord]
  rw [hp]
  exact Nat.mod_lt _ (by norm_num)

/-- RFI in privileged mode restores the PSW from its control register (43_sys.md R135). -/
theorem exec_rfi_privileged {s : State} {n : CrSlot} {v : Word} (hp : s.psw.user = false)
    (hv : s.readCr n = some v) : exec (.rfi n) s = .next (s.restorePsw v) := by
  rw [exec, execRfi, hv]
  simp [privileged, hp]

/-- Settles O25: the host's setPsw and RFI store the same PSW, `Psw.ofWord v`. -/
theorem pswReservedBitsReadZero : Obligations.PswReservedBitsReadZero := by
  refine ⟨fun s => s.psw.toWord_toNat_lt, fun s v => Psw.toWord_ofWord_toNat v, fun s t n v hp hv h => ?_⟩
  rw [exec_rfi_privileged hp hv] at h
  cases h
  exact Psw.toWord_ofWord_toNat v

end Sys2Proof.Machine
end

section
/-!
PROOFS. The statements of 20_memory.md: what `Translate` answers, where a user's store lands, little-endian reads after
writes, the reservation, and the entry a full TLB evicts.
-/

namespace Sys2Proof.Machine

/-! ### What `Translate` answers (20_memory.md R43 to R46) -/

theorem State.touchedBy_of_miss {s : State} {va : Word} (h : ∀ e ∈ s.tlb, ¬ EntryFor e va) : s.touchedBy va = s :=
  if_neg fun ⟨e, he, hv⟩ => h e he hv

theorem State.afterAccess_translated {s : State} {va : Word} {n : Nat} (ha : va.toNat % n = 0)
    (ht : Translated s va) : s.afterAccess va n = s.touchedBy va :=
  if_pos ⟨ha, ht⟩

theorem State.afterAccess_direct {s : State} {va : Word} {n : Nat} (h : ¬ (va.toNat % n = 0 ∧ Translated s va)) :
    s.afterAccess va n = s :=
  if_neg h

/-- Once the checks before the bounds check pass, `translate` is the routing of the physical address. -/
theorem translate_of_reachesPhysical {s : State} (h : OneEntryPerPage s.tlb) {va pa : Word} {n : Nat}
    {kind : AccessKind} (hr : ReachesPhysical s va n kind pa) :
    translate s va n kind = (route s.params pa n, s.afterAccess va n) := by
  obtain ⟨ha, ⟨ht, rfl⟩ | ⟨ht, e, he, hv, hp, rfl⟩⟩ := hr
  · rw [translate_direct kind ha ht, State.afterAccess_direct fun hc => ht hc.2]
  · simp only [translate_tlb kind ha ht, lookupTlb_hit h he hv, (permitted_iff s e kind).2 hp, if_true,
      State.afterAccess_translated ha ht, pageOffset_eq]

/-- With one entry per page the rule has one answer, the one `translate` gives. -/
theorem TranslateSays.translate_eq {s : State} (h : OneEntryPerPage s.tlb) {va : Word} {n : Nat} {kind : AccessKind}
    {x : Translation} (hx : TranslateSays s va n kind x) : translate s va n kind = (x, s.afterAccess va n) := by
  cases hx with
  | alignment ha => rw [translate, if_pos ha, State.afterAccess_direct fun hc => ha hc.1]
  | tlbAccess ha ht hmiss =>
    rw [translate_tlb kind ha ht, lookupTlb_miss hmiss, State.afterAccess_translated ha ht,
      State.touchedBy_of_miss hmiss]
  | protection e ha ht he hv hp =>
    have hp' : permitted s e kind = false := by
      rw [Bool.eq_false_iff]
      exact fun hc => hp ((permitted_iff s e kind).1 hc)
    simp only [translate_tlb kind ha ht, lookupTlb_hit h he hv, hp', Bool.false_eq_true, if_false,
      State.afterAccess_translated ha ht]
  | ioMemoryAddress pa hr hw hb =>
    rw [translate_of_reachesPhysical h hr, route, if_pos ((inIoWindow_iff pa).2 hw),
      if_pos (show pa.toNat + n > Config.ioMemStart + s.params.ioMemSize from hb)]
  | io pa hr hw hb =>
    rw [translate_of_reachesPhysical h hr, route, if_pos ((inIoWindow_iff pa).2 hw),
      if_neg (show ¬ pa.toNat + n > Config.ioMemStart + s.params.ioMemSize from Nat.not_lt.2 hb)]
  | physicalMemoryAddress pa hr hw hb =>
    rw [translate_of_reachesPhysical h hr, route, if_neg (mt (inIoWindow_iff pa).1 hw), if_pos hb]
  | phys pa hr hw hb =>
    rw [translate_of_reachesPhysical h hr, route, if_neg (mt (inIoWindow_iff pa).1 hw), if_neg (Nat.not_lt.2 hb)]

/-- A physical address that is reached gets the answer of the bounds check of its region (20_memory.md R46). -/
theorem ReachesPhysical.says {s : State} {va pa : Word} {n : Nat} {kind : AccessKind}
    (hr : ReachesPhysical s va n kind pa) : ∃ x, TranslateSays s va n kind x := by
  rcases route_cases s.params pa n with ⟨hw, hb, -⟩ | ⟨hw, hb, -⟩ | ⟨hw, hb, -⟩ | ⟨hw, hb, -⟩
  · exact ⟨_, .ioMemoryAddress pa hr hw hb⟩
  · exact ⟨_, .io pa hr hw hb⟩
  · exact ⟨_, .physicalMemoryAddress pa hr hw hb⟩
  · exact ⟨_, .phys pa hr hw hb⟩

/-- The rule answers for every address: one of its checks fails, or a physical address is reached. -/
theorem exists_translateSays (s : State) (va : Word) (n : Nat) (kind : AccessKind) :
    ∃ x, TranslateSays s va n kind x := by
  by_cases ha : va.toNat % n = 0
  · by_cases ht : Translated s va
    · by_cases hit : ∃ e ∈ s.tlb, EntryFor e va
      · obtain ⟨e, he, hv⟩ := hit
        by_cases hp : Permits s e kind
        · exact ReachesPhysical.says ⟨ha, .inr ⟨ht, e, he, hv, hp, rfl⟩⟩
        · exact ⟨_, .protection e ha ht he hv hp⟩
      · exact ⟨_, .tlbAccess ha ht fun e he hv => hit ⟨e, he, hv⟩⟩
    · exact ReachesPhysical.says ⟨ha, .inl ⟨ht, rfl⟩⟩
  · exact ⟨_, .alignment ha⟩

/-- Settles O36: the rule answers for every address, and `translate` gives its answer with the recency update. -/
theorem translateFollowsTheOrderOfItsChecks : Obligations.TranslateFollowsTheOrderOfItsChecks :=
  fun s va n kind h => ⟨exists_translateSays s va n kind, fun _ hx => hx.translate_eq h⟩

/-- Settles O37: a page-aligned frame keeps the alignment, and the last check is the bounds check. -/
theorem allowedAccessesAreAlignedAndBacked : Obligations.AllowedAccessesAreAlignedAndBacked := by
  intro s t va n kind sp pa h hn ht
  exact ⟨aligned_of_reachesPhysical h hn (translate_ok ht).1, backed_of_translate_ok ht⟩

/-! ### Where a user's store lands (20_memory.md R43, R45; 60_exceptions.md R149) -/

/-- An entry of a TLB with new stamps is an entry of the old one but for its stamp. -/
theorem SameTlbButRecency.exists_mem {s t : State} (h : SameTlbButRecency s t) {e : TlbEntry} (he : e ∈ t.tlb) :
    ∃ d ∈ s.tlb, ∃ stamp, e = { d with stamp := stamp } := by
  obtain ⟨k, hk, rfl⟩ := List.mem_iff_getElem.1 he
  have hks : k < s.tlb.length := h.1 ▸ hk
  obtain ⟨stamp, hst, -⟩ := h.2.2 k s.tlb[k] (List.getElem?_eq_getElem hks)
  rw [List.getElem?_eq_getElem hk] at hst
  exact ⟨s.tlb[k], List.getElem_mem hks, stamp, Option.some.inj hst⟩

/-- A byte of memory that a region write changes is one of the bytes written. -/
theorem regionWrite_read_ne {s : State} {sp : Space} {pa v : Word} {n a : Nat}
    (h : (s.regionWrite sp pa n v).mem.read a ≠ s.mem.read a) : pa.toNat ≤ a ∧ a < pa.toNat + n := by
  by_contra hc
  exact h ((regionWrite_written s sp pa n v).outside (by omega))

/-- An instruction changes a byte of memory only by an allowed write access to it. -/
theorem ExecCase.write_of_read_ne {i : Instr} {s t : State} (hc : ExecCase i s t) {a : Nat}
    (ha : t.mem.read a ≠ s.mem.read a) : ∃ ea n sp pa u, (n = 1 ∨ n = 2 ∨ n = 4 ∨ n = 8) ∧
      translate s ea n .write = (.ok sp pa, u) ∧ pa.toNat ≤ a ∧ a < pa.toNat + n := by
  cases hc with
  | trap u c info1 info2 info3 hu hc hi ht => exact absurd (by rw [ht, State.raise_mem, hu.mem]) ha
  | result u r v ia history hk hu hr ht => exact absurd (by rw [ht, State.retireTo_mem, State.writeGr_mem, hu.mem]) ha
  | store u sp pa ea v n hk hn hu ht =>
    rw [ht, ← (recencyOnly_of_translate hu).mem] at ha
    exact ⟨ea, n, sp, pa, u, hn, hu, regionWrite_read_ne ha⟩
  | loadReserve u sp pa ea v n r history hk hr hn hu ht =>
    exact absurd (by rw [ht, State.retire_mem, State.writeGr_mem, State.reserve_mem,
      (recencyOnly_of_translate hu).mem]) ha
  | conditionalStored u sp pa ea v n r hk hr hn hu ht =>
    rw [ht, ← (recencyOnly_of_translate hu).mem] at ha
    exact ⟨ea, n, sp, pa, u, hn, hu, regionWrite_read_ne (s := u.dropReservation) ha⟩
  | conditionalFailed u r hk hr hu ht =>
    exact absurd (by rw [ht, State.retire_mem, State.writeGr_mem, State.dropReservation_mem, hu.mem]) ha
  | controlWrite n v hk hn ht => exact absurd (by rw [ht, State.retire_mem, State.writeCr_mem]) ha
  | tlbInserted u va pa aid pid hk hp hu ht =>
    obtain ⟨tlb', rfl, -⟩ := tlbInsert_cases hu
    exact absurd (by rw [ht, State.retire_mem]) ha
  | tlbPurged va hk hp ht => exact absurd (by rw [ht, State.retire_mem, State.purgeTlb_mem]) ha
  | status p r v hk hr hp ht => exact absurd (by rw [ht, State.retire_mem, State.writeGr_mem]) ha
  | restored v hk hp ht => exact absurd (by rw [ht, State.restorePsw_mem]) ha
  | halted hk hp ht => exact absurd (by rw [ht, State.retire_mem]) ha

/-- A step changes a byte of memory only by an allowed write access to it, made after the fetch. -/
theorem step_write_of_read_ne {s t : State} (h : step s = .next t) {a : Nat} (ha : t.mem.read a ≠ s.mem.read a) :
    ∃ w s1 ea n sp pa u, fetch s = (.ok w, s1) ∧ (n = 1 ∨ n = 2 ∨ n = 4 ∨ n = 8) ∧
      translate s1 ea n .write = (.ok sp pa, u) ∧ pa.toNat ≤ a ∧ a < pa.toNat + n := by
  rcases step_cases h with
    ⟨-, rfl⟩ | ⟨-, c, s1, hf, rfl⟩ | ⟨-, w, s1, e, hf, -, rfl⟩ | ⟨-, w, s1, i, hf, -, -, hc⟩
  · exact absurd rfl ha
  · exact absurd (by rw [State.raiseFetch_mem, (fetch_error hf).1.mem]) ha
  · exact absurd (by rw [State.raiseIllegal_mem, fetch_mem hf]) ha
  · rw [← fetch_mem hf] at ha
    obtain ⟨ea, n, sp, pa, u, hw⟩ := hc.write_of_read_ne ha
    exact ⟨w, s1, ea, n, sp, pa, u, hf, hw⟩

/-- An aligned access through a page frame stays in the frame's page (20_memory.md R42). -/
theorem frame_add_offset_inPage {frame : Word} (hf : PageAligned frame) {va n : Nat}
    (hn : n = 1 ∨ n = 2 ∨ n = 4 ∨ n = 8) (ha : va % n = 0) :
    frame.toNat ≤ (frame + BitVec.ofNat 64 (va % 16384)).toNat ∧
      (frame + BitVec.ofNat 64 (va % 16384)).toNat + n ≤ frame.toNat + 16384 := by
  have hlt := frame.isLt
  rw [PageAligned] at hf
  rw [BitVec.toNat_add, BitVec.toNat_ofNat]
  rcases hn with rfl | rfl | rfl | rfl <;> omega

/-- With translation on, an allowed access lies in the I/O window or in the page of a TLB entry that permits it. -/
theorem window_or_page_of_translate_ok {s u : State} (h : s.Inv) (hT : s.psw.translate = true) {va pa : Word}
    {n : Nat} {kind : AccessKind} {sp : Space} (hn : n = 1 ∨ n = 2 ∨ n = 4 ∨ n = 8)
    (ht : translate s va n kind = (.ok sp pa, u)) :
    (0xF0000000 ≤ pa.toNat ∧ pa.toNat + n ≤ 0x100000000) ∨
    ∃ e ∈ s.tlb, e.valid = true ∧ Permits s e kind ∧
      e.physicalAddress.toNat ≤ pa.toNat ∧ pa.toNat + n ≤ e.physicalAddress.toNat + 16384 := by
  obtain ⟨⟨ha, ⟨hd, rfl⟩ | ⟨-, e, he, hv, hp, rfl⟩⟩, hregion⟩ := translate_ok ht
  · have hw : InWindow pa := by
      by_contra hc
      exact hd ⟨hc, hT⟩
    obtain ⟨-, -, -, hio⟩ := h.params
    rcases hregion with ⟨-, -, hb⟩ | ⟨-, hc, -⟩
    · exact .inl ⟨hw.1, by omega⟩
    · exact absurd hw hc
  · exact .inr ⟨e, he, hv.1, hp, frame_add_offset_inPage (h.pages e he).2 hn ha⟩

/-- Settles O18: the changed byte is of an allowed write access after the fetch, which changes recency only. -/
theorem userStoresStayInUserWritablePages : Obligations.UserStoresStayInUserWritablePages := by
  intro s t a h _ hT hstep ha
  obtain ⟨w, s1, ea, n, sp, pa, u, hf, hn, ht, hlow, hhigh⟩ := step_write_of_read_ne hstep ha
  have hT1 : s1.psw.translate = true := by rw [fetch_psw hf, hT]
  rcases window_or_page_of_translate_ok (h.fetched hf) hT1 hn ht with ⟨hw1, hw2⟩ | ⟨e, he, hv, hp, hp1, hp2⟩
  · exact .inl ⟨by omega, by omega⟩
  · obtain ⟨d, hd, stamp, rfl⟩ := (fetch_recency hf).exists_mem he
    have hpd : Permits s d .write := by
      rw [Permits, fetch_psw hf, fetch_cr hf] at hp
      exact hp
    exact .inr ⟨d, hd, hv, hpd, hlow.trans' hp1, hhigh.trans_le hp2⟩

/-! ### Reads after writes (20_memory.md R40, R47, R48, R50) -/

theorem usesDevice_eq_false {s : State} {sp : Space} (h : ¬ (sp = .io ∧ s.params.ioDevice = .attached)) :
    s.usesDevice sp = false := by
  simpa [State.usesDevice] using h

/-- A region read of plain storage within the bytes of a region write gives the part of the value that lies there. -/
theorem regionRead_regionWrite_toNat {s : State} {sp : Space} (h : ¬ (sp = .io ∧ s.params.ioDevice = .attached))
    {pa q v : Word} {n k m : Nat} (hq : q.toNat = pa.toNat + k) (hm : m ≤ 8) (hk : k + m ≤ n) :
    (regionRead (s.regionWrite sp pa n v) sp q m).1.toNat = v.toNat / 2 ^ (8 * k) % 2 ^ (8 * m) := by
  have hw : (s.regionWrite sp pa n v).usesDevice sp = false := usesDevice_eq_false h
  have hlt : v.toNat / 2 ^ (8 * k) % 2 ^ (8 * m) < 2 ^ 64 :=
    (Nat.mod_lt _ (Nat.two_pow_pos _)).trans_le (Nat.pow_le_pow_right (by norm_num) (by omega))
  simp only [regionRead, hw, State.regionWrite_mem, usesDevice_eq_false h, Bool.false_eq_true, if_false, hq,
    Memory.readBytes_writeBytes _ _ _ _ hk, BitVec.toNat_ofNat]
  exact Nat.mod_eq_of_lt hlt

/-- Settles O43: an address within the write does not wrap, and a read of no byte gives 0 at any address. -/
theorem narrowReadsSeeTheLittleEndianPart : Obligations.NarrowReadsSeeTheLittleEndianPart := by
  intro s sp pa v n k m h hn hk hpa
  rcases Nat.eq_zero_or_pos m with rfl | hm
  · have hv : regionValue (s.regionWrite sp pa n v) sp (pa + BitVec.ofNat 64 k) 0 = 0 :=
      Nat.lt_one_iff.1 (regionValue_lt _ _ _ 0)
    simp [regionRead_eq, hv, Nat.mod_one]
  · refine regionRead_regionWrite_toNat h ?_ (by omega) hk
    rw [BitVec.toNat_add, BitVec.toNat_ofNat]
    omega

/-- The sign extension of an n-byte value (20_memory.md R49, R50). -/
theorem extended_signed {v n : Nat} (hn : n = 1 ∨ n = 2 ∨ n = 4 ∨ n = 8) (hv : v < 2 ^ (8 * n)) :
    extended v n true =
      wordOf (if v < 2 ^ (8 * n - 1) then (v : Int) else (v : Int) - 2 ^ (8 * n)) := by
  unfold extended
  by_cases hs : v < 2 ^ (8 * n - 1)
  · rw [if_neg fun hc => Nat.not_le.2 hs hc.2.2, if_pos hs]
  · rw [if_neg hs]
    by_cases h8 : n < 8
    · rw [if_pos ⟨rfl, h8, Nat.not_lt.1 hs⟩]
    · obtain rfl : n = 8 := by omega
      rw [if_neg fun hc => h8 hc.2.1]
      apply BitVec.eq_of_toNat_eq
      rw [BitVec.toNat_ofInt, BitVec.toNat_ofInt]
      exact congrArg Int.toNat (Int.sub_emod_right v (2 ^ 64)).symm

/-- Settles O44: the value read is v mod 2^(8n), and its extension is the one of `extended`. -/
theorem readAfterWriteRoundTrips : Obligations.ReadAfterWriteRoundTrips := by
  refine ⟨fun s sp pa v n h hn => ?_, by decide, by decide⟩
  have hread : (regionRead (s.regionWrite sp pa n v) sp pa n).1.toNat = v.toNat % 2 ^ (8 * n) := by
    simpa using regionRead_regionWrite_toNat (v := v) h (k := 0) rfl (by omega) (Nat.zero_add n).le
  have hv : v.toNat % 2 ^ (8 * n) < 2 ^ (8 * n) := Nat.mod_lt _ (Nat.two_pow_pos _)
  refine ⟨hread, ?_⟩
  rw [← extended_signed hn hv, ← extendLoaded_eq hn hv, ← hread, BitVec.ofNat_toNat, BitVec.setWidth_eq]

/-! ### The entry a full TLB evicts (20_memory.md R44, R53) -/

theorem purgedTlb_of_miss {tlb : List TlbEntry} {va : Word} (h : ∀ e ∈ tlb, ¬ EntryFor e va) :
    purgedTlb tlb va = tlb :=
  (List.map_congr_left fun e he => if_neg (h e he)).trans (List.map_id tlb)

theorem StampsDistinct.ne {tlb : List TlbEntry} (h : StampsDistinct tlb) {i j : Nat} {d e : TlbEntry}
    (hi : tlb[i]? = some d) (hj : tlb[j]? = some e) (hij : i ≠ j) (hd : d.valid = true) (he : e.valid = true) :
    d.stamp ≠ e.stamp := by
  obtain ⟨hi', rfl⟩ := List.getElem?_eq_some_iff.1 hi
  obtain ⟨hj', rfl⟩ := List.getElem?_eq_some_iff.1 hj
  intro hst
  rcases Nat.lt_or_gt_of_ne hij with hlt | hlt
  · exact List.pairwise_iff_getElem.1 h i j hi' hj' hlt ⟨hd, he, hst⟩
  · exact List.pairwise_iff_getElem.1 h j i hj' hi' hlt ⟨he, hd, hst.symm⟩

/-- Where every entry is valid and stamps are distinct, the victim's stamp is below every other. -/
theorem IsVictim.stamp_lt {tlb : List TlbEntry} {k : Nat} (hk : IsVictim tlb k) (hall : ∀ e ∈ tlb, e.valid = true)
    (hst : StampsDistinct tlb) : ∃ old, tlb[k]? = some old ∧
      ∀ (j : Nat) (e : TlbEntry), tlb[j]? = some e → j ≠ k → old.stamp < e.stamp := by
  obtain ⟨old, hold, ⟨hinv, -⟩ | ⟨-, hmin, -⟩⟩ := hk
  · rw [hall old (List.mem_of_getElem? hold)] at hinv
    cases hinv
  · refine ⟨old, hold, fun j e he hjk => lt_of_le_of_ne (hmin e (List.mem_of_getElem? he)) ?_⟩
    exact hst.ne hold he (Ne.symm hjk) (hall old (List.mem_of_getElem? hold)) (hall e (List.mem_of_getElem? he))

/-- Settles O54: with no entry for the page the purge changes nothing, and the insert writes the victim's slot alone. -/
theorem fullTlbEvictsTheLeastRecentEntry : Obligations.FullTlbEvictsTheLeastRecentEntry := by
  intro s t va pa aid pid h hall hmiss hi
  obtain ⟨tlb', rfl, k, hk, rfl⟩ := tlbInsert_cases hi
  rw [purgedTlb_of_miss hmiss] at hk ⊢
  obtain ⟨old, hold, hlt⟩ := hk.stamp_lt hall h.recency
  have hlen : k < s.tlb.length := (List.getElem?_eq_some_iff.1 hold).1
  refine ⟨k, old, _, hold, List.getElem?_set_self hlen, ⟨rfl, ?_⟩, fun j e he hjk => ⟨hlt j e he hjk, ?_⟩⟩
  · rw [← pageBase_eq, pageBase_toNat]
  · exact (List.getElem?_set_ne (Ne.symm hjk)).trans he

/-! ### The reservation (20_memory.md R60, R61) -/

/-- A region write is written from any state of the same memory, device and parameters, whatever else changes. -/
theorem RegionWritten.congr {s s' t t' : State} {sp : Space} {pa v : Word} {n : Nat}
    (h : RegionWritten s t sp pa n v) (hp : s'.params = s.params) (hm : s'.mem = s.mem)
    (hh : s'.ioHistory = s.ioHistory) (hm' : t'.mem = t.mem) (hh' : t'.ioHistory = t.ioHistory) :
    RegionWritten s' t' sp pa n v := by
  unfold RegionWritten at h ⊢
  rw [hp, hm, hh, hm', hh']
  exact h

/-- A region write after a translation is one from the state before it, which differs in recency only. -/
theorem RecencyOnly.regionWritten {s u t : State} (h : RecencyOnly s u) {sp : Space} {pa v : Word} {n : Nat}
    (ht : t.mem = (u.regionWrite sp pa n v).mem) (hh : t.ioHistory = (u.regionWrite sp pa n v).ioHistory) :
    RegionWritten s t sp pa n v :=
  (regionWrite_written u sp pa n v).congr h.params.symm h.mem.symm h.ioHistory.symm ht hh

theorem RecencyOnly.regionValue {s u : State} (h : RecencyOnly s u) (sp : Space) (pa : Word) (n : Nat) :
    regionValue u sp pa n = regionValue s sp pa n := by
  rw [Machine.regionValue, Machine.regionValue, h.params, h.mem, h.ioHistory]

/-- An LDR that answers a next state traps, or replaces the reservation by the one of its access (41_mem.md R112). -/
theorem exec_loadReserve_cases {s t : State} {i : Instr} {n : Nat} {sx : Bool} {r : Reg} {ea : Word}
    (hm : MemAccess loadReserveForms s i n sx r ea) (h : exec i s = .next t) :
    (t.run = .trapped ∧ t.res = s.res) ∨ ∃ sp pa u, translate s ea n .read = (.ok sp pa, u) ∧ t.run = s.run ∧
      t.res = { valid := true, space := sp, pa := pa, len := n, value := extended (regionValue s sp pa n) n sx } := by
  obtain ⟨len, rfl, he⟩ := exec_of_loadReserve hm
  rw [he] at h
  rcases ht : translate s ea len.bytes .read with ⟨_ | c, u⟩
  · rename_i sp pa
    have hu := recencyOnly_of_translate ht
    rw [loadReserve_ok sx ht] at h
    cases h
    exact .inr ⟨sp, pa, u, rfl, hu.run, by rw [← hu.regionValue]; rfl⟩
  · rw [loadReserve, ht] at h
    cases h
    exact .inl ⟨rfl, (recencyOnly_of_translate ht).res⟩

/-- An ST that answers a next state traps, or makes the region write of its access (41_mem.md R111). -/
theorem exec_store_cases {s t : State} {i : Instr} {n : Nat} {sx : Bool} {r : Reg} {ea : Word}
    (hm : MemAccess storeForms s i n sx r ea) (h : exec i s = .next t) :
    (t.run = .trapped ∧ t.res = s.res) ∨ ∃ sp pa u, translate s ea n .write = (.ok sp pa, u) ∧ t.run = s.run ∧
      RegionWritten s t sp pa n (s.readGr r) ∧ s.res.AfterWrite t.res sp pa n := by
  obtain ⟨len, rfl, he⟩ := exec_of_store hm
  rw [he] at h
  rcases ht : translate s ea len.bytes .write with ⟨_ | c, u⟩
  · rename_i sp pa
    have hu := recencyOnly_of_translate ht
    rw [storeValue_ok ht] at h
    cases h
    refine .inr ⟨sp, pa, u, rfl, hu.run, hu.regionWritten rfl rfl, ?_⟩
    rw [← hu.res]
    exact Reservation.afterWrite_spec u.res sp pa len.bytes
  · rw [storeValue, ht] at h
    cases h
    exact .inl ⟨rfl, (recencyOnly_of_translate ht).res⟩

/-- An STC that answers a next state traps, or drops the reservation, stored or not (20_memory.md R60 (b); 41_mem.md
R113). -/
theorem exec_storeConditional_res {s t : State} {i : Instr} {n : Nat} {sx : Bool} {r : Reg} {ea : Word}
    (hm : MemAccess storeConditionalForms s i n sx r ea) (hr : s.run ≠ .trapped) (h : exec i s = .next t) :
    t.res = if t.run = .trapped then s.res else { s.res with valid := false } := by
  obtain ⟨len, rfl, he⟩ := exec_of_storeConditional hm
  rw [he] at h
  rcases ht : translate s ea len.bytes .write with ⟨_ | c, u⟩
  · rename_i sp pa
    have hu := recencyOnly_of_translate ht
    have hrun : u.run ≠ .trapped := hu.run ▸ hr
    rw [← hu.res]
    cases ha : s.res.admits sp pa len.bytes with
    | true =>
      rw [storeConditional_stored ht ha] at h
      cases h
      exact (Reservation.afterWrite_invalid rfl sp pa len.bytes).trans (if_neg hrun).symm
    | false =>
      rw [storeConditional_failed ht ha] at h
      cases h
      exact (if_neg hrun).symm
  · rw [storeConditional, ht] at h
    cases h
    exact (recencyOnly_of_translate ht).res

/-- Settles O23: the reservation LDR leaves is the one STC asks for, whatever state they are met in. -/
theorem storeConditionalAfterLoadReserveSucceeds : Obligations.StoreConditionalAfterLoadReserveSucceeds := by
  intro s t u ldr stc n sx sx' r r' ea ea' sp pa hs hu hldr hread hexec hres hstc hwrite
  have hr := hread.translate_eq hs
  have hw := hwrite.translate_eq hu
  obtain ⟨len, rfl, hl⟩ := exec_of_loadReserve hldr
  rw [hl, loadReserve_ok sx hr] at hexec
  cases hexec
  obtain ⟨len', hlen, hc⟩ := exec_of_storeConditional hstc
  rw [← hlen] at hw hres ⊢
  have hadmits : u.res.admits sp pa len'.bytes = true := by
    rw [hres]
    exact (Reservation.admits_iff _ sp pa len'.bytes).2 ⟨rfl, rfl, rfl, rfl⟩
  refine ⟨_, hc.trans (storeConditional_stored hw hadmits), ?_, ?_⟩
  · rw [State.retire_readGr, State.readGr_writeGr_destination]
    by_cases h0 : r' = 0 <;> simp [h0]
  · exact (recencyOnly_of_translate hw).regionWritten rfl rfl

/-- An instruction of no reserving, storing or conditional kind leaves the reservation as it is. -/
theorem ExecCase.res_eq {i : Instr} {s t : State} (hc : ExecCase i s t) (hst : kindOf i ≠ .store)
    (hldr : kindOf i ≠ .loadReserve) (hstc : kindOf i ≠ .storeConditional) : t.res = s.res := by
  cases hc with
  | trap u c info1 info2 info3 hu hc hi ht => rw [ht, State.raise_res, hu.res]
  | result u r v ia history hk hu hr ht => rw [ht, State.retireTo_res, State.writeGr_res, hu.res]
  | store u sp pa ea v n hk hn hu ht => exact absurd hk hst
  | loadReserve u sp pa ea v n r history hk hr hn hu ht => exact absurd hk hldr
  | conditionalStored u sp pa ea v n r hk hr hn hu ht => exact absurd hk hstc
  | conditionalFailed u r hk hr hu ht => exact absurd hk hstc
  | controlWrite n v hk hn ht => rw [ht, State.retire_res, State.writeCr_res]
  | tlbInserted u va pa aid pid hk hp hu ht =>
    obtain ⟨tlb', rfl, -⟩ := tlbInsert_cases hu
    rw [ht, State.retire_res]
  | tlbPurged va hk hp ht => rw [ht, State.retire_res, State.purgeTlb_res]
  | status p r v hk hr hp ht => rw [ht, State.retire_res, State.writeGr_res]
  | restored v hk hp ht => rw [ht, State.restorePsw_res]
  | halted hk hp ht => rw [ht, State.retire_res]

/-! The host's operations. -/

theorem nextAddress_toNat {pa : Word} (h : pa.toNat + 1 < 2 ^ 64) : (pa + 1).toNat = pa.toNat + 1 :=
  BitVec.toNat_add_of_lt (y := 1#64) h

/-- One more byte at the front, where addresses do not wrap. -/
theorem Reservation.touched_succ (q : Reservation) (sp : Space) {pa : Word} {n : Nat} (h : pa.toNat + (n + 1) < 2 ^ 64) :
    q.Touched sp pa (n + 1) ↔ q.Touched sp pa 1 ∨ q.Touched sp (pa + 1) n := by
  have hpa := nextAddress_toNat (pa := pa) (by omega)
  unfold Reservation.Touched
  rw [hpa]
  constructor
  · rintro ⟨hs, a, h1, h2, hq⟩
    by_cases ha : a < pa.toNat + 1
    · exact .inl ⟨hs, a, h1, ha, hq⟩
    · exact .inr ⟨hs, a, by omega, by omega, hq⟩
  · rintro (⟨hs, a, h1, h2, hq⟩ | ⟨hs, a, h1, h2, hq⟩)
    · exact ⟨hs, a, h1, by omega, hq⟩
    · exact ⟨hs, a, by omega, by omega, hq⟩

/-- The rule of a write of one byte and of the rest is the rule of the whole write. -/
theorem Reservation.AfterWrite.cons {q q1 q2 : Reservation} {sp : Space} {pa : Word} {n : Nat}
    (hpa : pa.toNat + (n + 1) < 2 ^ 64) (h1 : q.AfterWrite q1 sp pa 1) (h2 : q1.AfterWrite q2 sp (pa + 1) n) :
    q.AfterWrite q2 sp pa (n + 1) := by
  rw [Reservation.AfterWrite, q.touched_succ sp hpa]
  by_cases ht : q.Touched sp pa 1
  · refine ⟨fun _ => ?_, fun hn => absurd (.inl ht) hn⟩
    rw [h1.1 ht] at h2
    rcases h2.eq with h | h <;> exact h
  · rw [h1.2 ht] at h2
    exact ⟨fun h => h2.1 (h.resolve_left ht), fun h => h2.2 fun g => h (.inr g)⟩

/-- The byte writes of an image together obey the rule of one write (20_memory.md R60 (a)). -/
theorem writeImage_res (s : State) {pa : Word} {bytes : List Byte} (h : pa.toNat + bytes.length < 2 ^ 64) :
    s.res.AfterWrite (writeImage s pa bytes).res .phys pa bytes.length := by
  induction bytes generalizing s pa with
  | nil => exact ⟨fun ⟨_, a, h1, h2, _⟩ => absurd h2 (Nat.not_lt.2 h1), fun _ => rfl⟩
  | cons v bytes ih =>
    rw [List.length_cons] at h ⊢
    have hpa := nextAddress_toNat (pa := pa) (by omega)
    exact (Reservation.afterWrite_spec s.res .phys pa 1).cons h
      (ih (s.regionWrite .phys pa 1 (v.setWidth 64)) (by omega))

/-- The rule of `loadImage`: an accepted image lies in physical memory, so its addresses do not wrap. -/
theorem hostLoadImage_res {s t : State} {pa : Word} {bytes : List Byte} (hp : s.params.Ok)
    (h : hostLoadImage s pa bytes = .next t) : s.res.AfterWrite t.res .phys pa bytes.length := by
  unfold hostLoadImage at h
  split at h
  · rename_i hb
    cases h
    apply writeImage_res
    have hpa := pa.isLt
    have hphys : s.params.physMemSize ≤ 0xF0000000 := hp.2.1
    rw [Bool.or_eq_true, decide_eq_true_iff, List.isEmpty_iff] at hb
    rcases hb with rfl | hb
    · exact hpa
    · omega
  · cases h

theorem hostResume_res {s t : State} (h : hostResume s = .next t) : t.res = s.res := by
  unfold hostResume at h
  split at h <;> cases h
  rfl

theorem hostHalt_res {s t : State} (h : hostHalt s = .next t) : t.res = s.res := by
  unfold hostHalt at h
  split at h <;> cases h
  rfl

theorem hostSetGeneralReg_res {s t : State} {i : Nat} {v : Word} (h : hostSetGeneralReg s i v = .next t) :
    t.res = s.res := by
  unfold hostSetGeneralReg at h
  split at h <;> cases h
  rfl

theorem hostSetControlReg_res {s t : State} {id : Nat} {v : Word} (h : hostSetControlReg s id v = .next t) :
    t.res = s.res := by
  unfold hostSetControlReg at h
  split at h <;> cases h
  rfl

theorem hostReadMem_res {s t : State} {pa v : Word} {n : Nat} (h : hostReadMem s pa n = .next (v, t)) :
    t.res = s.res := by
  obtain ⟨-, -, hr⟩ := hostReadMem_cases h
  rw [← hostRead_res s pa n, hr]

theorem tlbInsert_res {s t : State} {va pa : Word} {aid : BitVec 8} {pid : BitVec 32}
    (h : tlbInsert s va pa aid pid = .next t) : t.res = s.res := by
  obtain ⟨tlb', rfl, -⟩ := tlbInsert_cases h
  rfl

section FetchedStep
variable {s s1 t : State} {w : InstrWord} (hr : s.run = .running) (hf : fetch s = (.ok w, s1)) (h : step s = .next t)
include hr hf h

/-- A step after a fetch that answered a word takes IllegalInstruction, or runs the instruction of the word's family. -/
theorem step_fetched_exec : t = s1.raiseIllegal ∨
    ∃ i, decode w = .ok i ∧ exec i s1 = .next t ∧ ∀ g f, InFamily w g f ↔ familyOf i = (g, f) := by
  rw [step_of_fetch hr hf] at h
  cases hd : decode w with
  | error e =>
    rw [hd] at h
    cases h
    exact .inl rfl
  | ok i =>
    rw [hd] at h
    exact .inr ⟨i, rfl, h, fun g f => by rw [← (decode_family hd).1, Prod.mk.injEq]⟩

/-- The reservation after an ST (20_memory.md R60 (a)). -/
theorem step_store_res (hw : InFamily w 1 9) : if t.run = .trapped then t.res = s.res else ∃ i n sx r ea sp pa,
    decode w = .ok i ∧ MemAccess storeForms s1 i n sx r ea ∧ (translate s1 ea n .write).1 = .ok sp pa ∧
    RegionWritten s1 t sp pa n (s1.readGr r) ∧ s.res.AfterWrite t.res sp pa n := by
  rw [← fetch_res hf]
  rcases step_fetched_exec hr hf h with rfl | ⟨i, hd, hx, hfam⟩
  · exact State.raiseIllegal_res s1
  · obtain ⟨n, sx, r, ea, hm⟩ := memAccess_of_store s1 ((kindOf_store_iff i).2 ((hfam 1 9).1 hw))
    rcases exec_store_cases hm hx with ⟨ht, hres⟩ | ⟨sp, pa, u, htr, ht, hwr, hres⟩
    · rw [if_pos ht]
      exact hres
    · rw [if_neg (by rw [ht, fetch_run hf, hr]; decide)]
      exact ⟨i, n, sx, r, ea, sp, pa, hd, hm, congrArg Prod.fst htr, hwr, hres⟩

/-- The reservation after an LDR (20_memory.md R60 (c)). -/
theorem step_loadReserve_res (hw : InFamily w 1 10) :
    if t.run = .trapped then t.res = s.res else ∃ i n sx r ea sp pa,
      decode w = .ok i ∧ MemAccess loadReserveForms s1 i n sx r ea ∧ (translate s1 ea n .read).1 = .ok sp pa ∧
      t.res = { valid := true, space := sp, pa := pa, len := n, value := extended (regionValue s1 sp pa n) n sx } := by
  rw [← fetch_res hf]
  rcases step_fetched_exec hr hf h with rfl | ⟨i, hd, hx, hfam⟩
  · exact State.raiseIllegal_res s1
  · obtain ⟨n, sx, r, ea, hm⟩ := memAccess_of_loadReserve s1 ((kindOf_loadReserve_iff i).2 ((hfam 1 10).1 hw))
    rcases exec_loadReserve_cases hm hx with ⟨ht, hres⟩ | ⟨sp, pa, u, htr, ht, hres⟩
    · rw [if_pos ht]
      exact hres
    · rw [if_neg (by rw [ht, fetch_run hf, hr]; decide)]
      exact ⟨i, n, sx, r, ea, sp, pa, hd, hm, congrArg Prod.fst htr, hres⟩

/-- The reservation after an STC (20_memory.md R60 (b)). -/
theorem step_storeConditional_res (hw : InFamily w 1 11) :
    t.res = if t.run = .trapped then s.res else { s.res with valid := false } := by
  rw [← fetch_res hf]
  rcases step_fetched_exec hr hf h with rfl | ⟨i, -, hx, hfam⟩
  · exact State.raiseIllegal_res s1
  · obtain ⟨n, sx, r, ea, hm⟩ :=
      memAccess_of_storeConditional s1 ((kindOf_storeConditional_iff i).2 ((hfam 1 11).1 hw))
    exact exec_storeConditional_res hm (by rw [fetch_run hf, hr]; decide) hx

/-- No other instruction changes the reservation (20_memory.md R60). -/
theorem step_other_res (hst : ¬ InFamily w 1 9) (hldr : ¬ InFamily w 1 10) (hstc : ¬ InFamily w 1 11) :
    t.res = s.res := by
  rw [← fetch_res hf]
  rcases step_fetched_exec hr hf h with rfl | ⟨i, -, hx, hfam⟩
  · exact State.raiseIllegal_res s1
  · rw [hfam, ← kindOf_store_iff] at hst
    rw [hfam, ← kindOf_loadReserve_iff] at hldr
    rw [hfam, ← kindOf_storeConditional_iff] at hstc
    exact (exec_cases hx).res_eq hst hldr hstc

end FetchedStep

/-- Settles O22: the region write and the host's writes by their rule, a step by the family of its word, and every other
operation by its frame. -/
theorem reservationChangesOnlyAsStated : Obligations.ReservationChangesOnlyAsStated := by
  refine ⟨fun s sp pa n v => Reservation.afterWrite_spec s.res sp pa n, fun s t pa v n h => ?_,
    fun s t pa bytes hp h => hostLoadImage_res hp h, fun s s1 t w hr hf h => ?_,
    fun s s1 t c hr hf h => ?_, fun s => rfl, fun s t => hostResume_res, fun s t => hostHalt_res, fun s v => rfl,
    fun s i v t => hostSetGeneralReg_res, fun s n v t => hostSetControlReg_res,
    fun s pa n v t => hostReadMem_res, fun s va => rfl, fun s va pa aid pid t => tlbInsert_res⟩
  · obtain ⟨-, -, rfl⟩ := hostWriteMem_cases h
    exact hostWrite_res s pa n v
  · exact ⟨step_store_res hr hf h, step_storeConditional_res hr hf h, step_loadReserve_res hr hf h,
      step_other_res hr hf h⟩
  · rw [step_of_fetchTrap hr hf] at h
    cases h
    exact (fetch_error hf).1.res

end Sys2Proof.Machine
end

section
/-!
PROOFS. The statements of 30_encoding.md about words: the fields of a word, decode and encode, the ignored bits, and the
rows of the opcode table. Three facts carry them: what the decoder makes of an encoded word, of a word with the fixed
bits of a row, and what the word of a decoded instruction is.
-/

namespace Sys2Proof.Machine

/-! ### The fields (30_encoding.md R66) -/

/-- Settles O6: each field is a bit range, and a signed one is read by its top bit. -/
theorem decodedFieldsAreTheNamedBitRanges : Obligations.DecodedFieldsAreTheNamedBitRanges := by
  intro w
  have hsigned : ∀ k, 0 < k → (w.extractLsb' 0 k).toInt = signedField (wordBits w 0 k) k := fun k hk => by
    rw [toInt_eq_signedField hk, wordBits_eq]
  simp only [wordBits_eq] at hsigned ⊢
  exact ⟨rfl, rfl, rfl, rfl, rfl, rfl, rfl, rfl, rfl, rfl, rfl, rfl, rfl, rfl, rfl, rfl,
    hsigned 13 (by decide), hsigned 15 (by decide), hsigned 19 (by decide)⟩

/-! ### Decode of encode (30_encoding.md R66, R70) -/

/-- LDI of a position (30_encoding.md R71): what the decoder makes of family IMMOP. -/
def loadImmediateAt (p : BitVec 2) (r : Reg) (imm : BitVec 20) : Instr :=
  match p with
  | 0#2 => .ldiL r imm
  | 1#2 => .ldiM r imm
  | 2#2 => .ldiU r imm
  | 3#2 => .ldiT r imm

theorem dispatchImmop_eq (d : Fields) :
    dispatchImmop d = .ok (loadImmediateAt (d.q.extractLsb' 1 2) d.r.toFin d.imm20) := by
  unfold dispatchImmop
  split <;> rename_i hp <;> rw [hp] <;> rfl

theorem decode_immop {w : InstrWord} {p : BitVec 2} (hg : (fieldsOf w).g = 0) (hf : (fieldsOf w).f = 9)
    (hp : (fieldsOf w).q.extractLsb' 1 2 = p) :
    decode w = .ok (loadImmediateAt p (fieldsOf w).r.toFin (fieldsOf w).imm20) :=
  calc decode w = dispatchFields { fieldsOf w with g := 0, f := 9 } := by rw [decode, ← hg, ← hf]
    _ = dispatchImmop (fieldsOf w) := rfl
    _ = .ok (loadImmediateAt p (fieldsOf w).r.toFin (fieldsOf w).imm20) := by rw [dispatchImmop_eq, hp]

theorem decode_encodeImm20 (p : BitVec 2) (r : Reg) (imm : BitVec 20) :
    decode (encodeImm20 p r imm) = .ok (loadImmediateAt p r imm) := by
  have h := fieldsOf_encodeImm20 r p imm
  rw [decode_immop (w := encodeImm20 p r imm) (p := p) (by rw [h]) (by rw [h])
    (by rw [h]; exact (low_imm20 p imm).1), h]
  rfl

/-- Settles O1, format by format: the fields of an encoded word are the operands, and the decoder dispatches them. -/
theorem decodeOfEncodeGivesTheInstruction : Obligations.DecodeOfEncodeGivesTheInstruction := by
  intro i
  cases i
  case extru | extrs | dep | extruShamt | extrsShamt | depShamt =>
    exact congrArg dispatchFields (fieldsOf_encodeBitField ..)
  case shlI | shrI | shraI | shlShamt | shrShamt | shraShamt =>
    exact congrArg dispatchFields (fieldsOf_encodeShift ..)
  case ldiL | ldiM | ldiU | ldiT => exact decode_encodeImm20 ..
  case ldo | cbrEq | cbrNe | cbrLt | cbrLe | cbrGt | cbrGe | cbrLtu | cbrGeu =>
    exact congrArg dispatchFields (fieldsOf_encodeImm15 ..)
  case b | trap => exact congrArg dispatchFields (fieldsOf_encodeImm19 ..)
  case bbF | bbT | bbFShamt | bbTShamt => exact congrArg dispatchFields (fieldsOf_encodeBranchBit ..)
  case rsm | ssm => exact congrArg dispatchFields (fieldsOf_encodeMask ..)
  case nop | br | mbr | mfcr | mtcr | lpa | prbR | prbW | prbX | tlbPrg | ca | rfi | halt =>
    exact congrArg dispatchFields (fieldsOf_encodeRB ..)
  case addI | subI | andI | orI | xorI | cmpEqI | cmpNeI | cmpLtI | cmpLeI | cmpGtI | cmpGeI | cmpLtuI | cmpGeuI
      | ldBO | ldBSO | ldHO | ldHSO | ldWO | ldWSO | ldDO | ldDSO | stBO | stHO | stWO | stDO
      | ldrBO | ldrBSO | ldrHO | ldrHSO | ldrWO | ldrWSO | ldrDO | ldrDSO | stcBO | stcHO | stcWO | stcDO =>
    exact congrArg dispatchFields (fieldsOf_encodeImm13 ..)
  case addR | subR | andR | orR | xorR | cmpEqR | cmpNeR | cmpLtR | cmpLeR | cmpGtR | cmpGeR | cmpLtuR | cmpGeuR
      | shlR | shrR | shraR | bv | tlbIns
      | ldBX | ldBSX | ldHX | ldHSX | ldWX | ldWSX | ldDX | ldDSX | stBX | stHX | stWX | stDX
      | ldrBX | ldrBSX | ldrHX | ldrHSX | ldrWX | ldrWSX | ldrDX | ldrDSX | stcBX | stcHX | stcWX | stcDX =>
    exact congrArg dispatchFields (fieldsOf_encodeRegs ..)

/-! ### The word of a decoded instruction (30_encoding.md R70, R77) -/

/-- `w` is the word of `i` but for the bits that `i` ignores. -/
def IsWordOf (i : Instr) (w : InstrWord) : Prop :=
  encode i = w &&& ~~~ignoredBits i

theorem bit_cases : ∀ x : BitVec 1, x = 0 ∨ x = 1 := by decide

/-! Format by format: the word that a word's own fields make up, the ignored bits cleared. -/

section OfFields
variable {w : InstrWord} {g : BitVec 2} {f : BitVec 4} {q : BitVec 3}

/-- Each form of a family that has two is the one its form bit selects. -/
theorem isWordOf_ite {c : Bool} {i j : Instr} (hi : c = true → IsWordOf i w) (hj : c = false → IsWordOf j w) :
    IsWordOf (if c then i else j) w := by
  cases c with
  | true => exact hi rfl
  | false => exact hj rfl

theorem encodeRegs_of_fields {x : BitVec 1} (hg : (fieldsOf w).g = g) (hf : (fieldsOf w).f = f)
    (hq : (fieldsOf w).q = q) (hx : (fieldsOf w).x = x.getLsbD 0) :
    encodeRegs g f q x (fieldsOf w).r.toFin (fieldsOf w).b.toFin (fieldsOf w).a.toFin = w &&& ~~~0x000021FF#32 := by
  refine packWord_of_fields hg hf _ _ _ _ (by decide) (keep_bits _) (hq ▸ keep_bits _) ?_
  obtain rfl | rfl := bit_cases x
  · exact tail_regs_false w hx
  · exact tail_regs_true w hx

theorem encodeRegs_of_shiftFields (hg : (fieldsOf w).g = g) (hf : (fieldsOf w).f = f) (hq : (fieldsOf w).q = q)
    (hs : (fieldsOf w).s = false) (hx : (fieldsOf w).x = false) :
    encodeRegs g f q 0 (fieldsOf w).r.toFin (fieldsOf w).b.toFin (fieldsOf w).a.toFin = w &&& ~~~0x000001FF#32 :=
  packWord_of_fields hg hf _ _ _ _ (by decide) (keep_bits _) (hq ▸ keep_bits _) (tail_shiftRegs w hx hs)

theorem encodeRegs_of_plainFields (hg : (fieldsOf w).g = g) (hf : (fieldsOf w).f = f) (hq : (fieldsOf w).q = q) :
    encodeRegs g f q 0 (fieldsOf w).r.toFin (fieldsOf w).b.toFin (fieldsOf w).a.toFin = w &&& ~~~0x000061FF#32 :=
  packWord_of_fields hg hf _ _ _ _ (by decide) (keep_bits _) (hq ▸ keep_bits _) (tail_regs w)

theorem encodeImm13_of_fields {x : BitVec 1} (hg : (fieldsOf w).g = g) (hf : (fieldsOf w).f = f)
    (hq : (fieldsOf w).q = q) (hx : (fieldsOf w).x = x.getLsbD 0) :
    encodeImm13 g f q x (fieldsOf w).r.toFin (fieldsOf w).b.toFin (fieldsOf w).imm13 = w &&& ~~~0x00002000#32 := by
  refine packWord_of_fields hg hf _ _ _ _ (by decide) (keep_bits _) (hq ▸ keep_bits _) ?_
  obtain rfl | rfl := bit_cases x
  · exact tail_imm13_false w hx
  · exact tail_imm13_true w hx

theorem encodeBitField_of_fields (hg : (fieldsOf w).g = 0) (hf : (fieldsOf w).f = 7) (hq : (fieldsOf w).q = q)
    (hs : (fieldsOf w).s = false) : encodeBitField q 0 (fieldsOf w).r.toFin (fieldsOf w).b.toFin (fieldsOf w).pos6
      (fieldsOf w).len6 = w &&& ~~~0x00004040#32 :=
  packWord_of_fields hg hf _ _ _ _ (by decide) (keep_bits _) (hq ▸ keep_bits _) (tail_bitField w hs)

theorem encodeBitField_of_shamtFields (hg : (fieldsOf w).g = 0) (hf : (fieldsOf w).f = 7) (hq : (fieldsOf w).q = q)
    (hs : (fieldsOf w).s = true) : encodeBitField q 1 (fieldsOf w).r.toFin (fieldsOf w).b.toFin 0 (fieldsOf w).len6 =
      w &&& ~~~0x00005FC0#32 :=
  packWord_of_fields hg hf _ _ _ _ (by decide) (keep_bits _) (hq ▸ keep_bits _) (tail_bitFieldShamt w hs)

theorem encodeShift_of_fields (hg : (fieldsOf w).g = 0) (hf : (fieldsOf w).f = 8) (hq : (fieldsOf w).q = q)
    (hs : (fieldsOf w).s = false) (hx : (fieldsOf w).x = true) :
    encodeShift q 1 0 (fieldsOf w).r.toFin (fieldsOf w).b.toFin (fieldsOf w).sa6 = w &&& ~~~0x00001FC0#32 :=
  packWord_of_fields hg hf _ _ _ _ (by decide) (keep_bits _) (hq ▸ keep_bits _) (tail_shiftImm w hx hs)

theorem encodeShift_of_shamtFields (hg : (fieldsOf w).g = 0) (hf : (fieldsOf w).f = 8) (hq : (fieldsOf w).q = q)
    (hs : (fieldsOf w).s = true) :
    encodeShift q 0 1 (fieldsOf w).r.toFin (fieldsOf w).b.toFin 0 = w &&& ~~~0x00005FFF#32 :=
  packWord_of_fields hg hf _ _ _ _ (by decide) (keep_bits _) (hq ▸ keep_bits _) (tail_shiftShamt w hs)

theorem encodeImm20_of_fields {p : BitVec 2} (hg : (fieldsOf w).g = 0) (hf : (fieldsOf w).f = 9)
    (hp : (fieldsOf w).q.extractLsb' 1 2 = p) :
    encodeImm20 p (fieldsOf w).r.toFin (fieldsOf w).imm20 = w &&& ~~~0x00000000#32 := by
  subst hp
  refine packWord_of_fields hg hf _ _ _ _ (by decide) (keep_bits _) (Eq.trans ?_ (keep_bits _))
    (Eq.trans ?_ (keep_bits _)) <;>
  · apply BitVec.eq_of_getLsbD_eq
    intro i hi
    interval_cases i <;> simp only [fieldsOf, BitVec.getLsbD_extractLsb', BitVec.getLsbD_append] <;> rfl

theorem encodeImm15_of_fields (hg : (fieldsOf w).g = g) (hf : (fieldsOf w).f = f) (hq : (fieldsOf w).q = q) :
    encodeImm15 g f q (fieldsOf w).r.toFin (fieldsOf w).b.toFin (fieldsOf w).imm15 = w &&& ~~~0x00000000#32 :=
  packWord_of_fields hg hf _ _ _ _ (by decide) (keep_bits _) (hq ▸ keep_bits _) (tail_imm15 w)

theorem encodeImm19_of_fields (hg : (fieldsOf w).g = g) (hf : (fieldsOf w).f = f) (hq : (fieldsOf w).q = q) :
    encodeImm19 g f q (fieldsOf w).r.toFin (fieldsOf w).imm19 = w &&& ~~~0x00000000#32 :=
  packWord_of_fields hg hf _ _ _ _ (by decide) (keep_bits _) (hq ▸ keep_bits _) (keep_bits _)

theorem encodeImm19_of_codeFields (hg : (fieldsOf w).g = g) (hf : (fieldsOf w).f = f) (hq : (fieldsOf w).q = q) :
    encodeImm19 g f q 0 (fieldsOf w).imm19 = w &&& ~~~0x03C00000#32 :=
  packWord_of_fields hg hf _ _ _ _ (by decide) (clear_bits _ _ rfl) (hq ▸ keep_bits _) (keep_bits _)

theorem encodeBranchBit_of_fields (hg : (fieldsOf w).g = 2) (hf : (fieldsOf w).f = 4) (hq : (fieldsOf w).q = q) :
    encodeBranchBit q (fieldsOf w).r.toFin (fieldsOf w).bpos6 (fieldsOf w).imm13 = w &&& ~~~0x00000000#32 :=
  packWord_of_fields hg hf _ _ _ _ (by decide) (keep_bits _) (hq ▸ keep_bits _) (tail_branchBit w)

theorem encodeBranchBit_of_shamtFields (hg : (fieldsOf w).g = 2) (hf : (fieldsOf w).f = 4)
    (hq : (fieldsOf w).q = q) :
    encodeBranchBit q (fieldsOf w).r.toFin 0 (fieldsOf w).imm13 = w &&& ~~~0x0007E000#32 :=
  packWord_of_fields hg hf _ _ _ _ (by decide) (keep_bits _) (hq ▸ keep_bits _) (tail_branchBitShamt w)

theorem encodeMask_of_fields (hg : (fieldsOf w).g = 3) (hf : (fieldsOf w).f = 6) (hq : (fieldsOf w).q = q) :
    encodeMask q (fieldsOf w).r.toFin (fieldsOf w).imm13 = w &&& ~~~0x0007E000#32 :=
  packWord_of_fields hg hf _ _ _ _ (by decide) (keep_bits _) (hq ▸ keep_bits _) (tail_branchBitShamt w)

theorem encodeRB_of_fields (hg : (fieldsOf w).g = g) (hf : (fieldsOf w).f = f) (hq : (fieldsOf w).q = q) :
    encodeRB g f q (fieldsOf w).r.toFin (fieldsOf w).b.toFin = w &&& ~~~0x00007FFF#32 :=
  packWord_of_fields hg hf _ _ _ _ (by decide) (keep_bits _) (hq ▸ keep_bits _) (tail_regB w)

theorem encodeRB_of_baseFields (hg : (fieldsOf w).g = g) (hf : (fieldsOf w).f = f) (hq : (fieldsOf w).q = q) :
    encodeRB g f q 0 (fieldsOf w).b.toFin = w &&& ~~~0x03C07FFF#32 :=
  packWord_of_fields hg hf _ _ _ _ (by decide) (clear_bits _ _ rfl) (hq ▸ keep_bits _) (tail_regB w)

theorem encodeRB_of_qualifier (hg : (fieldsOf w).g = g) (hf : (fieldsOf w).f = f) (hq : (fieldsOf w).q = q) :
    encodeRB g f q 0 0 = w &&& ~~~0x03C7FFFF#32 :=
  packWord_of_fields hg hf _ _ _ _ (by decide) (clear_bits _ _ rfl) (hq ▸ keep_bits _) (clear_bits _ _ rfl)

theorem encodeRB_of_family (hg : (fieldsOf w).g = g) (hf : (fieldsOf w).f = f) :
    encodeRB g f 0 0 0 = w &&& ~~~0x03FFFFFF#32 :=
  packWord_of_fields hg hf _ _ _ _ (by decide) (clear_bits _ _ rfl) (clear_bits _ _ rfl) (clear_bits _ _ rfl)

end OfFields

/-! Group by group: what the dispatch of the fields answers. -/

section OfDispatch
variable {w : InstrWord} {i : Instr}

theorem isWordOf_of_dispatchAluGroup (hg : (fieldsOf w).g = 0) (h : dispatchAluGroup (fieldsOf w) = .ok i) :
    IsWordOf i w := by
  unfold dispatchAluGroup at h
  split at h <;> rename_i hf
  case h_1 =>
    cases h
    exact encodeRB_of_family hg hf
  case h_2 | h_3 | h_4 | h_5 | h_6 | h_7 =>
    simp only [dispatchAdd, dispatchSub, dispatchAnd, dispatchOr, dispatchXor, dispatchCmp] at h
    split at h <;> rename_i hq <;> cases h
    all_goals exact isWordOf_ite (encodeImm13_of_fields (x := 1) hg hf hq) (encodeRegs_of_fields (x := 0) hg hf hq)
  case h_8 =>
    unfold dispatchBitop at h
    split at h <;> rename_i hq <;> cases h
    all_goals exact isWordOf_ite (encodeBitField_of_shamtFields hg hf hq) (encodeBitField_of_fields hg hf hq)
  case h_9 =>
    unfold dispatchShaop at h
    split at h <;> rename_i hq <;> cases h
    all_goals
      refine isWordOf_ite (encodeShift_of_shamtFields hg hf hq) fun hs => ?_
      exact isWordOf_ite (encodeShift_of_fields hg hf hq hs) (encodeRegs_of_shiftFields hg hf hq hs)
  case h_10 =>
    unfold dispatchImmop at h
    split at h <;> rename_i hp <;> cases h
    all_goals exact encodeImm20_of_fields hg hf hp
  case h_11 =>
    unfold dispatchLdo at h
    split at h <;> rename_i hq <;> cases h
    exact encodeImm15_of_fields hg hf hq
  case h_12 => cases h

theorem isWordOf_of_dispatchMemGroup (hg : (fieldsOf w).g = 1) (h : dispatchMemGroup (fieldsOf w) = .ok i) :
    IsWordOf i w := by
  unfold dispatchMemGroup at h
  split at h <;> rename_i hf
  case h_5 => cases h
  all_goals
    simp only [dispatchLd, dispatchSt, dispatchLdr, dispatchStc] at h
    split at h <;> rename_i hq <;> cases h
    all_goals exact isWordOf_ite (encodeRegs_of_fields (x := 1) hg hf hq) (encodeImm13_of_fields (x := 0) hg hf hq)

theorem isWordOf_of_dispatchBrGroup (hg : (fieldsOf w).g = 2) (h : dispatchBrGroup (fieldsOf w) = .ok i) :
    IsWordOf i w := by
  unfold dispatchBrGroup at h
  split at h <;> rename_i hf
  case h_1 =>
    unfold dispatchB at h
    split at h <;> rename_i hq <;> cases h
    exact encodeImm19_of_fields hg hf hq
  case h_2 =>
    unfold dispatchBr at h
    split at h <;> rename_i hq <;> cases h
    exact encodeRB_of_fields hg hf hq
  case h_3 =>
    unfold dispatchBv at h
    split at h <;> rename_i hq <;> cases h
    exact encodeRegs_of_plainFields hg hf hq
  case h_4 =>
    unfold dispatchBb at h
    split at h <;> rename_i hq <;> cases h
    · exact encodeBranchBit_of_fields hg hf hq
    · exact encodeBranchBit_of_fields hg hf hq
    · exact encodeBranchBit_of_shamtFields hg hf hq
    · exact encodeBranchBit_of_shamtFields hg hf hq
  case h_5 =>
    unfold dispatchCbr at h
    split at h <;> rename_i hq <;> cases h
    all_goals exact encodeImm15_of_fields hg hf hq
  case h_6 =>
    unfold dispatchMbr at h
    split at h <;> rename_i hq <;> cases h
    exact encodeRB_of_baseFields hg hf hq
  case h_7 => cases h

theorem isWordOf_of_dispatchSysGroup (hg : (fieldsOf w).g = 3) (h : dispatchSysGroup (fieldsOf w) = .ok i) :
    IsWordOf i w := by
  unfold dispatchSysGroup at h
  split at h <;> rename_i hf
  case h_1 | h_2 | h_3 =>
    simp only [dispatchMr, dispatchLpa, dispatchPrb] at h
    split at h <;> rename_i hq <;> cases h
    all_goals exact encodeRB_of_fields hg hf hq
  case h_4 =>
    unfold dispatchTlb at h
    split at h <;> rename_i hq <;> cases h
    · exact encodeRegs_of_plainFields hg hf hq
    · exact encodeRB_of_baseFields hg hf hq
  case h_5 =>
    cases h
    exact encodeRB_of_family hg hf
  case h_6 =>
    unfold dispatchMst at h
    split at h <;> rename_i hq <;> cases h
    all_goals exact encodeMask_of_fields hg hf hq
  case h_7 =>
    unfold dispatchRfi at h
    split at h <;> rename_i hq <;> cases h
    exact encodeRB_of_baseFields hg hf hq
  case h_8 =>
    unfold dispatchTrap at h
    split at h <;> rename_i hq <;> cases h
    exact encodeImm19_of_codeFields hg hf hq
  case h_9 =>
    unfold dispatchDiag at h
    split at h <;> rename_i hq <;> cases h
    exact encodeRB_of_qualifier hg hf hq
  case h_10 => cases h

end OfDispatch

/-- Settles O2, group by group: the operands of a decoded instruction are the fields of its word. -/
theorem encodeOfDecodeClearsTheIgnoredBits : Obligations.EncodeOfDecodeClearsTheIgnoredBits := by
  intro w i h
  unfold decode dispatchFields at h
  split at h <;> rename_i hg
  · exact isWordOf_of_dispatchAluGroup hg h
  · exact isWordOf_of_dispatchMemGroup hg h
  · exact isWordOf_of_dispatchBrGroup hg h
  · exact isWordOf_of_dispatchSysGroup hg h

/-! ### The rows of the opcode table (30_encoding.md R71 to R74) -/

section SameFixedBits
variable {w e m : InstrWord}

/-- Words that agree under a mask agree in a field that the mask covers. -/
theorem extract_of_and_eq (h : w &&& m = e &&& m) {lo len : Nat} (hm : m.extractLsb' lo len = BitVec.allOnes len) :
    w.extractLsb' lo len = e.extractLsb' lo len := by
  simpa only [BitVec.extractLsb'_and, hm, BitVec.and_allOnes] using congrArg (BitVec.extractLsb' lo len) h

theorem bit_of_and_eq (h : w &&& m = e &&& m) {k : Nat} (hm : m.getLsbD k = true) : w.getLsbD k = e.getLsbD k := by
  simpa only [BitVec.getLsbD_and, hm, Bool.and_true] using congrArg (BitVec.getLsbD · k) h

/-- A decoded record with the fields that a mask covers taken from another one. -/
def fixedFields (m : InstrWord) (d d' : Fields) : Fields :=
  { d' with
    g := d.g
    f := d.f
    q := if m.extractLsb' 19 3 = BitVec.allOnes 3 then d.q else d'.q
    x := if m.getLsbD 14 then d.x else d'.x
    s := if m.getLsbD 13 then d.s else d'.s }

/-- A word is decoded with the fields that it shares with another one under a mask. -/
theorem decode_of_and_eq {d : Fields} (he : fieldsOf e = d) (h : w &&& m = e &&& m)
    (hg : m.extractLsb' 30 2 = BitVec.allOnes 2) (hf : m.extractLsb' 26 4 = BitVec.allOnes 4) :
    decode w = dispatchFields (fixedFields m d (fieldsOf w)) := by
  subst he
  have hq : (if m.extractLsb' 19 3 = BitVec.allOnes 3 then (fieldsOf e).q else (fieldsOf w).q) = (fieldsOf w).q :=
    ite_eq_right_iff.2 fun hm => (extract_of_and_eq h hm).symm
  have hx : (if m.getLsbD 14 then (fieldsOf e).x else (fieldsOf w).x) = (fieldsOf w).x :=
    ite_eq_right_iff.2 fun hm => (bit_of_and_eq h hm).symm
  have hs : (if m.getLsbD 13 then (fieldsOf e).s else (fieldsOf w).s) = (fieldsOf w).s :=
    ite_eq_right_iff.2 fun hm => (bit_of_and_eq h hm).symm
  have hg' : (fieldsOf e).g = (fieldsOf w).g := (extract_of_and_eq h hg).symm
  have hf' : (fieldsOf e).f = (fieldsOf w).f := (extract_of_and_eq h hf).symm
  rw [fixedFields, hq, hx, hs, hg', hf', decode]

end SameFixedBits

theorem decode_immop_of_and_eq {w : InstrWord} {p : BitVec 2} {r : Reg} {imm : BitVec 20}
    (h : w &&& 0xFC300000#32 = encodeImm20 p r imm &&& 0xFC300000#32) :
    decode w = .ok (loadImmediateAt p (fieldsOf w).r.toFin (fieldsOf w).imm20) := by
  have he := fieldsOf_encodeImm20 r p imm
  refine decode_immop ?_ ?_ ?_
  · exact (extract_of_and_eq h (lo := 30) rfl).trans (congrArg Fields.g he)
  · exact (extract_of_and_eq h (lo := 26) rfl).trans (congrArg Fields.f he)
  · have hq : ∀ v : InstrWord, (fieldsOf v).q.extractLsb' 1 2 = v.extractLsb' 20 2 := fun v => by
      apply BitVec.eq_of_getLsbD_eq
      intro i hi
      interval_cases i <;> simp [fieldsOf]
    rw [hq, extract_of_and_eq h (lo := 20) rfl, ← hq, he]
    exact (low_imm20 p imm).1

/-- The row of an instruction in the opcode table: its own word has the row's fixed bits, and every word that has them
decodes in the same row and ignores the same bits. -/
structure HasRow (i : Instr) : Prop where
  encoded : encode i &&& (opcodeRow i).1 = (opcodeRow i).2
  decoded : ∀ w : InstrWord, w &&& (opcodeRow i).1 = encode i &&& (opcodeRow i).1 →
    ∃ j, decode w = .ok j ∧ opcodeRow j = opcodeRow i ∧ ignoredBits j = ignoredBits i

open Laws in
/-- Format by format: the mask covers the fields the decoder dispatches on, so they are those of the encoded word. -/
theorem hasRow (i : Instr) : HasRow i := by
  cases i
  case nop | ca =>
    exact ⟨encodeRB_and_fc000 ..,
      fun w h => ⟨_, decode_of_and_eq (m := 0xFC000000#32) (fieldsOf_encodeRB ..) h rfl rfl, rfl, rfl⟩⟩
  case extru | extrs | dep | extruShamt | extrsShamt | depShamt =>
    exact ⟨encodeBitField_and ..,
      fun w h => ⟨_, decode_of_and_eq (m := 0xFC382000#32) (fieldsOf_encodeBitField ..) h rfl rfl, rfl, rfl⟩⟩
  case shlI | shrI | shraI =>
    exact ⟨encodeShift_and_fc386 ..,
      fun w h => ⟨_, decode_of_and_eq (m := 0xFC386000#32) (fieldsOf_encodeShift ..) h rfl rfl, rfl, rfl⟩⟩
  case shlShamt | shrShamt | shraShamt =>
    exact ⟨encodeShift_and_fc382 ..,
      fun w h => ⟨_, decode_of_and_eq (m := 0xFC382000#32) (fieldsOf_encodeShift ..) h rfl rfl, rfl, rfl⟩⟩
  case shlR | shrR | shraR =>
    exact ⟨encodeRegs_and_fc386 ..,
      fun w h => ⟨_, decode_of_and_eq (m := 0xFC386000#32) (fieldsOf_encodeRegs ..) h rfl rfl, rfl, rfl⟩⟩
  case bv | tlbIns =>
    exact ⟨encodeRegs_and_fc380 ..,
      fun w h => ⟨_, decode_of_and_eq (m := 0xFC380000#32) (fieldsOf_encodeRegs ..) h rfl rfl, rfl, rfl⟩⟩
  case ldiL | ldiM | ldiU | ldiT =>
    exact ⟨encodeImm20_and .., fun w h => ⟨_, decode_immop_of_and_eq h, rfl, rfl⟩⟩
  case ldo | cbrEq | cbrNe | cbrLt | cbrLe | cbrGt | cbrGe | cbrLtu | cbrGeu =>
    exact ⟨encodeImm15_and ..,
      fun w h => ⟨_, decode_of_and_eq (m := 0xFC380000#32) (fieldsOf_encodeImm15 ..) h rfl rfl, rfl, rfl⟩⟩
  case b | trap =>
    exact ⟨encodeImm19_and ..,
      fun w h => ⟨_, decode_of_and_eq (m := 0xFC380000#32) (fieldsOf_encodeImm19 ..) h rfl rfl, rfl, rfl⟩⟩
  case bbF | bbT | bbFShamt | bbTShamt =>
    exact ⟨encodeBranchBit_and ..,
      fun w h => ⟨_, decode_of_and_eq (m := 0xFC380000#32) (fieldsOf_encodeBranchBit ..) h rfl rfl, rfl, rfl⟩⟩
  case rsm | ssm =>
    exact ⟨encodeMask_and ..,
      fun w h => ⟨_, decode_of_and_eq (m := 0xFC380000#32) (fieldsOf_encodeMask ..) h rfl rfl, rfl, rfl⟩⟩
  case br | mbr | mfcr | mtcr | lpa | prbR | prbW | prbX | tlbPrg | rfi | halt =>
    exact ⟨encodeRB_and_fc380 ..,
      fun w h => ⟨_, decode_of_and_eq (m := 0xFC380000#32) (fieldsOf_encodeRB ..) h rfl rfl, rfl, rfl⟩⟩
  case addI | subI | andI | orI | xorI | cmpEqI | cmpNeI | cmpLtI | cmpLeI | cmpGtI | cmpGeI | cmpLtuI | cmpGeuI
      | ldBO | ldBSO | ldHO | ldHSO | ldWO | ldWSO | ldDO | ldDSO | stBO | stHO | stWO | stDO
      | ldrBO | ldrBSO | ldrHO | ldrHSO | ldrWO | ldrWSO | ldrDO | ldrDSO | stcBO | stcHO | stcWO | stcDO =>
    exact ⟨encodeImm13_and ..,
      fun w h => ⟨_, decode_of_and_eq (m := 0xFC384000#32) (fieldsOf_encodeImm13 ..) h rfl rfl, rfl, rfl⟩⟩
  all_goals
    exact ⟨encodeRegs_and_fc384 ..,
      fun w h => ⟨_, decode_of_and_eq (m := 0xFC384000#32) (fieldsOf_encodeRegs ..) h rfl rfl, rfl, rfl⟩⟩

/-- No instruction ignores a fixed bit of its row (30_encoding.md R77). -/
theorem fixedBits_and_ignoredBits (i : Instr) : (opcodeRow i).1 &&& ignoredBits i = 0 := by
  cases i <;> simp only [opcodeRow, ignoredBits, BitVec.reduceAnd, BitVec.ofNat_eq_ofNat]

/-- Bits outside a mask can be cleared before the mask is applied. -/
theorem and_not_and_of_disjoint {n : Nat} {m c : BitVec n} (h : m &&& c = 0#n) (w : BitVec n) :
    w &&& ~~~c &&& m = w &&& m := by
  have hbit : ∀ x y z : Bool, (y && z) = false → (x && !z && y) = (x && y) := by decide
  apply BitVec.eq_of_getLsbD_eq
  intro i hi
  simp only [BitVec.getLsbD_and, BitVec.getLsbD_not, hi, decide_true, Bool.true_and]
  exact hbit _ _ _ (by rw [← BitVec.getLsbD_and, h, BitVec.getLsbD_zero])

/-- Words whose difference a mask does not show are one under the mask. -/
theorem and_eq_and_of_xor_and {n : Nat} {w w' m : BitVec n} (h : (w ^^^ w') &&& m = 0#n) : w &&& m = w' &&& m := by
  have hbit : ∀ x y z : Bool, ((x ^^ y) && z) = false → (x && z) = (y && z) := by decide
  apply BitVec.eq_of_getLsbD_eq
  intro i _
  simp only [BitVec.getLsbD_and]
  exact hbit _ _ _ (by rw [← BitVec.getLsbD_xor, ← BitVec.getLsbD_and, h, BitVec.getLsbD_zero])

/-- The word of a decoded instruction has the fixed bits of the instruction's row. -/
theorem fixedBits_of_decode {w : InstrWord} {i : Instr} (h : decode w = .ok i) :
    w &&& (opcodeRow i).1 = (opcodeRow i).2 := by
  rw [← and_not_and_of_disjoint (fixedBits_and_ignoredBits i), ← encodeOfDecodeClearsTheIgnoredBits w i h]
  exact (hasRow i).encoded

/-- Settles O5: a decoded word is its instruction's but for ignored bits, which no row fixes; the converse is the
decoder's dispatch on the fixed bits. -/
theorem wordsDecodeByTheFixedBitsOfTheirTableRow : Obligations.WordsDecodeByTheFixedBitsOfTheirTableRow := by
  refine ⟨fun w i h => fixedBits_of_decode h, fun w i h => ?_⟩
  obtain ⟨j, hd, hj, -⟩ := (hasRow i).decoded w (h.trans (hasRow i).encoded.symm)
  exact ⟨j, hd, hj⟩

/-- Settles O3: the other word has the same fixed bits, so it decodes in the same row; without the ignored bits the two
words are one, and it encodes both instructions. -/
theorem ignoredBitsDoNotMatter : Obligations.IgnoredBitsDoNotMatter := by
  intro w w' i h hdiff
  have heq : w &&& ~~~ignoredBits i = w' &&& ~~~ignoredBits i := and_eq_and_of_xor_and hdiff
  have hfixed : w' &&& (opcodeRow i).1 = encode i &&& (opcodeRow i).1 := by
    rw [encodeOfDecodeClearsTheIgnoredBits w i h, heq, and_not_and_of_disjoint (fixedBits_and_ignoredBits i)]
  obtain ⟨j, hd, -, hj⟩ := (hasRow i).decoded w' hfixed
  have hencode : encode j = encode i := by
    rw [encodeOfDecodeClearsTheIgnoredBits w i h, heq, ← hj, encodeOfDecodeClearsTheIgnoredBits w' j hd]
  calc decode w' = .ok j := hd
    _ = decode (encode j) := (decodeOfEncodeGivesTheInstruction j).symm
    _ = .ok i := by rw [hencode, decodeOfEncodeGivesTheInstruction i]

end Sys2Proof.Machine
end

section
/-!
PROOFS. The statements of 30_encoding.md about the cycle: the fetch, the illegal words, precise traps, the totality of
a step, and the constant that four load immediates build.
-/

namespace Sys2Proof.Machine

/-! ### The fetch (30_encoding.md R81) -/

theorem fetch_of_translate_ok {s u : State} {sp : Space} {pa : Word}
    (h : translate s (s.psw.ia.setWidth 64) 4 .execute = (.ok sp pa, u)) :
    fetch s = (.ok (BitVec.ofNat 32 (regionValue u sp pa 4)),
      { u with ir := BitVec.ofNat 32 (regionValue u sp pa 4), ioHistory := historyAfterRead u sp pa 4 }) := by
  rcases fetch_cases s with ⟨sp', pa', u', ht, hf⟩ | ⟨c, u', ht, hf⟩ <;> rw [h] at ht <;> cases ht
  exact hf

theorem fetch_of_translate_trap {s u : State} {c : TrapCode}
    (h : translate s (s.psw.ia.setWidth 64) 4 .execute = (.trap c, u)) : fetch s = (.error c, u) := by
  rcases fetch_cases s with ⟨sp, pa, u', ht, hf⟩ | ⟨c', u', ht, hf⟩ <;> rw [h] at ht <;> cases ht
  exact hf

/-- Settles O8: the word is the region's at the address `Translate` reaches, and a lookup changes no value that a region
reads. -/
theorem stepRunsTheInstructionFetchedAtIa : Obligations.StepRunsTheInstructionFetchedAtIa := by
  intro s sp pa i hr h hsays hd
  have ht := hsays.translate_eq h
  have hro := recencyOnly_of_translate ht
  rw [← hro.regionValue] at hd ⊢
  have hf := fetch_of_translate_ok ht
  rw [step_of_fetch hr hf, hd]
  simp only [historyAfterRead, hro.params, hro.ioHistory]

/-- Settles O9: the fetch trap is taken at the state after the lookup, whose PSW is the one before it. -/
theorem fetchTrapEndsTheCycleBeforeExecute : Obligations.FetchTrapEndsTheCycleBeforeExecute := by
  intro s c hr h hsays
  have ht := hsays.translate_eq h
  have hro := recencyOnly_of_translate ht
  rw [step_of_fetchTrap hr (fetch_of_translate_trap ht), State.raiseFetch, hro.psw]
  rfl

/-! ### Illegal words (30_encoding.md R75, R76) -/

/-- Every qualifier a family assigns is dispatched to an instruction (30_encoding.md R71 to R74). -/
theorem dispatchFields_of_assigned {g f q : Nat} (h : Assigned g f q) (hq : q < 8) (d : Fields) :
    ∃ i, dispatchFields { d with g := BitVec.ofNat 2 g, f := BitVec.ofNat 4 f, q := BitVec.ofNat 3 q } = .ok i := by
  rcases h with h | h | h | h | h | h | h | h | h | h | h | h
  · obtain ⟨rfl, rfl | rfl | rfl⟩ := h
    · exact ⟨_, rfl⟩
    · interval_cases q <;> exact ⟨_, rfl⟩
    · exact ⟨_, dispatchImmop_eq _⟩
  · obtain ⟨rfl, rfl | rfl | rfl | rfl | rfl | rfl, rfl⟩ := h <;> exact ⟨_, rfl⟩
  · obtain ⟨rfl, rfl | rfl, hle⟩ := h <;> interval_cases q <;> exact ⟨_, rfl⟩
  · obtain ⟨rfl, rfl | rfl⟩ := h <;> interval_cases q <;> exact ⟨_, rfl⟩
  · obtain ⟨rfl, hf, heven⟩ := h
    obtain rfl | rfl | rfl | rfl : q = 0 ∨ q = 2 ∨ q = 4 ∨ q = 6 := by omega
    all_goals obtain rfl | rfl := hf <;> exact ⟨_, rfl⟩
  · obtain ⟨rfl, rfl | rfl | rfl | rfl, rfl⟩ := h <;> exact ⟨_, rfl⟩
  · obtain ⟨rfl, rfl, hle⟩ := h
    interval_cases q <;> exact ⟨_, rfl⟩
  · obtain ⟨rfl, rfl⟩ := h
    interval_cases q <;> exact ⟨_, rfl⟩
  · obtain ⟨rfl, rfl | rfl | rfl, hle⟩ := h <;> interval_cases q <;> exact ⟨_, rfl⟩
  · obtain ⟨rfl, rfl | rfl | rfl | rfl, rfl⟩ := h <;> exact ⟨_, rfl⟩
  · obtain ⟨rfl, rfl, hle⟩ := h
    interval_cases q <;> exact ⟨_, rfl⟩
  · obtain ⟨rfl, rfl⟩ := h
    exact ⟨_, rfl⟩

/-- A word decodes exactly where its family assigns its qualifier (30_encoding.md R75, R76). -/
theorem decode_ok_iff_assigned (w : InstrWord) :
    (∃ i, decode w = .ok i) ↔ Assigned (wordBits w 30 2) (wordBits w 26 4) (qualifier w) := by
  refine ⟨fun ⟨i, h⟩ => decode_assigned h, fun h => ?_⟩
  rw [decode_of_fields ⟨rfl, rfl⟩ rfl]
  exact dispatchFields_of_assigned h (qualifier_lt w) _

/-- A decoded instruction is ill-formed exactly where its word names a reserved control register (43_sys.md R124). -/
theorem wellFormed_eq_false_iff {w : InstrWord} {i : Instr} (h : decode w = .ok i) :
    i.wellFormed = false ↔ NamesReservedCr w := by
  obtain ⟨hfam, -, hcr⟩ := decode_family h
  have hin : ∀ g f, InFamily w g f ↔ familyOf i = (g, f) := fun g f => by rw [← hfam, Prod.mk.injEq]
  have hval : (regAt w 15).val = wordBits w 15 4 := by rw [regAt_eq, wordBits_eq]; rfl
  rw [NamesReservedCr, hin, hin, ← hval, reservedCr_iff]
  cases hi : i.crSlot? with
  | none =>
    have hno : ¬ (familyOf i = (3, 1) ∨ familyOf i = (3, 7)) := fun hf => by
      obtain ⟨n, hn⟩ := crSlot_of_family i hf
      rw [hi] at hn
      cases hn
    simp [Instr.wellFormed, hi, hno]
  | some n => simp [Instr.wellFormed, hi, crSlot_family i n hi, ← hcr n hi]

/-- An ill-formed instruction takes IllegalInstruction before any other check (30_encoding.md R82; 43_sys.md R124). -/
theorem exec_of_illFormed {i : Instr} (h : i.wellFormed = false) (s : State) : exec i s = .next s.raiseIllegal := by
  cases i with
  | mfcr r n => simp only [exec, execMfcr, (readCr_none_iff s n).2 h]
  | mtcr n r => exact if_neg (Bool.eq_false_iff.1 h)
  | rfi n => simp only [exec, execRfi, (readCr_none_iff s n).2 h]
  | _ => cases h

/-- A trap is the only way an instruction leaves a state that is not TRAPPED for one that is (60_exceptions.md R140). -/
theorem ExecCase.trap_of_run {i : Instr} {s t : State} (hc : ExecCase i s t) (hs : s.run ≠ .trapped)
    (ht : t.run = .trapped) : ∃ u c info1 info2 info3, RecencyOnly s u ∧
      (c = .illegalInstruction → i.wellFormed = false) ∧ t = u.raise c info1 info2 info3 := by
  have hkeep : t.run = s.run → False := fun h => hs (h ▸ ht)
  cases hc with
  | trap u c info1 info2 info3 hu hc hi ht => exact ⟨u, c, info1, info2, info3, hu, hi, ht⟩
  | result u r v ia history hk hu hr ht => subst ht; exact absurd hu.run hkeep
  | store u sp pa ea v n hk hn hu ht => subst ht; exact absurd (recencyOnly_of_translate hu).run hkeep
  | loadReserve u sp pa ea v n r history hk hr hn hu ht =>
    subst ht; exact absurd (recencyOnly_of_translate hu).run hkeep
  | conditionalStored u sp pa ea v n r hk hr hn hu ht =>
    subst ht; exact absurd (recencyOnly_of_translate hu).run hkeep
  | conditionalFailed u r hk hr hu ht => subst ht; exact absurd hu.run hkeep
  | controlWrite n v hk hn ht => subst ht; exact absurd rfl hkeep
  | tlbInserted u va pa aid pid hk hp hu ht =>
    obtain ⟨tlb', rfl, -⟩ := tlbInsert_cases hu
    subst ht; exact absurd rfl hkeep
  | tlbPurged va hk hp ht => subst ht; exact absurd rfl hkeep
  | status p r v hk hr hp ht => subst ht; exact absurd rfl hkeep
  | restored v hk hp ht => subst ht; exact absurd rfl hkeep
  | halted hk hp ht => subst ht; cases ht

/-- Where a RUNNING core fetched a word and is TRAPPED after the step, the state is a trap's after the fetch and the
instruction's own lookup, and IllegalInstruction means a word that is not legal. -/
theorem step_trap_cases {s s1 t : State} {w : InstrWord} (hr : s.run = .running) (hf : fetch s = (.ok w, s1))
    (h : step s = .next t) (ht : t.run = .trapped) : ∃ u c info1 info2 info3, RecencyOnly s1 u ∧
      (c = .illegalInstruction → ¬ LegalWord w) ∧ t = u.raise c info1 info2 info3 := by
  rw [step_of_fetch hr hf] at h
  cases hd : decode w with
  | error e =>
    rw [hd] at h
    cases h
    refine ⟨s1, _, _, _, _, .refl s1, fun _ hl => ?_, rfl⟩
    obtain ⟨i, hi⟩ := (decode_ok_iff_assigned w).2 hl.1
    rw [hd] at hi
    cases hi
  | ok i =>
    rw [hd] at h
    have hrun : s1.run ≠ .trapped := by rw [fetch_run hf, hr]; decide
    obtain ⟨u, c, info1, info2, info3, hu, hi, rfl⟩ := (exec_cases h).trap_of_run hrun ht
    exact ⟨u, c, info1, info2, info3, hu, fun hc hl => hl.2 ((wellFormed_eq_false_iff hd).1 (hi hc)), rfl⟩

/-- A word that is not legal does not decode, or it is of an instruction that names a reserved control register. -/
theorem raisesIllegal_of_not_legal {w : InstrWord} (h : ¬ LegalWord w) : RaisesIllegal w := by
  cases hd : decode w with
  | error e => exact raisesIllegal_of_decode hd
  | ok i =>
    have hi : i.wellFormed = false :=
      (wellFormed_eq_false_iff hd).2 (by_contra fun hn => h ⟨decode_assigned hd, hn⟩)
    intro s s1 hr hf
    rw [step_of_fetch hr hf, hd]
    simp only [exec_of_illFormed hi, State.raiseIllegal, State.raise, State.trappedWith, fetch_ir hf, fetch_psw hf]

/-- Settles O4: an illegal word raises the trap, and only such a word does. -/
theorem illegalInstructionExactlyOnIllegalWords : Obligations.IllegalInstructionExactlyOnIllegalWords := by
  intro s s1 w hr hf
  refine ⟨fun hl => raisesIllegal_of_not_legal hl s s1 hr hf, fun hl t h ht hc => ?_⟩
  obtain ⟨u, c, info1, info2, info3, -, hi, rfl⟩ := step_trap_cases hr hf h ht
  exact hi hc hl

/-! ### Precise traps (30_encoding.md R83; 60_exceptions.md R138, R140, R142) -/

/-- Settles O16: a trap of the fetch or after it writes the record and the run state only, and the fetch and a lookup
change IR, the device's history and recency only. -/
theorem trapsArePrecise : Obligations.TrapsArePrecise := by
  intro s t hr h ht
  rcases hf : fetch s with ⟨x, s1⟩
  cases x with
  | error c =>
    have hu := (fetch_error hf).1
    rw [step_of_fetchTrap hr hf] at h
    cases h
    exact ⟨hu.readGr, hu.cr, hu.psw, fun a => congrArg (·.read a) hu.mem, hu.res, hu.params,
      hu.tlb.trans (.of_eq rfl rfl), rfl, fun w hw => (nomatch hw), fun c' _ => hu.ir⟩
  | ok w =>
    obtain ⟨u, c, info1, info2, info3, hu, -, rfl⟩ := step_trap_cases hr hf h ht
    refine ⟨fun j => (hu.readGr j).trans (fetch_readGr hf j), hu.cr.trans (fetch_cr hf), hu.psw.trans (fetch_psw hf),
      fun a => congrArg (·.read a) (hu.mem.trans (fetch_mem hf)), hu.res.trans (fetch_res hf),
      hu.params.trans (fetch_params hf), ((fetch_recency hf).trans hu.tlb).trans (.of_eq rfl rfl), hu.ioHistory,
      fun w' hw => ?_, fun c' hc => (nomatch hc)⟩
    cases hw
    exact hu.ir.trans (fetch_ir hf)

/-! ### Every step answers (30_encoding.md R82; 70_reset_and_hazards.md R159) -/

/-- Settles O15: a trap is a next state, and with a TLB entry every instruction answers one. -/
theorem everyStepAnswersANextState : Obligations.EveryStepAnswersANextState := by
  intro s hs
  by_cases hr : s.run = .running
  · rcases hf : fetch s with ⟨x, s1⟩
    cases x with
    | error c => exact ⟨_, step_of_fetchTrap hr hf⟩
    | ok w =>
      rw [step_of_fetch hr hf]
      cases decode w with
      | error e => exact ⟨_, rfl⟩
      | ok i => exact exec_answers i (hs.fetched hf).slots
  · exact ⟨s, step_stopped hr⟩

/-! ### A constant by four load immediates (30_encoding.md R80; 40_alu.md R103 to R106) -/

/-- A write to R after a write to R is one write: the frames compose, and the last value stays. -/
theorem RegisterResult.trans {s t u : State} {r : Reg} {v v' : Word} {ia ia' : InstrAddr}
    (h : RegisterResult s t r v ia) (g : RegisterResult t u r v' ia') : RegisterResult s u r v' ia' where
  gr j := by
    rw [g.gr, h.gr]
    split <;> rfl
  address := g.address
  user := g.user.trans h.user
  translate := g.translate.trans h.translate
  overflow := g.overflow.trans h.overflow
  cr := g.cr.trans h.cr
  ir := g.ir.trans h.ir
  reservation := g.reservation.trans h.reservation
  tlb := g.tlb.trans h.tlb
  tick := g.tick.trans h.tick
  trap := g.trap.trans h.trap
  run := g.run.trans h.run
  memory a := (g.memory a).trans (h.memory a)
  device := g.device.trans h.device
  params := g.params.trans h.params

/-- The value written to GR0 does not matter (10_state.md R13). -/
theorem RegisterResult.congr {s t : State} {r : Reg} {v v' : Word} {ia ia' : InstrAddr} (h : RegisterResult s t r v ia)
    (hv : r ≠ 0 → v = v') (hia : ia = ia') : RegisterResult s t r v' ia' := by
  subst hia
  refine { h with gr := fun j => ?_ }
  rw [h.gr]
  split
  · rename_i hj
    exact hv hj.2
  · rfl

theorem RegisterResult.readGr_self {s t : State} {r : Reg} {v : Word} {ia : InstrAddr}
    (h : RegisterResult s t r v ia) (hr : r ≠ 0) : t.readGr r = v := by
  rw [h.gr, if_pos ⟨rfl, hr⟩]

/-- An LDI that deposits a field, after instructions that left `v` in its register. -/
theorem registerResult_deposit {s s1 : State} {r : Reg} {v x : Word} {ia : InstrAddr} (h : RegisterResult s s1 r v ia)
    (pos len : Nat) : ∃ s2, writeResult r (depositField (s1.readGr r) x pos len) s1 = .next s2 ∧
      RegisterResult s s2 r (depositField v x pos len) (ia + 4) := by
  refine ⟨_, rfl, (h.trans (registerResult_retireTo s1 r _ _)).congr (fun hr => ?_) ?_⟩
  · rw [h.readGr_self hr]
  · rw [State.writeGr_psw, h.address]

/-- The four fields of a constant put back in place. -/
theorem deposit_fields (c : Word) :
    depositField (depositField (depositField ((c.extractLsb' 0 20).setWidth 64)
      ((c.extractLsb' 20 20).setWidth 64) 20 20) ((c.extractLsb' 40 20).setWidth 64) 40 20)
      (((c.extractLsb' 60 4).setWidth 20).setWidth 64) 60 4 = c := by
  apply BitVec.eq_of_getLsbD_eq
  intro k hk
  rw [depositField_getLsbD _ _ (by decide) hk, depositField_getLsbD _ _ (by decide) hk,
    depositField_getLsbD _ _ (by decide) hk]
  simp only [BitVec.getLsbD_setWidth, BitVec.getLsbD_extractLsb']
  split_ifs with h60 h40 h20
  · rw [show 60 + (k - 60) = k by omega]
    simp [show k - 60 < 4 by omega, show k - 60 < 20 by omega, show k - 60 < 64 by omega]
  · rw [show 40 + (k - 40) = k by omega]
    simp [show k - 40 < 20 by omega, show k - 40 < 64 by omega]
  · rw [show 20 + (k - 20) = k by omega]
    simp [show k - 20 < 20 by omega, show k - 20 < 64 by omega]
  · simp [show k < 20 by omega, hk]

/-- Settles O34: LDI.L writes the whole register, each further LDI deposits its field. -/
theorem fourLoadImmediatesBuildAnyConstant : Obligations.FourLoadImmediatesBuildAnyConstant := by
  intro s r c
  have h1 := registerResult_retireTo s r ((c.extractLsb' 0 20).setWidth 64) (s.psw.ia + 4)
  obtain ⟨s2, hs2, h2⟩ := registerResult_deposit h1 (x := (c.extractLsb' 20 20).setWidth 64) 20 20
  obtain ⟨s3, hs3, h3⟩ := registerResult_deposit h2 (x := (c.extractLsb' 40 20).setWidth 64) 40 20
  obtain ⟨t, ht, h4⟩ := registerResult_deposit h3 (x := ((c.extractLsb' 60 4).setWidth 20).setWidth 64) 60 4
  refine ⟨_, s2, s3, t, rfl, hs2, hs3, ht, h4.congr (fun _ => deposit_fields c) ?_⟩
  simp only [BitVec.add_assoc]
  rfl

end Sys2Proof.Machine
end

section
/-!
PROOFS. The statements of 40_alu.md. An encoding clause goes by what the decoder dispatches for given fields, an
operand form by what `exec` is at its second operand, position or amount, and a result by one identity between the
Word operation of the meaning and the number of the rule.
-/

namespace Sys2Proof.Machine

/-! ### Encodings (30_encoding.md R70, R71, R75, R76) -/

/-- A qualifier that its family does not assign makes the word illegal (30_encoding.md R76). -/
theorem otherQualifiersIllegal (g f : Nat) : OtherQualifiersIllegal g f := by
  rintro w ⟨rfl, rfl⟩ hq
  exact raisesIllegal_of_not_legal fun hl => hq hl.1

section Encodings
variable {f q : Nat}

theorem aluEncoding_of_dispatch {reg : Reg → Reg → Reg → Instr} {imm : Reg → Reg → BitVec 13 → Instr}
    (h : ∀ d : Fields, dispatchFields { d with g := 0, f := BitVec.ofNat 4 f, q := BitVec.ofNat 3 q } =
      .ok (if d.x then imm d.r.toFin d.b.toFin d.imm13 else reg d.r.toFin d.b.toFin d.a.toFin)) :
    AluEncoding f q reg imm := by
  intro w hw hq
  simp only [regAt_eq, fieldAt_eq]
  exact (decode_of_fields hw hq).trans (h (fieldsOf w))

theorem fieldEncoding_of_dispatch {pos : Reg → Reg → BitVec 6 → BitVec 6 → Instr}
    {shamt : Reg → Reg → BitVec 6 → Instr}
    (h : ∀ d : Fields, dispatchFields { d with g := 0, f := 7, q := BitVec.ofNat 3 q } =
      .ok (if d.s then shamt d.r.toFin d.b.toFin d.len6 else pos d.r.toFin d.b.toFin d.pos6 d.len6)) :
    FieldEncoding q pos shamt := by
  intro w hw hq
  simp only [regAt_eq, fieldAt_eq]
  exact (decode_of_fields hw hq).trans (h (fieldsOf w))

theorem shiftEncoding_of_dispatch {reg : Reg → Reg → Reg → Instr} {imm : Reg → Reg → BitVec 6 → Instr}
    {shamt : Reg → Reg → Instr}
    (h : ∀ d : Fields, dispatchFields { d with g := 0, f := 8, q := BitVec.ofNat 3 q } =
      .ok (if d.s then shamt d.r.toFin d.b.toFin
        else if d.x then imm d.r.toFin d.b.toFin d.sa6 else reg d.r.toFin d.b.toFin d.a.toFin)) :
    ShiftEncoding q reg imm shamt := by
  intro w hw hq
  simp only [regAt_eq, fieldAt_eq]
  exact (decode_of_fields hw hq).trans (h (fieldsOf w))

end Encodings

/-- LDI selects its position by w[21:20] alone; w[19] is the top bit of the constant (40_alu.md R103 to R106). -/
theorem decode_loadImmediate {w : InstrWord} {p : Nat} (hw : InFamily w 0 9) (hp : qualifier w / 2 = p) :
    decode w = .ok (loadImmediateAt (BitVec.ofNat 2 p) (regAt w 22) (fieldAt w 0 20)) := by
  have hq : (fieldsOf w).q.extractLsb' 1 2 = BitVec.ofNat 2 p := by
    apply BitVec.eq_of_toNat_eq
    rw [field_of_qualifier rfl, BitVec.extractLsb'_toNat, BitVec.toNat_ofNat, BitVec.toNat_ofNat, ← hp,
      Nat.mod_eq_of_lt (qualifier_lt w), Nat.shiftRight_eq_div_pow, pow_one]
  obtain ⟨hg, hf⟩ := fields_of_inFamily hw
  rw [decode_immop hg hf hq, regAt_eq, fieldAt_eq]
  rfl

/-! ### Operand forms (40_alu.md R85, R95, R99) -/

section Forms
variable {s : State} {r b : Reg} {i : Instr}

/-- An ALU instruction is one function of its second operand, whichever form gives it. -/
theorem AluForm.exec_eq {reg : Reg → Reg → Reg → Instr} {imm : Reg → Reg → BitVec 13 → Instr} {y : Word}
    (h : AluForm s reg imm r b y i) (meaning : Word → Result)
    (hreg : ∀ a, exec (reg r b a) s = meaning (s.readGr a))
    (himm : ∀ k, exec (imm r b k) s = meaning (Machine.immediate k)) : exec i s = meaning y := by
  cases h with
  | register a => exact hreg a
  | immediate k => exact himm k

/-- A BITOP instruction writes one function of its position, whether pos6 or SHAMT gives it. -/
theorem FieldForm.completes {pos : Reg → Reg → BitVec 6 → BitVec 6 → Instr} {shamt : Reg → Reg → BitVec 6 → Instr}
    {len : BitVec 6} {p : Nat} (h : FieldForm s pos shamt r b len p i) (value : Nat → Word)
    (hpos : ∀ k : BitVec 6, exec (pos r b k len) s = writeResult r (value k.toNat) s)
    (hshamt : exec (shamt r b len) s = writeResult r (value s.shamtAmount) s) {v : Word} (hv : value p = v) :
    Completes (exec i s) s r v := by
  cases h with
  | immediate k =>
    rw [hpos]
    exact completes_writeResult s r hv
  | shamt =>
    rw [hshamt, shamtAmount_eq]
    exact completes_writeResult s r hv

theorem FieldForm.position_lt {pos : Reg → Reg → BitVec 6 → BitVec 6 → Instr} {shamt : Reg → Reg → BitVec 6 → Instr}
    {len : BitVec 6} {p : Nat} (h : FieldForm s pos shamt r b len p i) : p < 64 := by
  cases h with
  | immediate k => exact k.isLt
  | shamt => exact shamtValue_lt s

/-- A SHAOP instruction writes one function of its amount, whether x[A], sa6 or SHAMT gives it. -/
theorem ShiftForm.completes {reg : Reg → Reg → Reg → Instr} {imm : Reg → Reg → BitVec 6 → Instr}
    {shamt : Reg → Reg → Instr} {amt : Nat} (h : ShiftForm s reg imm shamt r b amt i) (value : Nat → Word)
    (hreg : ∀ a, exec (reg r b a) s = writeResult r (value (s.registerAmount a)) s)
    (himm : ∀ k : BitVec 6, exec (imm r b k) s = writeResult r (value k.toNat) s)
    (hshamt : exec (shamt r b) s = writeResult r (value s.shamtAmount) s) {v : Word} (hv : value amt = v) :
    Completes (exec i s) s r v := by
  cases h with
  | register a =>
    rw [hreg, registerAmount_eq]
    exact completes_writeResult s r hv
  | immediate k =>
    rw [himm]
    exact completes_writeResult s r hv
  | shamt =>
    rw [hshamt, shamtAmount_eq]
    exact completes_writeResult s r hv

end Forms

/-! ### NOP, CA and the examples (40_alu.md R88; 43_sys.md R131) -/

theorem completes_retire (s : State) : Completes (.next s.retire) s 0 0 :=
  ⟨_, rfl, registerResult_noRegister s _⟩

/-- Settles O26: the dispatch of families NOP and CA reads no qualifier, and both meanings only retire. -/
theorem nopAndCaOnlyAdvanceTheAddress : Obligations.NopAndCaOnlyAdvanceTheAddress :=
  ⟨fun _ hw => decode_of_fields hw rfl, fun _ hw => decode_of_fields hw rfl,
    fun s => ⟨completes_retire s, completes_retire s⟩⟩

/-- Settles O7: the decoder evaluated at each word. -/
theorem exampleWordsDecodeToTheirInstructions : Obligations.ExampleWordsDecodeToTheirInstructions :=
  ⟨rfl, rfl, rfl, rfl, rfl, rfl, rfl, rfl, rfl, rfl⟩

/-! ### ADD, SUB and LDO (40_alu.md R89, R90, R107) -/

theorem wordOf_add (x y : Word) : wordOf (x.toInt + y.toInt) = x + y := by
  rw [wordOf, BitVec.ofInt_add, BitVec.ofInt_toInt, BitVec.ofInt_toInt]

theorem wordOf_sub (x y : Word) : wordOf (x.toInt - y.toInt) = x - y := by
  rw [wordOf, sub_eq_add_neg, BitVec.ofInt_add, BitVec.ofInt_neg, BitVec.ofInt_toInt, BitVec.ofInt_toInt,
    BitVec.sub_eq_add_neg]

/-- What ADD and SUB do with their mathematical result (40_alu.md R89, R90). -/
def checkedResult (r : Reg) (v : Int) (s : State) : Result :=
  if s.psw.overflow && outOfSignedRange v then .next s.raiseOverflow else writeResult r (wordOf v) s

theorem addResult_eq (r : Reg) (x y : Word) (s : State) :
    addResult r x y s = checkedResult r (x.toInt + y.toInt) s := by
  rw [checkedResult, wordOf_add]
  rfl

theorem subResult_eq (r : Reg) (x y : Word) (s : State) :
    subResult r x y s = checkedResult r (x.toInt - y.toInt) s := by
  rw [checkedResult, wordOf_sub]
  rfl

theorem checkedResult_spec (r : Reg) (v : Int) (s : State) :
    (s.psw.overflow = true ∧ (v < -2 ^ 63 ∨ v ≥ 2 ^ 63) →
      checkedResult r v s = .next (s.trappedWith .overflow s.ir s.psw.ia 0)) ∧
    (¬ (s.psw.overflow = true ∧ (v < -2 ^ 63 ∨ v ≥ 2 ^ 63)) → Completes (checkedResult r v s) s r (wordOf v)) := by
  rw [← outOfSignedRange_iff, ← Bool.and_eq_true, checkedResult]
  refine ⟨fun h => if_pos h, fun h => ?_⟩
  rw [if_neg h]
  exact completes_writeResult s r rfl

/-- Settles O27: ADD and SUB are the checked sum and the checked difference in both forms. -/
theorem addAndSubWrapOrTrapOnOverflow : Obligations.AddAndSubWrapOrTrapOnOverflow := by
  refine ⟨⟨aluEncoding_of_dispatch fun _ => rfl, otherQualifiersIllegal 0 1⟩,
    ⟨aluEncoding_of_dispatch fun _ => rfl, otherQualifiersIllegal 0 2⟩, fun s r b y i form => ?_,
    fun s r b y i form => ?_⟩
  · rw [form.exec_eq (addResult r (s.readGr b) · s) (fun _ => rfl) fun _ => rfl, addResult_eq]
    exact checkedResult_spec r _ s
  · rw [form.exec_eq (subResult r (s.readGr b) · s) (fun _ => rfl) fun _ => rfl, subResult_eq]
    exact checkedResult_spec r _ s

/-- Settles O35: LDO writes a sum of Words, which is the mathematical sum modulo 2^64, with no overflow check. -/
theorem loadAddressOffsetNeverTraps : Obligations.LoadAddressOffsetNeverTraps := by
  refine ⟨fun w hw hq => ?_, otherQualifiersIllegal 0 10, fun s r b imm => completes_writeResult s r ?_⟩
  · simp only [regAt_eq, fieldAt_eq]
    exact decode_of_fields hw hq
  · rw [wordOf, BitVec.ofInt_add, BitVec.ofInt_toInt]
    rfl

/-! ### AND, OR, XOR (40_alu.md R91, R92, R93) -/

/-- An ALU instruction that writes a Word operation acts on each bit as the operation does. -/
theorem AluForm.completes_bitwise {reg : Reg → Reg → Reg → Instr} {imm : Reg → Reg → BitVec 13 → Instr} {s : State}
    {r b : Reg} {y : Word} {i : Instr} (h : AluForm s reg imm r b y i) (op : Word → Word → Word)
    (hreg : ∀ a, exec (reg r b a) s = writeResult r (op (s.readGr b) (s.readGr a)) s)
    (himm : ∀ k, exec (imm r b k) s = writeResult r (op (s.readGr b) (Machine.immediate k)) s)
    (bitOp : Bool → Bool → Bool)
    (hop : ∀ (x z : Word) (k : Nat), (op x z).getLsbD k = bitOp (x.getLsbD k) (z.getLsbD k)) :
    ∃ v, Completes (exec i s) s r v ∧ ∀ k < 64, v.getLsbD k = bitOp ((s.readGr b).getLsbD k) (y.getLsbD k) := by
  rw [h.exec_eq (fun z => writeResult r (op (s.readGr b) z) s) hreg himm]
  exact ⟨_, completes_writeResult s r rfl, fun k _ => hop _ _ k⟩

/-- Settles O28: each instruction writes the Word operation, whose bits are the operation of the bits. -/
theorem andOrXorActBitByBit : Obligations.AndOrXorActBitByBit := by
  refine ⟨⟨aluEncoding_of_dispatch fun _ => rfl, otherQualifiersIllegal 0 3⟩,
    ⟨aluEncoding_of_dispatch fun _ => rfl, otherQualifiersIllegal 0 4⟩,
    ⟨aluEncoding_of_dispatch fun _ => rfl, otherQualifiersIllegal 0 5⟩, fun s r b y i =>
      ⟨fun form => ?_, fun form => ?_, fun form => ?_⟩⟩
  · exact form.completes_bitwise (· &&& ·) (fun _ => rfl) (fun _ => rfl) and fun _ _ _ => BitVec.getLsbD_and
  · exact form.completes_bitwise (· ||| ·) (fun _ => rfl) (fun _ => rfl) or fun _ _ _ => BitVec.getLsbD_or
  · exact form.completes_bitwise (· ^^^ ·) (fun _ => rfl) (fun _ => rfl) bne fun _ _ _ => BitVec.getLsbD_xor

/-! ### CMP (40_alu.md R94) -/

/-- The row of `compareForms` of a condition. -/
def compareForm : Cond → Nat × (Reg → Reg → Reg → Instr) × (Reg → Reg → BitVec 13 → Instr)
  | .eq => (0, .cmpEqR, .cmpEqI)
  | .ne => (1, .cmpNeR, .cmpNeI)
  | .lt => (2, .cmpLtR, .cmpLtI)
  | .le => (3, .cmpLeR, .cmpLeI)
  | .gt => (4, .cmpGtR, .cmpGtI)
  | .ge => (5, .cmpGeR, .cmpGeI)
  | .ltu => (6, .cmpLtuR, .cmpLtuI)
  | .geu => (7, .cmpGeuR, .cmpGeuI)

theorem compareForms_eq_map : compareForms = [.eq, .ne, .lt, .le, .gt, .ge, .ltu, .geu].map compareForm := rfl

theorem compareForm_number (c : Cond) : (compareForm c).1 = c.number := by
  cases c <;> rfl

theorem compareForm_encoding (c : Cond) : AluEncoding 6 (compareForm c).1 (compareForm c).2.1 (compareForm c).2.2 := by
  cases c <;> exact aluEncoding_of_dispatch fun _ => rfl

theorem exec_compareForm_register (c : Cond) (r b a : Reg) (s : State) :
    exec ((compareForm c).2.1 r b a) s = compareResult c r (s.readGr b) (s.readGr a) s := by
  cases c <;> rfl

theorem exec_compareForm_immediate (c : Cond) (r b : Reg) (k : BitVec 13) (s : State) :
    exec ((compareForm c).2.2 r b k) s = compareResult c r (s.readGr b) (immediate k) s := by
  cases c <;> rfl

theorem completes_compareResult (c : Cond) (r : Reg) (x y : Word) (s : State) :
    (CondTrue c.number x y → Completes (compareResult c r x y s) s r 1) ∧
    (¬ CondTrue c.number x y → Completes (compareResult c r x y s) s r 0) := by
  rw [← condHolds_iff]
  exact ⟨fun h => completes_writeResult s r (if_pos h), fun h => completes_writeResult s r (if_neg h)⟩

/-- Settles O29: the row of each condition has its qualifier, and both of its forms compare by it. -/
theorem compareWritesOneOrZero : Obligations.CompareWritesOneOrZero := by
  intro p hp
  rw [compareForms_eq_map] at hp
  obtain ⟨c, -, rfl⟩ := List.mem_map.1 hp
  refine ⟨compareForm_encoding c, fun s r b y i form => ?_⟩
  rw [form.exec_eq (compareResult c r (s.readGr b) · s) (exec_compareForm_register c r b · s)
    (exec_compareForm_immediate c r b · s), compareForm_number]
  exact completes_compareResult c r (s.readGr b) y s

/-! ### EXTRU, EXTRS and DEP (40_alu.md R95 to R98) -/

/-- Settles O30: the extracted Words are the field's unsigned and signed values. -/
theorem extractWritesTheClampedField : Obligations.ExtractWritesTheClampedField := by
  refine ⟨fieldEncoding_of_dispatch fun _ => rfl, fieldEncoding_of_dispatch fun _ => rfl, otherQualifiersIllegal 0 7,
    fun s r b len pos i => ⟨fun form => ?_, fun form => ?_⟩⟩
  · exact form.completes (fun p => extractUnsigned (s.readGr b) p (clampedLength p len)) (fun _ => rfl) rfl
      (extractUnsigned_eq ..)
  · exact form.completes (fun p => extractSigned (s.readGr b) p (clampedLength p len)) (fun _ => rfl) rfl
      (extractSigned_eq _ _ (clampedLength_spec len form.position_lt).1)

/-- Settles O31: a deposit into a field that ends at or before bit 63. -/
theorem depositReplacesExactlyTheField : Obligations.DepositReplacesExactlyTheField := by
  refine ⟨fieldEncoding_of_dispatch fun _ => rfl, fun s r b len pos i form => ?_⟩
  exact ⟨_, form.completes (fun p => depositField (s.readGr r) (s.readGr b) p (clampedLength p len))
    (fun _ => rfl) rfl rfl, fun k hk => depositField_getLsbD _ _ (clampedLength_spec len form.position_lt).2 hk⟩

/-! ### Shifts (40_alu.md R99 to R102) -/

theorem shiftLeft_eq_wordOf (x : Word) (n : Nat) : x <<< n = wordOf (x.toNat * 2 ^ n : Nat) := by
  apply BitVec.eq_of_toNat_eq
  rw [wordOf, BitVec.ofInt_natCast, BitVec.toNat_shiftLeft, Nat.shiftLeft_eq, BitVec.toNat_ofNat]

theorem ushiftRight_eq_wordOf (x : Word) (n : Nat) : x >>> n = wordOf (x.toNat / 2 ^ n : Nat) := by
  rw [wordOf, BitVec.ofInt_natCast, ← Nat.shiftRight_eq_div_pow, ← BitVec.toNat_ushiftRight, BitVec.ofNat_toNat,
    BitVec.setWidth_eq]

theorem sshiftRight_eq_wordOf (x : Word) (n : Nat) : x.sshiftRight n = wordOf (x.toInt / 2 ^ n) := by
  rw [BitVec.sshiftRight, Int.shiftRight_eq_div_pow]
  rfl

/-- Settles O32: the shifted Words are the product and the two quotients. -/
theorem shiftsMultiplyAndDivideByPowersOfTwo : Obligations.ShiftsMultiplyAndDivideByPowersOfTwo := by
  refine ⟨shiftEncoding_of_dispatch fun _ => rfl, shiftEncoding_of_dispatch fun _ => rfl,
    shiftEncoding_of_dispatch fun _ => rfl, otherQualifiersIllegal 0 8, fun s r b amt i =>
      ⟨fun form => ?_, fun form => ?_, fun form => ?_⟩⟩
  · exact form.completes (fun n => s.readGr b <<< n) (fun _ => rfl) (fun _ => rfl) rfl (shiftLeft_eq_wordOf ..)
  · exact form.completes (fun n => s.readGr b >>> n) (fun _ => rfl) (fun _ => rfl) rfl (ushiftRight_eq_wordOf ..)
  · exact form.completes (fun n => (s.readGr b).sshiftRight n) (fun _ => rfl) (fun _ => rfl) rfl
      (sshiftRight_eq_wordOf ..)

/-! ### Load immediate (40_alu.md R103 to R106) -/

/-- The bits of a register after the deposit of a constant of 20 bits. -/
theorem depositImmediate_getLsbD (old : Word) (imm : BitVec 20) {pos len : Nat} (h : pos + len ≤ 64) {k : Nat}
    (hk : k < 64) : (depositField old (imm.setWidth 64) pos len).getLsbD k =
      if pos ≤ k ∧ k < pos + len then imm.getLsbD (k - pos) else old.getLsbD k := by
  rw [depositField_getLsbD _ _ h hk, BitVec.getLsbD_setWidth, decide_eq_true (by omega : k - pos < 64), Bool.true_and]

/-- Settles O33: LDI.L writes the constant, the others deposit it; the field of LDI.T ends at bit 63. -/
theorem loadImmediatePlacesItsBits : Obligations.LoadImmediatePlacesItsBits := by
  refine ⟨fun w => decode_loadImmediate, fun w => decode_loadImmediate, fun w => decode_loadImmediate,
    fun w => decode_loadImmediate, fun s r imm => ⟨completes_writeResult s r ?_,
      ⟨_, completes_writeResult s r rfl, fun k => depositImmediate_getLsbD _ imm (by decide)⟩,
      ⟨_, completes_writeResult s r rfl, fun k => depositImmediate_getLsbD _ imm (by decide)⟩,
      ⟨_, completes_writeResult s r rfl, fun k hk => ?_⟩⟩⟩
  · rw [wordOf, BitVec.ofInt_natCast, BitVec.ofNat_toNat]
  · rw [depositImmediate_getLsbD _ imm (by decide) hk]
    simp only [Nat.reduceAdd, hk, and_true]

end Sys2Proof.Machine
end

section
/-!
PROOFS. The statements of 41_mem.md. Every MEM instruction is one of the four shared meanings at its length and its
effective address, and `Translate` leaves a state that differs in TLB recency only; so each statement is the trap of
that state, or what the meaning does after it, said of the state before.
-/

namespace Sys2Proof.Machine

/-! ### Only stores write memory (20_memory.md R52) -/

/-- An instruction that is no store and no store conditional leaves memory as it is. -/
theorem ExecCase.mem_eq {i : Instr} {s t : State} (hc : ExecCase i s t) (hst : kindOf i ≠ .store)
    (hstc : kindOf i ≠ .storeConditional) : t.mem = s.mem := by
  cases hc with
  | trap u c info1 info2 info3 hu hc hi ht => rw [ht, State.raise_mem, hu.mem]
  | result u r v ia history hk hu hr ht => rw [ht, State.retireTo_mem, State.writeGr_mem, hu.mem]
  | store u sp pa ea v n hk hn hu ht => exact absurd hk hst
  | loadReserve u sp pa ea v n r history hk hr hn hu ht =>
    rw [ht, State.retire_mem, State.writeGr_mem, State.reserve_mem, (recencyOnly_of_translate hu).mem]
  | conditionalStored u sp pa ea v n r hk hr hn hu ht => exact absurd hk hstc
  | conditionalFailed u r hk hr hu ht => exact absurd hk hstc
  | controlWrite n v hk hn ht => rw [ht, State.retire_mem, State.writeCr_mem]
  | tlbInserted u va pa aid pid hk hp hu ht =>
    obtain ⟨tlb', rfl, -⟩ := tlbInsert_cases hu
    rw [ht, State.retire_mem]
  | tlbPurged va hk hp ht => rw [ht, State.retire_mem, State.purgeTlb_mem]
  | status p r v hk hr hp ht => rw [ht, State.retire_mem, State.writeGr_mem]
  | restored v hk hp ht => rw [ht, State.restorePsw_mem]
  | halted hk hp ht => rw [ht, State.retire_mem]

/-- Settles O21: a word of another family decodes to an instruction of another kind, or raises IllegalInstruction. -/
theorem onlyStoresChangeMemory : Obligations.OnlyStoresChangeMemory := by
  intro s s1 t w hr hf h hst hstc a
  rw [← fetch_mem hf]
  rcases step_fetched_exec hr hf h with rfl | ⟨i, -, hx, hfam⟩
  · rw [State.raiseIllegal_mem]
  · rw [hfam, ← kindOf_store_iff] at hst
    rw [hfam, ← kindOf_storeConditional_iff] at hstc
    rw [(exec_cases hx).mem_eq hst hstc]

/-! ### Encodings (30_encoding.md R70, R72; 41_mem.md R108) -/

/-- One check per row: what the decoder dispatches for the fields of the family and the row's qualifier. -/
theorem memEncoding_of_dispatch {f : Nat} {forms : MemForms}
    (h : forms.Forall fun p => ∀ d : Fields,
      dispatchFields { d with g := 1, f := BitVec.ofNat 4 f, q := BitVec.ofNat 3 p.1 } =
        .ok (if d.x then p.2.2 d.r.toFin d.b.toFin d.a.toFin else p.2.1 d.r.toFin d.b.toFin d.imm13)) :
    MemEncoding f forms := by
  intro p hp w hw hq
  simp only [regAt_eq, fieldAt_eq]
  exact (decode_of_fields hw hq).trans (List.forall_iff_forall_mem.1 h p hp (fieldsOf w))

theorem loadForms_encoding : MemEncoding 8 loadForms :=
  memEncoding_of_dispatch ⟨fun _ => rfl, fun _ => rfl, fun _ => rfl, fun _ => rfl, fun _ => rfl, fun _ => rfl,
    fun _ => rfl, fun _ => rfl⟩

theorem storeForms_encoding : MemEncoding 9 storeForms :=
  memEncoding_of_dispatch ⟨fun _ => rfl, fun _ => rfl, fun _ => rfl, fun _ => rfl⟩

theorem loadReserveForms_encoding : MemEncoding 10 loadReserveForms :=
  memEncoding_of_dispatch ⟨fun _ => rfl, fun _ => rfl, fun _ => rfl, fun _ => rfl, fun _ => rfl, fun _ => rfl,
    fun _ => rfl, fun _ => rfl⟩

theorem storeConditionalForms_encoding : MemEncoding 11 storeConditionalForms :=
  memEncoding_of_dispatch ⟨fun _ => rfl, fun _ => rfl, fun _ => rfl, fun _ => rfl⟩

/-! ### The state after the access's lookup (20_memory.md R43, R44) -/

theorem recencyOnly_afterAccess {s : State} (h : OneEntryPerPage s.tlb) (va : Word) (n : Nat) :
    RecencyOnly s (s.afterAccess va n) := by
  obtain ⟨x, hx⟩ := exists_translateSays s va n .read
  exact recencyOnly_of_translate (hx.translate_eq h)

theorem RecencyOnly.historyAfterRead {s u : State} (h : RecencyOnly s u) (sp : Space) (pa : Word) (n : Nat) :
    historyAfterRead u sp pa n = historyAfterRead s sp pa n := by
  rw [Machine.historyAfterRead, Machine.historyAfterRead, h.params, h.ioHistory]

/-- A register result and IA + 4 after the lookup keep the frame of a MEM instruction, whatever it does to memory, the
device and the reservation. -/
theorem accessFrame_retire {s : State} (h : OneEntryPerPage s.tlb) (r : Reg) (v ea : Word) (n : Nat) (m : Memory)
    (history : List IoEvent) (q : Reservation) :
    AccessFrame s (({ s.afterAccess ea n with mem := m, ioHistory := history, res := q } : State).writeGr r v).retire
      r v ea n :=
  have hu := recencyOnly_afterAccess h ea n
  { gr := fun j => by
      rw [State.retire_readGr, State.readGr_writeGr_destination, ← hu.readGr j]
      rfl
    psw := by rw [← hu.psw]; rfl
    cr := hu.cr
    ir := hu.ir
    tlb := rfl
    tick := rfl
    trap := hu.lastTrap
    run := hu.run
    params := hu.params }

/-- The same frame of an instruction that writes no register. -/
theorem accessFrame_noRegister {s : State} (h : OneEntryPerPage s.tlb) (ea : Word) (n : Nat) (m : Memory)
    (history : List IoEvent) (q : Reservation) :
    AccessFrame s ({ s.afterAccess ea n with mem := m, ioHistory := history, res := q } : State).retire 0 0 ea n :=
  accessFrame_retire h 0 0 ea n m history q

/-! ### Traps of a data access (41_mem.md R109) -/

/-- The data-access trap after the lookup: the lookup leaves IR, so the record holds w. -/
theorem raiseData_afterAccess {s : State} (h : OneEntryPerPage s.tlb) (c : TrapCode) (ea : Word) (n : Nat) :
    (s.afterAccess ea n).raiseData c ea n =
      (s.afterAccess ea n).trappedWith c (ea.setWidth 32) (BitVec.ofNat 32 n) s.ir := by
  rw [State.raiseData, (recencyOnly_afterAccess h ea n).ir]
  rfl

/-- Settles O38: each of the four meanings takes the trap of its translation first. -/
theorem dataAccessTrapsChangeNothingElse : Obligations.DataAccessTrapsChangeNothingElse := by
  rintro s i n sx r ea c h (⟨hm | hm, ht⟩ | ⟨hm | hm, ht⟩) <;> rw [← raiseData_afterAccess h]
  · obtain ⟨len, rfl, he⟩ := exec_of_load hm
    rw [he, loadValue, ht.translate_eq h]
  · obtain ⟨len, rfl, he⟩ := exec_of_loadReserve hm
    rw [he, loadReserve, ht.translate_eq h]
  · obtain ⟨len, rfl, he⟩ := exec_of_store hm
    rw [he, storeValue, ht.translate_eq h]
  · obtain ⟨len, rfl, he⟩ := exec_of_storeConditional hm
    rw [he, storeConditional, ht.translate_eq h]

/-! ### Loads (41_mem.md R110, R112) -/

/-- Settles O39: the load reads in the state after its lookup, where the bytes and the device are as before. -/
theorem loadWritesTheExtendedValue : Obligations.LoadWritesTheExtendedValue := by
  refine ⟨loadForms_encoding, fun s i n sx r ea h hm =>
    ⟨fun c ht => dataAccessTrapsChangeNothingElse s i n sx r ea c h (.inl ⟨.inl hm, ht⟩), fun sp pa ht => ?_⟩⟩
  have hu := recencyOnly_afterAccess h ea n
  obtain ⟨len, rfl, he⟩ := exec_of_load hm
  refine ⟨_, he.trans (loadValue_ok sx (ht.translate_eq h)), ?_⟩
  rw [hu.historyAfterRead, hu.regionValue, ← hu.psw]
  exact registerResult_retireTo _ r _ _

/-- Settles O41: as for LD, with the reservation of the access in the state before the register write. -/
theorem loadReserveLoadsAndReserves : Obligations.LoadReserveLoadsAndReserves := by
  refine ⟨loadReserveForms_encoding, fun s i n sx r ea h hm =>
    ⟨fun c ht => dataAccessTrapsChangeNothingElse s i n sx r ea c h (.inl ⟨.inr hm, ht⟩), fun sp pa ht => ?_⟩⟩
  have hu := recencyOnly_afterAccess h ea n
  obtain ⟨len, rfl, he⟩ := exec_of_loadReserve hm
  refine ⟨_, he.trans (loadReserve_ok sx (ht.translate_eq h)), ?_⟩
  rw [hu.historyAfterRead, hu.regionValue, ← hu.psw]
  exact registerResult_retireTo _ r _ _

/-! ### Stores (41_mem.md R111, R113) -/

/-- Settles O40: the region write after the lookup, which left the reservation as it was. -/
theorem storeWritesExactlyItsBytes : Obligations.StoreWritesExactlyItsBytes := by
  refine ⟨storeForms_encoding, otherQualifiersIllegal 1 9, fun s i n sx r ea h hm =>
    ⟨fun c ht => dataAccessTrapsChangeNothingElse s i n sx r ea c h (.inr ⟨.inl hm, ht⟩), fun sp pa ht => ?_⟩⟩
  have hu := recencyOnly_afterAccess h ea n
  obtain ⟨len, rfl, he⟩ := exec_of_store hm
  refine ⟨_, he.trans (storeValue_ok (ht.translate_eq h)), accessFrame_noRegister h ea _ _ _ _,
    hu.regionWritten rfl rfl, ?_⟩
  rw [← hu.res]
  exact Reservation.afterWrite_spec _ sp pa _

/-- Settles O42: STC drops the reservation before its region write, which then leaves it as it is. -/
theorem storeConditionalNeedsTheExactReservation : Obligations.StoreConditionalNeedsTheExactReservation := by
  refine ⟨storeConditionalForms_encoding, otherQualifiersIllegal 1 11, fun s i n sx r ea h hm =>
    ⟨fun c ht => dataAccessTrapsChangeNothingElse s i n sx r ea c h (.inr ⟨.inr hm, ht⟩), fun sp pa ht => ?_⟩⟩
  have hu := recencyOnly_afterAccess h ea n
  obtain ⟨len, rfl, he⟩ := exec_of_storeConditional hm
  rw [← Reservation.admits_iff, he]
  refine ⟨fun ha => ?_, fun ha => ?_⟩
  · refine ⟨_, storeConditional_stored (ht.translate_eq h) ha, accessFrame_retire h r 1 ea _ _ _ _,
      hu.regionWritten rfl rfl, ?_⟩
    rw [← hu.res]
    exact Reservation.afterWrite_invalid rfl sp pa _
  · refine ⟨_, storeConditional_failed (ht.translate_eq h) (Bool.eq_false_iff.2 ha),
      accessFrame_retire h r 0 ea _ _ _ _, fun a => congrArg (·.read a) hu.mem, hu.ioHistory, ?_⟩
    rw [← hu.res]
    rfl

end Sys2Proof.Machine
end

section
/-!
PROOFS. The statements of 42_branch.md. Every BR instruction but MBR is `linkAndBranch` or `branchIf` at its target, so
each statement is the target as an integer modulo 2^32, and for a conditional branch what its condition tests.
-/

namespace Sys2Proof.Machine

/-! ### Targets (42_branch.md R115, R118, R119, R122) -/

theorem addressOf_add (v u : Int) : addressOf (v + u) = addressOf v + addressOf u :=
  BitVec.ofInt_add v u

theorem addressOf_four_mul (v : Int) : addressOf (4 * v) = 4 * addressOf v :=
  BitVec.ofInt_mul 4 v

/-- The fall-through address, IA + 4. -/
theorem sequentialAddress_eq (s : State) : s.psw.ia + 4 = addressOf (s.psw.ia.toNat + 4) := by
  rw [addressOf_add, addressOf_toNat]
  rfl

/-- BV sums in 64 bits and then keeps the low 32, which is the sum modulo 2^32. -/
theorem vectorTarget_eq (base index : Word) :
    (base + 4 * index).setWidth 32 = addressOf (base.toNat + 4 * index.toNat) := by
  rw [BitVec.setWidth_add _ _ (by norm_num), BitVec.setWidth_mul _ _ (by norm_num), addressOf_add, addressOf_four_mul,
    setWidth_eq_addressOf base, setWidth_eq_addressOf index]
  rfl

/-- MBR keeps the low 32 bits of its index before it scales and adds. -/
theorem multiwayTarget_eq (s : State) (index : Word) :
    s.psw.ia + 4 + 4 * index.setWidth 32 = addressOf (s.psw.ia.toNat + 4 + 4 * index.toNat) := by
  rw [addressOf_add, addressOf_four_mul, ← sequentialAddress_eq, setWidth_eq_addressOf]

/-! ### B, BR, BV and MBR (42_branch.md R117, R118, R119, R122) -/

theorem completesAt_retireTo (s : State) {ia ia' : InstrAddr} (h : ia = ia') :
    CompletesAt (.next (s.retireTo ia)) s 0 0 ia' :=
  ⟨_, rfl, h ▸ registerResult_noRegister s ia⟩

/-- Settles O45: `linkAndBranch` takes its target as an argument, so the target is of the registers before the link. -/
theorem unconditionalBranchesReachTheirTargets : Obligations.UnconditionalBranchesReachTheirTargets := by
  refine ⟨fun w hq => ?_, otherQualifiersIllegal 2 1, otherQualifiersIllegal 2 2, otherQualifiersIllegal 2 3,
    otherQualifiersIllegal 2 6, fun s r b a disp => ⟨?_, ?_, ?_, ?_⟩⟩
  · simp only [regAt_eq, fieldAt_eq]
    exact ⟨(decode_of_fields · hq), (decode_of_fields · hq), (decode_of_fields · hq), (decode_of_fields · hq)⟩
  · exact completesAt_linkAndBranch s r (relativeTarget_eq s disp)
  · exact completesAt_linkAndBranch s r (setWidth_eq_addressOf _)
  · exact completesAt_linkAndBranch s r (vectorTarget_eq _ _)
  · exact completesAt_retireTo s (multiwayTarget_eq s _)

/-! ### Conditional branches (42_branch.md R115) -/

/-- A branch whose Boolean says P goes to its relative target where P holds, else to IA + 4. -/
theorem completesAt_branchIf_iff {k : Nat} {taken : Bool} {P : Prop} (s : State) (disp : BitVec k)
    (h : taken = true ↔ P) :
    (P → CompletesAt (branchIf taken (s.relativeTarget disp) s) s 0 0
      (addressOf (s.psw.ia.toNat + 4 * disp.toInt))) ∧
    (¬ P → CompletesAt (branchIf taken (s.relativeTarget disp) s) s 0 0 (addressOf (s.psw.ia.toNat + 4))) := by
  have hc := completesAt_branchIf s taken (s.relativeTarget disp)
  rw [← h, ← relativeTarget_eq, ← sequentialAddress_eq]
  exact ⟨fun ht => by rwa [if_pos ht] at hc, fun hf => by rwa [if_neg hf] at hc⟩

/-! ### BB (42_branch.md R120) -/

/-- BB compares the selected bit with its suffix, whether bpos6 or SHAMT gives the position. -/
theorem BitBranchForm.exec_eq {s : State} {r : Reg} {disp : BitVec 13} {pos : Nat} {want : Bool} {i : Instr}
    (h : BitBranchForm s r disp pos want i) :
    exec i s = branchIf ((s.readGr r).getLsbD pos == want) (s.relativeTarget disp) s := by
  cases h with
  | falseAt p => rw [beq_false]; rfl
  | trueAt p => rw [beq_true]; rfl
  | falseShamt => rw [beq_false, ← shamtAmount_eq]; rfl
  | trueShamt => rw [beq_true, ← shamtAmount_eq]; rfl

/-- Settles O46: all four forms are one conditional branch on the equality of the bit and the suffix. -/
theorem branchOnBitTestsTheSelectedBit : Obligations.BranchOnBitTestsTheSelectedBit := by
  refine ⟨fun w hw => ?_, otherQualifiersIllegal 2 4, fun s r disp pos want i form => ?_⟩
  · simp only [regAt_eq, fieldAt_eq]
    exact ⟨decode_of_fields hw, decode_of_fields hw, decode_of_fields hw, decode_of_fields hw⟩
  · rw [form.exec_eq]
    exact completesAt_branchIf_iff s disp beq_iff_eq

/-! ### CBR (42_branch.md R121) -/

/-- The instruction of a condition. -/
def compareBranch : Cond → Reg → Reg → BitVec 15 → Instr
  | .eq => .cbrEq
  | .ne => .cbrNe
  | .lt => .cbrLt
  | .le => .cbrLe
  | .gt => .cbrGt
  | .ge => .cbrGe
  | .ltu => .cbrLtu
  | .geu => .cbrGeu

theorem compareBranchForms_eq_map : compareBranchForms =
    [.eq, .ne, .lt, .le, .gt, .ge, .ltu, .geu].map fun c => (c.number, compareBranch c) := rfl

theorem decode_compareBranch (c : Cond) {w : InstrWord} (hw : InFamily w 2 5) (hq : qualifier w = c.number) :
    decode w = .ok (compareBranch c (regAt w 22) (regAt w 15) (fieldAt w 0 15)) := by
  rw [decode_of_fields hw hq, regAt_eq, regAt_eq, fieldAt_eq]
  cases c <;> rfl

theorem exec_compareBranch (c : Cond) (r b : Reg) (disp : BitVec 15) (s : State) :
    exec (compareBranch c r b disp) s =
      branchIf (condHolds c (s.readGr r) (s.readGr b)) (s.relativeTarget disp) s := by
  cases c <;> rfl

/-- Settles O47: the row of each condition has its qualifier, and its instruction branches by it. -/
theorem compareAndBranchTestsItsCondition : Obligations.CompareAndBranchTestsItsCondition := by
  intro p hp
  rw [compareBranchForms_eq_map] at hp
  obtain ⟨c, -, rfl⟩ := List.mem_map.1 hp
  refine ⟨fun w => decode_compareBranch c, fun s r b disp => ?_⟩
  rw [exec_compareBranch]
  exact completesAt_branchIf_iff s disp (condHolds_iff c _ _)

end Sys2Proof.Machine
end

section
/-!
PROOFS. The statements of 43_sys.md. A privileged instruction is `privileged` of its effect, so its statement is the
trap in user mode and the effect in privileged mode; a reserved control-register id is refused before that. Each effect
is one shared operation of Machine/Ops.lean and a retire.
-/

namespace Sys2Proof.Machine

/-! ### Encodings (30_encoding.md R70, R74) -/

/-- A SYS word whose operands are registers alone: what the decoder dispatches for the fields of its family. -/
theorem decode_sysRegisters {f q : Nat} (instr : Reg → Reg → Reg → Instr)
    (h : ∀ d : Fields, dispatchFields { d with g := 3, f := BitVec.ofNat 4 f, q := BitVec.ofNat 3 q } =
      .ok (instr d.r.toFin d.b.toFin d.a.toFin)) (w : InstrWord) (hw : InFamily w 3 f) (hq : qualifier w = q) :
    decode w = .ok (instr (regAt w 22) (regAt w 15) (regAt w 9)) := by
  simp only [regAt_eq]
  exact (decode_of_fields hw hq).trans (h (fieldsOf w))

/-! ### Privilege (43_sys.md R123) -/

theorem privileged_of_user {s : State} (h : s.psw.user = true) (effect : Result) :
    privileged s effect = .next (s.trappedWith .privilegeViolation s.ir s.psw.ia 0) :=
  if_pos h

theorem privileged_of_not_user {s : State} (h : s.psw.user = false) (effect : Result) :
    privileged s effect = effect :=
  if_neg (Bool.eq_false_iff.1 h)

/-! ### Control-register ids (43_sys.md R124) -/

/-- An instruction that names a reserved id traps before any other check. -/
theorem exec_of_reservedCr {i : Instr} {n : CrSlot} (hi : i.crSlot? = some n) (h : ReservedCr n.val) (s : State) :
    exec i s = .next (s.trappedWith .illegalInstruction s.ir s.psw.ia 0) :=
  exec_of_illFormed (by simp only [Instr.wellFormed, hi, (reservedCr_iff n).1 h]) s

theorem recognized_of_not_reservedCr {n : CrSlot} (h : ¬ ReservedCr n.val) : n.recognized = true := by
  rwa [reservedCr_iff, Bool.not_eq_false] at h

theorem exists_readCr {n : CrSlot} (h : ¬ ReservedCr n.val) (s : State) : ∃ v, s.readCr n = some v := by
  rw [← Option.isSome_iff_exists, State.readCr_isSome]
  exact recognized_of_not_reservedCr h

/-! ### MFCR and MTCR (43_sys.md R125, R126) -/

theorem exec_mfcr_of_readCr {s : State} {n : CrSlot} {v : Word} (r : Reg) (h : s.readCr n = some v) :
    exec (.mfcr r n) s = writeResult r v s := by
  rw [exec, execMfcr, h]
  rfl

/-- Settles O49: MFCR makes no check of privilege, and a recognized register reads as its content. -/
theorem moveFromControlRegisterCopiesIt : Obligations.MoveFromControlRegisterCopiesIt := by
  refine ⟨decode_sysRegisters (fun r b _ => .mfcr r b) fun _ => rfl, otherQualifiersIllegal 3 1, fun s r =>
    ⟨fun p hp => ?_, fun n hn => exec_of_reservedCr rfl hn s⟩⟩
  rw [exec_mfcr_of_readCr r (readCr_of_mem hp)]
  exact completes_writeResult s r rfl

theorem exec_mtcr_of_user {s : State} {n : CrSlot} (r : Reg) (h : ¬ ReservedCr n.val) (hn : n ≠ 1)
    (hu : s.psw.user = true) :
    exec (.mtcr n r) s = .next (s.trappedWith .privilegeViolation s.ir s.psw.ia 0) := by
  rw [exec, execMtcr, if_pos (recognized_of_not_reservedCr h), if_pos (by simp [hn, hu])]
  rfl

theorem exec_mtcr_of_allowed {s : State} {n : CrSlot} (r : Reg) (h : ¬ ReservedCr n.val)
    (hn : n = 1 ∨ s.psw.user = false) : exec (.mtcr n r) s = .next (s.writeCr n (s.readGr r)).retire := by
  rw [exec, execMtcr, if_pos (recognized_of_not_reservedCr h), if_neg]
  rcases hn with rfl | hu
  · simp
  · simp [hu]

/-- A control-register write replaces the content of the register it names and no other (10_state.md R25). -/
theorem controlRegisters_writeCr (s : State) (n : CrSlot) (v : Word) :
    controlRegisters (s.writeCr n v) = (controlRegisters s).map fun p => if p.1 = n then (p.1, v) else p := by
  fin_cases n <;> rfl

/-- Settles O50: the cases of MTCR by id and mode, and the write of one slot. -/
theorem moveToControlRegisterStoresAllBits : Obligations.MoveToControlRegisterStoresAllBits :=
  ⟨decode_sysRegisters (fun r b _ => .mtcr b r) fun _ => rfl, otherQualifiersIllegal 3 1, fun s r n =>
    ⟨fun h => exec_of_reservedCr rfl h s, exec_mtcr_of_user r, fun h hn =>
      ⟨_, exec_mtcr_of_allowed r h hn, registerResult_noRegister (s.writeCr n (s.readGr r)) _,
        controlRegisters_writeCr s n (s.readGr r)⟩⟩⟩

/-! ### LPA (43_sys.md R127) -/

@[simp] theorem State.touchedBy_psw (s : State) (va : Word) : (s.touchedBy va).psw = s.psw := by
  unfold State.touchedBy
  split <;> rfl

/-- A register result at a state with the PSW of `s`, and the retire of `s`. -/
theorem registerResult_retire {s u : State} (h : u.psw = s.psw) (r : Reg) (v : Word) :
    RegisterResult u (u.writeGr r v).retire r v (s.psw.ia + 4) :=
  h ▸ registerResult_retireTo u r v _

theorem exec_lpa_window {s : State} (r : Reg) {b : Reg} (hp : s.psw.user = false) (hw : InWindow (s.readGr b)) :
    exec (.lpa r b) s = writeResult r (s.readGr b) s := by
  rw [exec, execLpa, privileged_of_not_user hp, if_pos ((inIoWindow_iff _).2 hw)]
  rfl

theorem exec_lpa_hit {s u : State} (r : Reg) {b : Reg} {e : TlbEntry} (hp : s.psw.user = false)
    (hw : ¬ InWindow (s.readGr b)) (hl : lookupTlb s (s.readGr b) = (some e, u)) :
    exec (.lpa r b) s = .next (u.writeGr r (e.physicalAddress + pageOffset (s.readGr b))).retire := by
  rw [exec, execLpa, privileged_of_not_user hp, if_neg (mt (inIoWindow_iff _).1 hw), hl]

theorem exec_lpa_miss {s u : State} (r : Reg) {b : Reg} (hp : s.psw.user = false)
    (hw : ¬ InWindow (s.readGr b)) (hl : lookupTlb s (s.readGr b) = (none, u)) :
    exec (.lpa r b) s = .next (u.raiseData .tlbAccess (s.readGr b) 1) := by
  rw [exec, execLpa, privileged_of_not_user hp, if_neg (mt (inIoWindow_iff _).1 hw), hl]

/-- Settles O51: outside the window the answer is the lookup's, which does not read T. -/
theorem loadPhysicalAddressConsultsTheTlb : Obligations.LoadPhysicalAddressConsultsTheTlb := by
  refine ⟨decode_sysRegisters (fun r b _ => .lpa r b) fun _ => rfl, otherQualifiersIllegal 3 2, fun s r b =>
    ⟨fun hu => privileged_of_user hu _, fun hp hw => ?_, fun hp hw h => ⟨fun e he hv => ?_, fun hmiss => ?_⟩⟩⟩
  · rw [exec_lpa_window r hp hw]
    exact completes_writeResult s r rfl
  · refine ⟨_, exec_lpa_hit r hp hw (lookupTlb_hit h he hv), ?_⟩
    rw [pageOffset_eq]
    exact registerResult_retire (s.touchedBy_psw _) r _
  · exact exec_lpa_miss r hp hw (lookupTlb_miss hmiss)

/-! ### PRB (43_sys.md R128) -/

/-- The qualifier of the probe of a kind. -/
def AccessKind.number : AccessKind → Nat
  | .read => 0
  | .write => 1
  | .execute => 2

/-- The probe instruction of a kind. -/
def probeInstr : AccessKind → Reg → Reg → Instr
  | .read => .prbR
  | .write => .prbW
  | .execute => .prbX

theorem probeForms_eq_map :
    probeForms = [.read, .write, .execute].map fun kind => (kind.number, kind, probeInstr kind) := rfl

theorem decode_probeInstr (kind : AccessKind) : ∀ w, InFamily w 3 3 → qualifier w = kind.number →
    decode w = .ok (probeInstr kind (regAt w 22) (regAt w 15)) := by
  cases kind <;> exact decode_sysRegisters (fun r b _ => probeInstr _ r b) fun _ => rfl

theorem exec_probeInstr (kind : AccessKind) (r b : Reg) (s : State) :
    exec (probeInstr kind r b) s = probe kind r (s.readGr b) s := by
  cases kind <;> rfl

section Probe
variable {s u : State} {kind : AccessKind} {va : Word}

theorem probe_of_translate_ok {sp : Space} {pa : Word} (r : Reg) (h : translate s va 1 kind = (.ok sp pa, u)) :
    probe kind r va s = .next (u.writeGr r 1).retire := by
  rw [probe, h]

theorem probe_of_translate_trap {c : TrapCode} (r : Reg) (h : translate s va 1 kind = (.trap c, u)) :
    probe kind r va s = .next (u.writeGr r 0).retire := by
  rw [probe, h]

/-- Whatever its translation answers, a probe writes one register after it. -/
theorem exists_probe_eq (s : State) (kind : AccessKind) (r : Reg) (va : Word) :
    ∃ u v, RecencyOnly s u ∧ probe kind r va s = .next (u.writeGr r v).retire := by
  rcases h : translate s va 1 kind with ⟨sp | c, u⟩
  · exact ⟨u, 1, recencyOnly_of_translate h, probe_of_translate_ok r h⟩
  · exact ⟨u, 0, recencyOnly_of_translate h, probe_of_translate_trap r h⟩

end Probe

/-- Settles O52: the probe makes the translation of its kind, which gives the answer of the rule. -/
theorem probeAnswersWithoutFaulting : Obligations.ProbeAnswersWithoutFaulting := by
  refine ⟨otherQualifiersIllegal 3 3, fun p hp => ?_⟩
  rw [probeForms_eq_map] at hp
  obtain ⟨kind, -, rfl⟩ := List.mem_map.1 hp
  refine ⟨decode_probeInstr kind, fun s r b h => ?_⟩
  have hpsw := (recencyOnly_afterAccess h (s.readGr b) 1).psw
  rw [exec_probeInstr]
  exact ⟨fun _ _ hx => ⟨_, probe_of_translate_ok r (hx.translate_eq h), registerResult_retire hpsw r 1⟩,
    fun c hx => ⟨_, probe_of_translate_trap r (hx.translate_eq h), registerResult_retire hpsw r 0⟩⟩

/-! ### TLB.INS and TLB.PRG (43_sys.md R129, R130) -/

theorem pageBase_pageBase (a : Word) : pageBase (pageBase a) = pageBase a := by
  apply BitVec.eq_of_toNat_eq
  rw [pageBase_toNat (pageBase a), pageBase_aligned a, Nat.sub_zero]

/-- An insert keeps of its physical address the page only, so a page-aligned one gives the same entry. -/
theorem insertedTlb_pageBase {tlb tlb' : List TlbEntry} {va pa : Word} {aid : BitVec 8} {pid : BitVec 32}
    {stamp : Nat} :
    InsertedTlb tlb tlb' va (pageBase pa) aid pid stamp ↔ InsertedTlb tlb tlb' va pa aid pid stamp := by
  simp only [InsertedTlb, ← pageBase_eq, pageBase_pageBase]

/-- The low bits of a Word as a number of its width. -/
theorem extractLsb'_zero_eq_ofNat (x : Word) (k : Nat) : x.extractLsb' 0 k = BitVec.ofNat k x.toNat := by
  rw [BitVec.extractLsb', Nat.shiftRight_zero]

theorem exec_tlbIns_of_tlbInsert {s u : State} {r b a : Reg} (hp : s.psw.user = false)
    (h : tlbInsert s (s.readGr b) (s.readGr a) ((s.readGr a).extractLsb' 0 8) ((s.readGr r).extractLsb' 0 32) =
      .next u) : exec (.tlbIns r b a) s = .next u.retire := by
  rw [exec, execTlbIns, privileged_of_not_user hp, h]

/-- Settles O53: the insert of the three registers, and a retire. -/
theorem tlbInsertWritesTheVictimSlot : Obligations.TlbInsertWritesTheVictimSlot := by
  refine ⟨decode_sysRegisters .tlbIns fun _ => rfl, otherQualifiersIllegal 3 4, fun s r b a =>
    ⟨fun hu => privileged_of_user hu _, fun hp hlen => ?_⟩⟩
  obtain ⟨tlb', hi, hins⟩ := tlbInsert_next hlen (s.readGr b) (s.readGr a) ((s.readGr a).extractLsb' 0 8)
    ((s.readGr r).extractLsb' 0 32)
  refine ⟨_, exec_tlbIns_of_tlbInsert hp hi, registerResult_noRegister _ _, ?_⟩
  rw [← pageBase_eq, insertedTlb_pageBase, ← extractLsb'_zero_eq_ofNat, ← extractLsb'_zero_eq_ofNat]
  exact hins

theorem exec_tlbPrg_of_not_user {s : State} (b : Reg) (hp : s.psw.user = false) :
    exec (.tlbPrg b) s = .next ({ s with tlb := purgedTlb s.tlb (s.readGr b) } : State).retire := by
  rw [exec, execTlbPrg, privileged_of_not_user hp, State.purgeTlb, purgeEntries_eq]

/-- Settles O55: after the purge no entry is for the page. -/
theorem tlbPurgeInvalidatesOnePage : Obligations.TlbPurgeInvalidatesOnePage :=
  ⟨decode_sysRegisters (fun _ b _ => .tlbPrg b) fun _ => rfl, otherQualifiersIllegal 3 4, fun _ b =>
    ⟨fun hu => privileged_of_user hu _, fun hp =>
      ⟨_, exec_tlbPrg_of_not_user b hp, registerResult_noRegister _ _, fun _ => not_entryFor_of_mem_purgedTlb⟩⟩⟩

/-! ### RSM and SSM (43_sys.md R132, R133, R134) -/

/-- The effect of RSM and SSM: a new PSW at the same IA, and the old status in x[R]. -/
theorem registerResult_statusMask (s : State) (p : Psw) (hia : p.ia = s.psw.ia) (r : Reg) :
    RegisterResult { s with psw := p } (({ s with psw := p } : State).writeGr r s.statusWord).retire r
      (wordOf ((hostGetPsw s).toNat / 2 ^ 32 : Nat)) (s.psw.ia + 4) := by
  rw [hostGetPsw, ← statusWord_eq, ← hia]
  exact registerResult_retireTo _ r _ _

/-- Settles O56: both instructions are privileged and differ in the new PSW only. -/
theorem statusMaskClearsAndSetsTheModeBits : Obligations.StatusMaskClearsAndSetsTheModeBits := by
  refine ⟨fun w hw hq => ?_, fun w hw hq => ?_, otherQualifiersIllegal 3 6, fun s r m =>
    ⟨fun hu => ⟨privileged_of_user hu _, privileged_of_user hu _⟩, fun hp =>
      ⟨⟨_, privileged_of_not_user hp _, registerResult_statusMask s (s.psw.clearBits m) rfl r⟩,
        ⟨_, privileged_of_not_user hp _, registerResult_statusMask s (s.psw.setBits m) rfl r⟩⟩⟩⟩
  all_goals
    rw [regAt_eq, fieldAt_eq]
    exact decode_of_fields hw hq

/-! ### RFI (43_sys.md R135) -/

theorem exec_rfi_of_user {s : State} {n : CrSlot} {v : Word} (hu : s.psw.user = true) (hv : s.readCr n = some v) :
    exec (.rfi n) s = .next (s.trappedWith .privilegeViolation s.ir s.psw.ia 0) := by
  rw [exec, execRfi, hv]
  exact privileged_of_user hu _

/-- The restored PSW has the mode bits of the register, and IA is its low half. -/
theorem registerResult_restorePsw (s : State) (v : Word) :
    RegisterResult
      { s with psw := { s.psw with user := v.getLsbD 32, translate := v.getLsbD 33, overflow := v.getLsbD 34 } }
      (s.restorePsw v) 0 0 (addressOf v.toNat) := by
  rw [addressOf, BitVec.ofInt_natCast, ← extractLsb'_zero_eq_ofNat]
  exact registerResult_noRegister _ _

/-- Settles O57: the id is checked first, then privilege, and the restore is the whole of the cycle. -/
theorem returnFromInterruptLoadsThePsw : Obligations.ReturnFromInterruptLoadsThePsw :=
  ⟨decode_sysRegisters (fun _ b _ => .rfi b) fun _ => rfl, otherQualifiersIllegal 3 7, fun s =>
    ⟨fun _ hn => exec_of_reservedCr rfl hn s, fun p hp =>
      ⟨fun hu => exec_rfi_of_user hu (readCr_of_mem hp), fun hs =>
        ⟨_, exec_rfi_privileged hs (readCr_of_mem hp), registerResult_restorePsw s p.2⟩⟩⟩⟩

/-! ### TRAP and HALT (43_sys.md R136, R137) -/

theorem exec_trap_eq (code : BitVec 19) (s : State) : exec (.trap code) s =
    .next (s.trappedWith .softwareTrap (BitVec.ofNat 32 code.toNat) s.psw.ia s.ir) := by
  rw [BitVec.ofNat_toNat]
  rfl

/-- Settles O58: TRAP is a trap in either mode, HALT a privileged change of the run state. -/
theorem trapAndHaltStopTheCore : Obligations.TrapAndHaltStopTheCore := by
  refine ⟨fun w hw hq => ?_, otherQualifiersIllegal 3 8, decode_sysRegisters (fun _ _ _ => .halt) fun _ => rfl,
    otherQualifiersIllegal 3 9, fun s code => ⟨exec_trap_eq code s, fun hu => privileged_of_user hu _, fun hp =>
      ⟨_, privileged_of_not_user hp _, registerResult_noRegister _ _⟩⟩⟩
  rw [fieldAt_eq]
  exact decode_of_fields hw hq

/-! ### What traps in user mode, and what does not (43_sys.md R123) -/

/-- The outcome is another one than PrivilegeViolation: it is not the trapped state, and the record is as it was or of
another trap. -/
def NoPrivilegeTrap (s : State) (res : Result) : Prop :=
  res ≠ .next (s.trappedWith .privilegeViolation s.ir s.psw.ia 0) ∧
    ∃ t, res = .next t ∧ (t.lastTrap = s.lastTrap ∨ t.lastTrap.code ≠ .privilegeViolation)

/-- An instruction that retires: the trap would have left IA. -/
theorem noPrivilegeTrap_retire {s u : State} (hpsw : u.psw = s.psw) (htrap : u.lastTrap = s.lastTrap) :
    NoPrivilegeTrap s (.next u.retire) := by
  refine ⟨fun h => ?_, _, rfl, .inl htrap⟩
  have hia : u.psw.ia + 4 = s.psw.ia := congrArg (·.psw.ia) (Host.Outcome.next.inj h)
  rw [hpsw] at hia
  bv_omega

/-- An instruction that takes another trap. -/
theorem noPrivilegeTrap_trappedWith (s : State) {c : TrapCode} (hc : c ≠ .privilegeViolation)
    (info1 info2 info3 : BitVec 32) : NoPrivilegeTrap s (.next (s.trappedWith c info1 info2 info3)) :=
  ⟨fun h => hc (congrArg (·.lastTrap.code) (Host.Outcome.next.inj h)), _, rfl, .inr hc⟩

theorem noPrivilegeTrap_probe (s : State) (kind : AccessKind) (r : Reg) (va : Word) :
    NoPrivilegeTrap s (probe kind r va s) := by
  obtain ⟨u, v, hu, he⟩ := exists_probe_eq s kind r va
  rw [he]
  exact noPrivilegeTrap_retire hu.psw hu.lastTrap

theorem noPrivilegeTrap_mfcr (s : State) (r : Reg) (n : CrSlot) : NoPrivilegeTrap s (exec (.mfcr r n) s) := by
  by_cases hn : ReservedCr n.val
  · rw [exec_of_reservedCr rfl hn]
    exact noPrivilegeTrap_trappedWith s (by decide) _ _ _
  · obtain ⟨v, hv⟩ := exists_readCr hn s
    rw [exec_mfcr_of_readCr r hv]
    exact noPrivilegeTrap_retire rfl rfl

theorem noPrivilegeTrap_mtcr_shamt (s : State) (r : Reg) : NoPrivilegeTrap s (exec (.mtcr 1 r) s) := by
  rw [exec_mtcr_of_allowed r (by simp [ReservedCr]) (.inl rfl)]
  exact noPrivilegeTrap_retire rfl rfl

theorem noPrivilegeTrap_trap (s : State) (code : BitVec 19) : NoPrivilegeTrap s (exec (.trap code) s) := by
  rw [exec_trap_eq]
  exact noPrivilegeTrap_trappedWith s (by decide) _ _ _

/-- Settles O48: the privileged meanings trap, a reserved id before them, and each of the others retires or takes
another trap. -/
theorem privilegedInstructionsTrapInUserMode : Obligations.PrivilegedInstructionsTrapInUserMode := by
  intro s r b a n mask code hu
  refine ⟨privileged_of_user hu _, privileged_of_user hu _, privileged_of_user hu _, privileged_of_user hu _,
    privileged_of_user hu _, privileged_of_user hu _,
    fun hn => ⟨exec_of_reservedCr rfl hn s, exec_of_reservedCr rfl hn s⟩,
    fun hn => ⟨fun h1 => exec_mtcr_of_user r hn h1 hu, ?_⟩, fun i hi => show NoPrivilegeTrap s (exec i s) from ?_⟩
  · obtain ⟨v, hv⟩ := exists_readCr hn s
    exact exec_rfi_of_user hu hv
  · simp only [List.mem_cons, List.not_mem_nil, or_false] at hi
    rcases hi with rfl | rfl | rfl | rfl | rfl | rfl | rfl
    · exact noPrivilegeTrap_mfcr s r n
    · exact noPrivilegeTrap_mtcr_shamt s r
    · exact noPrivilegeTrap_probe s .read r (s.readGr b)
    · exact noPrivilegeTrap_probe s .write r (s.readGr b)
    · exact noPrivilegeTrap_probe s .execute r (s.readGr b)
    · exact noPrivilegeTrap_retire rfl rfl
    · exact noPrivilegeTrap_trap s code

end Sys2Proof.Machine
end

section
/-!
PROOFS. The statements of 60_exceptions.md: user mode cannot reach privileged state, and the two ways the host takes a
core out of TRAPPED.
-/

namespace Sys2Proof.Machine

/-! ### User mode and the privileged state (60_exceptions.md R149; 43_sys.md R123) -/

/-- `t` has the privileged state of `s`: U, T, V, the control registers but SHAMT, the TLB but its recency, and the
parameters; the run state changes to TRAPPED at most. -/
structure KeepsPrivileged (s t : State) : Prop where
  user : t.psw.user = s.psw.user
  translate : t.psw.translate = s.psw.translate
  overflow : t.psw.overflow = s.psw.overflow
  cr : t.cr = { s.cr with shamt := t.cr.shamt }
  tlb : SameTlbButRecency s t
  params : t.params = s.params
  run : t.run = s.run ∨ t.run = .trapped

theorem KeepsPrivileged.refl (s : State) : KeepsPrivileged s s :=
  ⟨rfl, rfl, rfl, rfl, .refl s, rfl, .inl rfl⟩

theorem KeepsPrivileged.trans {s u t : State} (h : KeepsPrivileged s u) (g : KeepsPrivileged u t) :
    KeepsPrivileged s t where
  user := g.user.trans h.user
  translate := g.translate.trans h.translate
  overflow := g.overflow.trans h.overflow
  cr := by rw [g.cr, h.cr]
  tlb := h.tlb.trans g.tlb
  params := g.params.trans h.params
  run := g.run.elim (fun hg => hg ▸ h.run) .inr

/-- A lookup and then a change of unprivileged state: of the PSW no more than IA, no control register, no TLB field. -/
theorem RecencyOnly.keepsPrivileged {s u t : State} (hu : RecencyOnly s u)
    (hpsw : t.psw = { u.psw with ia := t.psw.ia }) (hcr : t.cr = u.cr) (htlb : t.tlb = u.tlb)
    (htick : t.tlbTick = u.tlbTick) (hparams : t.params = u.params) (hrun : t.run = u.run ∨ t.run = .trapped) :
    KeepsPrivileged s t where
  user := by rw [hpsw, hu.psw]
  translate := by rw [hpsw, hu.psw]
  overflow := by rw [hpsw, hu.psw]
  cr := by rw [hcr, hu.cr]
  tlb := hu.tlb.trans (.of_eq htlb htick)
  params := hparams.trans hu.params
  run := hrun.imp_left (·.trans hu.run)

/-- Taking a trap after a lookup. -/
theorem RecencyOnly.raise_keepsPrivileged {s u : State} (hu : RecencyOnly s u) (c : TrapCode)
    (info1 info2 info3 : BitVec 32) : KeepsPrivileged s (u.raise c info1 info2 info3) :=
  hu.keepsPrivileged rfl rfl rfl rfl rfl (.inr rfl)

/-- SHAMT is the one control register that user mode may write (10_state.md R23). -/
theorem writeCr_shamt_keepsPrivileged (s : State) (v : Word) : KeepsPrivileged s (s.writeCr 1 v).retire :=
  ⟨rfl, rfl, rfl, rfl, .of_eq rfl rfl, rfl, .inl rfl⟩

theorem fetch_ok_keepsPrivileged {s s1 : State} {w : InstrWord} (h : fetch s = (.ok w, s1)) : KeepsPrivileged s s1 := by
  obtain ⟨u, hu, he⟩ := fetch_ok h
  rw [he]
  exact hu.keepsPrivileged rfl rfl rfl rfl rfl (.inl rfl)

/-- In user mode an instruction keeps the privileged state: the cases that write it, an insert or a purge of the TLB, a
new PSW, HALT and the other control registers, ask for privileged mode. -/
theorem ExecCase.keepsPrivileged {i : Instr} {s t : State} (hc : ExecCase i s t) (hs : s.psw.user = true) :
    KeepsPrivileged s t := by
  cases hc with
  | trap u c info1 info2 info3 hu hc hi ht => exact ht ▸ hu.raise_keepsPrivileged c info1 info2 info3
  | result u r v ia history hk hu hr ht => exact ht ▸ hu.keepsPrivileged rfl rfl rfl rfl rfl (.inl rfl)
  | store u sp pa ea v n hk hn hu ht =>
    exact ht ▸ (recencyOnly_of_translate hu).keepsPrivileged rfl rfl rfl rfl rfl (.inl rfl)
  | loadReserve u sp pa ea v n r history hk hr hn hu ht =>
    exact ht ▸ (recencyOnly_of_translate hu).keepsPrivileged rfl rfl rfl rfl rfl (.inl rfl)
  | conditionalStored u sp pa ea v n r hk hr hn hu ht =>
    exact ht ▸ (recencyOnly_of_translate hu).keepsPrivileged rfl rfl rfl rfl rfl (.inl rfl)
  | conditionalFailed u r hk hr hu ht => exact ht ▸ hu.keepsPrivileged rfl rfl rfl rfl rfl (.inl rfl)
  | controlWrite n v hk hn ht =>
    obtain rfl | hp := hn
    · exact ht ▸ writeCr_shamt_keepsPrivileged s v
    · cases hs.symm.trans hp
  | tlbInserted u va pa aid pid hk hp hu ht => cases hs.symm.trans hp
  | tlbPurged va hk hp ht => cases hs.symm.trans hp
  | status p r v hk hr hp ht => cases hs.symm.trans hp
  | restored v hk hp ht => cases hs.symm.trans hp
  | halted hk hp ht => cases hs.symm.trans hp

theorem step_keepsPrivileged {s t : State} (hs : s.psw.user = true) (h : step s = .next t) : KeepsPrivileged s t := by
  rcases step_cases h with
    ⟨-, rfl⟩ | ⟨-, c, s1, hf, rfl⟩ | ⟨-, w, s1, e, hf, -, rfl⟩ | ⟨-, w, s1, i, hf, -, -, hc⟩
  · exact .refl t
  · exact (fetch_error hf).1.raise_keepsPrivileged c _ _ _
  · exact (fetch_ok_keepsPrivileged hf).trans ((RecencyOnly.refl s1).raise_keepsPrivileged .illegalInstruction _ _ _)
  · have hfetch := fetch_ok_keepsPrivileged hf
    exact hfetch.trans (hc.keepsPrivileged (hfetch.user.trans hs))

/-- Settles O17: a step from user mode keeps the privileged state, and U is part of it. -/
theorem userModeCannotChangePrivilegedState : Obligations.UserModeCannotChangePrivilegedState := by
  intro s t hs h
  obtain ⟨user, translate, overflow, cr, tlb, params, run⟩ := step_keepsPrivileged hs h
  refine ⟨user.trans hs, translate, overflow, cr, tlb, params, fun hr hhalted => ?_⟩
  rw [hr, hhalted] at run
  exact absurd run (by decide)

/-! ### The ways out of TRAPPED (60_exceptions.md R144; 70_reset_and_hazards.md R159, R160) -/

theorem hostResume_of_trapped {s : State} (h : s.run = .trapped) : hostResume s = .next s.clearTrap :=
  if_pos h

theorem hostHalt_of_trapped {s : State} (h : s.run = .trapped) : hostHalt s = .next { s with run := .halted } :=
  if_pos h

theorem hostResume_of_not_trapped {s : State} (h : s.run ≠ .trapped) : hostResume s = .refused .hostCallNotTrapped :=
  if_neg h

theorem hostHalt_of_not_trapped {s : State} (h : s.run ≠ .trapped) : hostHalt s = .refused .hostCallNotTrapped :=
  if_neg h

/-- Settles O60: both calls answer by the run state. -/
theorem resumeAndHaltLeaveTrappedOnly : Obligations.ResumeAndHaltLeaveTrappedOnly :=
  fun _ => ⟨fun h => ⟨hostResume_of_trapped h, hostHalt_of_trapped h⟩,
    fun h => ⟨hostResume_of_not_trapped h, hostHalt_of_not_trapped h⟩⟩

end Sys2Proof.Machine
end

section
/-!
PROOFS. The statements of 70_reset_and_hazards.md: what `step(n)` counts and when it stops, and that no operation of
the host leaves the states of a machine of the spec.
-/

namespace Sys2Proof.Machine

/-! ### The loop of step(n) (70_reset_and_hazards.md R162, R163) -/

theorem stepLoop_zero (k : Nat) (s : State) :
    stepLoop 0 k s = .next { retired := k, trap := s.lastTrap, state := s } := rfl

/-- A TRAPPED or HALTED core ends the loop, whatever is left of the count. -/
theorem stepLoop_stopped {s : State} (h : s.run ≠ .running) (n k : Nat) :
    stepLoop n k s = .next { retired := k, trap := s.lastTrap, state := s } := by
  cases n with
  | zero => rfl
  | succ n => rw [stepLoop, if_neg h]

/-- A RUNNING core performs one step, and the loop goes on from there. -/
theorem stepLoop_succ {s t : State} (hr : s.run = .running) (ht : step s = .next t) (n k : Nat) :
    stepLoop (n + 1) k s = stepLoop n (if t.run = .trapped then k else k + 1) t := by
  rw [stepLoop, if_pos hr, ← step_running hr, ht]

/-- An answer of the loop from a RUNNING core comes by the answer of its first step. -/
theorem stepLoop_succ_next {s : State} {n k : Nat} {r : RunReply} (hr : s.run = .running)
    (h : stepLoop (n + 1) k s = .next r) :
    ∃ t, step s = .next t ∧ stepLoop n (if t.run = .trapped then k else k + 1) t = .next r := by
  rw [stepLoop, if_pos hr, ← step_running hr] at h
  split at h
  · rename_i t ht
    exact ⟨t, ht, h⟩
  · cases h
  · cases h

/-- The count the loop starts with is only added to: one more before is one more in the answer. -/
theorem stepLoop_count_succ {n k : Nat} {s : State} {r : RunReply} (h : stepLoop n k s = .next r) :
    stepLoop n (k + 1) s = .next { r with retired := r.retired + 1 } := by
  induction n generalizing k s with
  | zero =>
    cases h
    rfl
  | succ n ih =>
    by_cases hr : s.run = .running
    · obtain ⟨t, ht, hloop⟩ := stepLoop_succ_next hr h
      rw [stepLoop_succ hr ht, ← ih hloop]
      split <;> rfl
    · rw [stepLoop_stopped hr] at h ⊢
      cases h
      rfl

theorem hostStep_stopped {s : State} (h : s.run ≠ .running) (n : Nat) :
    hostStep s n = .next { retired := 0, trap := s.lastTrap, state := s } :=
  stepLoop_stopped h n 0

/-- `step(n + 1)` by the first step and `step(n)` from there. -/
theorem hostStep_succ {s t u : State} {n k : Nat} {q : TrapRecord} (hr : s.run = .running) (ht : step s = .next t)
    (h : hostStep t n = .next { retired := k, trap := q, state := u }) :
    hostStep s (n + 1) =
      .next { retired := if t.run = .trapped then k else k + 1, trap := q, state := u } := by
  rw [hostStep, stepLoop_succ hr ht]
  by_cases htrap : t.run = .trapped
  · rw [if_pos htrap, if_pos htrap]
    exact h
  · rw [if_neg htrap, if_neg htrap]
    exact stepLoop_count_succ h

/-- Settles O11: the clauses of the loop at the count 0 `step(n)` starts with. -/
theorem hostStepCountsRetiredInstructions : Obligations.HostStepCountsRetiredInstructions :=
  ⟨stepLoop_zero 0, fun _ n h => hostStep_stopped h n, fun _ _ _ _ _ _ => hostStep_succ, fun _ _ => rfl⟩

/-- Settles O10: neither the core's own step nor the host's loop runs a cycle outside RUNNING. -/
theorem stoppedCoreExecutesNothing : Obligations.StoppedCoreExecutesNothing :=
  fun _ h => ⟨step_stopped h, hostStep_stopped h⟩

/-! ### What the host's calls answer (70_reset_and_hazards.md R160) -/

theorem hostSetGeneralReg_cases {s t : State} {i : Nat} {v : Word} (h : hostSetGeneralReg s i v = .next t) :
    ∃ r, t = s.writeGr r v := by
  unfold hostSetGeneralReg at h
  split at h
  · cases h
    exact ⟨_, rfl⟩
  · cases h

theorem hostSetControlReg_cases {s t : State} {id : Nat} {v : Word} (h : hostSetControlReg s id v = .next t) :
    ∃ n, t = s.writeCr n v := by
  unfold hostSetControlReg at h
  split at h
  · cases h
    exact ⟨_, rfl⟩
  · cases h

/-- What `loadImage` answers with: the byte writes of an image that is empty or lies in physical memory. -/
theorem hostLoadImage_cases {s t : State} {pa : Word} {bytes : List Byte} (h : hostLoadImage s pa bytes = .next t) :
    (bytes = [] ∨ pa.toNat + bytes.length ≤ s.params.physMemSize) ∧ t = writeImage s pa bytes := by
  unfold hostLoadImage at h
  split at h
  · rename_i hb
    refine ⟨?_, (Host.Outcome.next.inj h).symm⟩
    simpa using hb
  · cases h

/-! ### Every operation keeps the invariant (70_reset_and_hazards.md R156, R160) -/

/-- Reset keeps memory and the parameters, so what the invariant says of them; the rest is as in the reset state. -/
theorem State.Inv.hostReset {s : State} (h : s.Inv) : (Machine.hostReset s).Inv :=
  have tlb : TlbOk (Machine.hostReset s).tlb 0 := by
    rw [hostReset_tlb]
    exact tlbOk_replicate_empty h.slots
  { params := h.params
    zero := resetStateSatisfiesTheInvariant.zero
    memory := h.memory
    backed := h.backed
    slots := tlb.slots
    pages := tlb.pages
    unique := tlb.unique
    stamps := tlb.stamps
    recency := tlb.recency
    runningClear := fun _ => rfl
    trappedSet := fun hr => absurd hr (by decide : RunState.running ≠ .trapped)
    reservation := fun hv => absurd hv (by decide : false ≠ true) }

/-- Each byte of an image in physical memory is a write of a backed byte: the addresses do not wrap. -/
theorem State.Inv.writeImage {s : State} (h : s.Inv) {pa : Word} {bytes : List Byte}
    (hb : bytes = [] ∨ pa.toNat + bytes.length ≤ s.params.physMemSize) : (Machine.writeImage s pa bytes).Inv := by
  induction bytes generalizing s pa with
  | nil => exact h
  | cons v bytes ih =>
    have hfits : pa.toNat + (bytes.length + 1) ≤ s.params.physMemSize := hb.resolve_left (List.cons_ne_nil v bytes)
    have hphys : s.params.physMemSize ≤ 0xF0000000 := h.params.2.1
    have hnext : (pa + 1).toNat = pa.toNat + 1 := nextAddress_toNat (by omega)
    have hbyte : (s.regionWrite .phys pa 1 (v.setWidth 64)).Inv := h.regionWrite (.inl ⟨rfl, by omega⟩) _
    refine ih hbyte (.inr ?_)
    rw [State.regionWrite_params]
    omega

theorem State.Inv.hostResume {s t : State} (h : s.Inv) (ht : Machine.hostResume s = .next t) : t.Inv := by
  by_cases hr : s.run = .trapped
  · rw [hostResume_of_trapped hr] at ht
    cases ht
    exact h.clearTrap
  · rw [hostResume_of_not_trapped hr] at ht
    cases ht

theorem State.Inv.hostHalt {s t : State} (h : s.Inv) (ht : Machine.hostHalt s = .next t) : t.Inv := by
  by_cases hr : s.run = .trapped
  · rw [hostHalt_of_trapped hr] at ht
    cases ht
    exact h.halt
  · rw [hostHalt_of_not_trapped hr] at ht
    cases ht

theorem State.Inv.hostSetGeneralReg {s t : State} (h : s.Inv) {i : Nat} {v : Word}
    (ht : Machine.hostSetGeneralReg s i v = .next t) : t.Inv := by
  obtain ⟨r, rfl⟩ := hostSetGeneralReg_cases ht
  exact h.writeGr r v

theorem State.Inv.hostSetControlReg {s t : State} (h : s.Inv) {id : Nat} {v : Word}
    (ht : Machine.hostSetControlReg s id v = .next t) : t.Inv := by
  obtain ⟨n, rfl⟩ := hostSetControlReg_cases ht
  exact h.writeCr n v

theorem State.Inv.hostReadMem {s t : State} (h : s.Inv) {pa v : Word} {n : Nat}
    (ht : Machine.hostReadMem s pa n = .next (v, t)) : t.Inv := by
  obtain ⟨-, -, hread⟩ := hostReadMem_cases ht
  have hinv := h.hostRead pa n
  rwa [hread] at hinv

theorem State.Inv.hostWriteMem {s t : State} (h : s.Inv) {pa v : Word} {n : Nat}
    (ht : Machine.hostWriteMem s pa v n = .next t) : t.Inv := by
  obtain ⟨hn, hb, rfl⟩ := hostWriteMem_cases ht
  exact h.hostWrite (by omega) hb v

theorem State.Inv.hostLoadImage {s t : State} (h : s.Inv) {pa : Word} {bytes : List Byte}
    (ht : Machine.hostLoadImage s pa bytes = .next t) : t.Inv := by
  obtain ⟨hb, rfl⟩ := hostLoadImage_cases ht
  exact h.writeImage hb

/-- The invariant along the loop: every step keeps it. -/
theorem State.Inv.stepLoop {s : State} (h : s.Inv) {n k : Nat} {r : RunReply}
    (hloop : Machine.stepLoop n k s = .next r) : r.state.Inv := by
  induction n generalizing k s with
  | zero =>
    cases hloop
    exact h
  | succ n ih =>
    by_cases hr : s.run = .running
    · obtain ⟨t, ht, hrest⟩ := stepLoop_succ_next hr hloop
      exact ih (everyStepKeepsTheStateInvariant s t h ht) hrest
    · rw [stepLoop_stopped hr] at hloop
      cases hloop
      exact h

/-- Settles O14: one lemma per operation; a run of steps by the invariant of one step. -/
theorem hostOperationsKeepTheStateInvariant : Obligations.HostOperationsKeepTheStateInvariant :=
  fun _ h => ⟨h.hostReset, fun v => h.withPsw (Psw.ofWord v), h.purgeTlb, fun _ => h.hostResume, fun _ => h.hostHalt,
    fun _ _ _ => h.hostSetGeneralReg, fun _ _ _ => h.hostSetControlReg, fun _ _ _ _ _ => h.tlbInsert,
    fun _ _ _ _ => h.hostReadMem, fun _ _ _ _ => h.hostWriteMem, fun _ _ _ => h.hostLoadImage,
    fun _ _ => h.stepLoop⟩

end Sys2Proof.Machine
end
